-- ==== Sys2Proof/Word.lean ====
section
/-! DEFINITION. The widths the spec gives its values (R6, R7), and the two containers of a fixed number of like
things: four palette entries (R12) and eight rows (R16, R17). -/

namespace Sys2Proof

/-- A host register's value (R11). -/
abbrev Word := BitVec 32

/-- A byte of a bitplane or of the output stream (R7). -/
abbrev Byte := BitVec 8

/-- A colour, the 24-bit value of R70: red in bits 23..16, green in 15..8, blue in 7..0. -/
abbrev Color := BitVec 24

/-- A 2-bit colour index: of a palette position or of a pixel (R16, R101). -/
abbrev Index := BitVec 2

/-- Four like things, numbered 0 to 3: the palette entries of R12 and R101. -/
structure Four (α : Type) where
  e0 : α
  e1 : α
  e2 : α
  e3 : α
  deriving DecidableEq, Repr, Inhabited

/-- Eight like things, numbered 0 to 7: the rows of a tile or the pixels of a row (R16, R17). -/
structure Eight (α : Type) where
  e0 : α
  e1 : α
  e2 : α
  e3 : α
  e4 : α
  e5 : α
  e6 : α
  e7 : α
  deriving DecidableEq, Repr, Inhabited

end Sys2Proof
end

