-- ==== Sys2Proof/Config.lean ====
section
/-! DEFINITION. What lies outside the block and is fixed for the model: the records exchanged with the Pixel
Quantizer (R100, R101) and the one open parameter, its answers Q. -/

namespace Sys2Proof

/-- The request QREQ: the pixel coordinates of the region's top-left pixel (R100). -/
structure QReq where
  x0 : BitVec 16
  y0 : BitVec 16
  deriving DecidableEq, Repr, Inhabited

/-- The response QRSP (R101). `idx` holds the 64 places that are ever read: a response of another shape raises before
any index is read (U12; log 11). -/
structure QRsp where
  palLen : BitVec 3
  transp : Option Index
  pal : Four Color
  rows : BitVec 5
  cols : BitVec 5
  idx : Eight (Eight Index)
  deriving DecidableEq, Repr, Inhabited

/-- The Pixel Quantizer's answers Q where the state lists none: a free value with no body, so a statement about the
block holds for every Q (R36, R101; log 4). -/
opaque Config.quantizer : QReq → QRsp

end Sys2Proof
end

