-- ==== Sys2Proof/Syntax.lean ====
section
/-! DEFINITION. The registers of the host register space by name (R11), the seven instructions of
spec/opcode_table.json, and the two encoded forms an instruction has (R61, R62). -/

namespace Sys2Proof

/-- The registers of R11 by name. `reserved` stands for the indices R11 calls reserved, each with its index. -/
inductive Reg where
  | cmd
  | status
  | cfg
  | widthMultiple
  | byteLimit
  | imgWidth
  | imgHeight
  | tileSize
  | tileCount
  | byteCount
  | errInfo
  | outAddr
  | outData
  | palCtrl
  | pal (i : Fin 4)
  | perm
  | tileShape
  | tileRow (r : Fin 8)
  | plane0 (r : Fin 8)
  | plane1 (r : Fin 8)
  | reserved (index : BitVec 6)
  deriving DecidableEq, Repr

/-- One constructor per row of spec/opcode_table.json: the two host transactions of format BUS39 and the five
command words of format CMD8. -/
inductive Instr where
  /-- `WR addr, value` (R153). -/
  | wr (reg : Reg) (value : Word)
  /-- `RD addr` (R154); the transaction's `wdata` is ignored (R61) and is no part of the instruction. -/
  | rd (reg : Reg)
  /-- `NOP`, command word 0x00 (R155). -/
  | nop
  /-- `NORMALIZE`, command word 0x01 (R87). -/
  | normalize
  /-- `ENCODE_TILE`, command word 0x02 (R113). -/
  | encodeTile
  /-- `ASSEMBLE`, command word 0x03 (R120). -/
  | assemble
  /-- `CLEAR`, command word 0x04 (R156). -/
  | clear
  deriving DecidableEq, Repr

/-- An instruction as the host gives it: a host transaction written as one 39-bit word (R61), or a value written to
CMD (R62), which is what the host notation `cmd M` stands for (R72). -/
inductive Encoded where
  | bus39 (w : BitVec 39)
  | cmd8 (v : Word)
  deriving DecidableEq, Repr

end Sys2Proof
end

