-- ==== Sys2Proof/WellFormed.lean ====
section
/-! DEFINITION. Which terms of the syntax name something of the spec. The types carry every bound but one: a
`Reg.reserved` must carry an index that R11 calls reserved. -/

namespace Sys2Proof

/-- R11 calls this index reserved: 0x0D to 0x0F, 0x16, 0x17, 0x19 to 0x1F, 0x38 to 0x3F (also U21). -/
def reservedIndex (i : BitVec 6) : Bool :=
  (0x0D ≤ i.toNat && i.toNat ≤ 0x0F) || (i.toNat == 0x16) || (i.toNat == 0x17)
    || (0x19 ≤ i.toNat && i.toNat ≤ 0x1F) || (0x38 ≤ i.toNat)

/-- A register name is well formed when a reserved one carries a reserved index. -/
def Reg.wellFormed : Reg → Bool
  | .reserved i => reservedIndex i
  | _ => true

/-- An instruction is well formed when the register it names is. -/
def Instr.wellFormed : Instr → Bool
  | .wr reg _ => reg.wellFormed
  | .rd reg => reg.wellFormed
  | .nop => true
  | .normalize => true
  | .encodeTile => true
  | .assemble => true
  | .clear => true

end Sys2Proof
end

