-- ==== Sys2Proof/Decode.lean ====
section
/-! DEFINITION. Decoding of host transactions (BUS39, R61) and of command words (CMD8, R62, R63), rejecting by name,
and the encoder written from the same tables. -/

namespace Sys2Proof

/-- Why something is no instruction. -/
inductive DecodeError where
  /-- A value written to CMD that R63 calls reserved: 0x05 to 0xFF, or with a bit of 31..8 set. -/
  | reservedCommand (v : Word)
  /-- A listing word with a bit set beyond its length, or beyond bit 38: BUS39 has bits 38..0 only (R61). Refusing it is
  a DESIGN CHOICE (log 16). -/
  | tooWide (w : Nat)
  /-- A listing word of a length no format has (R71): 0, 33 to 38, or above 40 bits. Refusing it is a DESIGN CHOICE
  (log 16). -/
  | notALength (nbits : Nat)
  deriving DecidableEq, Repr

/-- The register of an index, row by row as the map of R11 lists them. -/
def Reg.ofIndex (i : BitVec 6) : Reg :=
  match i.toNat with
  | 0x00 => .cmd
  | 0x01 => .status
  | 0x02 => .cfg
  | 0x03 => .widthMultiple
  | 0x04 => .byteLimit
  | 0x05 => .imgWidth
  | 0x06 => .imgHeight
  | 0x07 => .tileSize
  | 0x08 => .tileCount
  | 0x09 => .byteCount
  | 0x0A => .errInfo
  | 0x0B => .outAddr
  | 0x0C => .outData
  | 0x10 => .palCtrl
  | 0x11 => .pal 0
  | 0x12 => .pal 1
  | 0x13 => .pal 2
  | 0x14 => .pal 3
  | 0x15 => .perm
  | 0x18 => .tileShape
  | 0x20 => .tileRow 0
  | 0x21 => .tileRow 1
  | 0x22 => .tileRow 2
  | 0x23 => .tileRow 3
  | 0x24 => .tileRow 4
  | 0x25 => .tileRow 5
  | 0x26 => .tileRow 6
  | 0x27 => .tileRow 7
  | 0x28 => .plane0 0
  | 0x29 => .plane0 1
  | 0x2A => .plane0 2
  | 0x2B => .plane0 3
  | 0x2C => .plane0 4
  | 0x2D => .plane0 5
  | 0x2E => .plane0 6
  | 0x2F => .plane0 7
  | 0x30 => .plane1 0
  | 0x31 => .plane1 1
  | 0x32 => .plane1 2
  | 0x33 => .plane1 3
  | 0x34 => .plane1 4
  | 0x35 => .plane1 5
  | 0x36 => .plane1 6
  | 0x37 => .plane1 7
  | _ => .reserved i

/-- The index of a register (R11). -/
def Reg.index : Reg → BitVec 6
  | .cmd => 0x00
  | .status => 0x01
  | .cfg => 0x02
  | .widthMultiple => 0x03
  | .byteLimit => 0x04
  | .imgWidth => 0x05
  | .imgHeight => 0x06
  | .tileSize => 0x07
  | .tileCount => 0x08
  | .byteCount => 0x09
  | .errInfo => 0x0A
  | .outAddr => 0x0B
  | .outData => 0x0C
  | .palCtrl => 0x10
  | .pal i => BitVec.ofNat 6 (0x11 + i.val)
  | .perm => 0x15
  | .tileShape => 0x18
  | .tileRow r => BitVec.ofNat 6 (0x20 + r.val)
  | .plane0 r => BitVec.ofNat 6 (0x28 + r.val)
  | .plane1 r => BitVec.ofNat 6 (0x30 + r.val)
  | .reserved i => i

/-- A host transaction read from its 39-bit word (R61): bit 38 is `we`, 37..32 the register index, 31..0 `wdata`,
which a read ignores. Every word is a transaction. -/
def decodeBus39 (w : BitVec 39) : Instr :=
  if w.getLsbD 38 then .wr (Reg.ofIndex (w.extractLsb' 32 6)) (w.extractLsb' 0 32)
  else .rd (Reg.ofIndex (w.extractLsb' 32 6))

/-- A command read from the value written to CMD (R62); every other value is reserved (R63). -/
def decodeCmd8 (v : Word) : Except DecodeError Instr :=
  match v.toNat with
  | 0x00 => .ok .nop
  | 0x01 => .ok .normalize
  | 0x02 => .ok .encodeTile
  | 0x03 => .ok .assemble
  | 0x04 => .ok .clear
  | _ => .error (.reservedCommand v)

/-- Decoding of either form. -/
def decode : Encoded → Except DecodeError Instr
  | .bus39 w => .ok (decodeBus39 w)
  | .cmd8 v => decodeCmd8 v

/-- The 39-bit word of a host transaction: `we`, index, data (R61). -/
def busWord (we : Bool) (reg : Reg) (wdata : Word) : BitVec 39 :=
  BitVec.ofBool we ++ (reg.index ++ wdata)

/-- The encoder: transactions as BUS39 words, a read with 0 as its data as listings put it (R61), commands as their
command words (R62). -/
def encode : Instr → Encoded
  | .wr reg value => .bus39 (busWord true reg value)
  | .rd reg => .bus39 (busWord false reg 0)
  | .nop => .cmd8 0x00
  | .normalize => .cmd8 0x01
  | .encodeTile => .cmd8 0x02
  | .assemble => .cmd8 0x03
  | .clear => .cmd8 0x04

/-- The host transaction that performs an instruction: its own word, or for a command the write of its command word
to CMD (R72: `cmd M` is `wr CMD, word(M)`; the column `bus39` of spec/opcode_table.json). -/
def transaction (i : Instr) : BitVec 39 :=
  match encode i with
  | .bus39 w => w
  | .cmd8 v => busWord true .cmd v

/-- A listing word of `nbits` bits as one of the two forms: up to 32 bits it is a value written to CMD, else a BUS39
word. Which lengths are listings at all is `decodeListing`'s to say (DESIGN CHOICE, log 16). -/
def listing (nbits w : Nat) : Encoded :=
  if nbits ≤ 32 then .cmd8 (BitVec.ofNat 32 w) else .bus39 (BitVec.ofNat 39 w)

/-- Decoding of a listing word, total on any numbers. R61, R62 and R71 give the lengths 39 and, of a value written to
CMD, 8 or the whole 32; what else is read is a DESIGN CHOICE (log 16): 1 to 32 bits are a value written to CMD, 39 bits
and their whole bytes, 40, a BUS39 word; any other length, and a bit beyond the length or beyond bit 38, is refused by
name. -/
def decodeListing (nbits w : Nat) : Except DecodeError Instr :=
  if nbits = 0 ∨ (32 < nbits ∧ nbits < 39) ∨ 40 < nbits then .error (.notALength nbits)
  else if nbits ≤ 32 then
    (if 2 ^ nbits ≤ w then .error (.tooWide w) else decode (listing nbits w))
  else if 2 ^ 39 ≤ w then .error (.tooWide w)
  else decode (listing nbits w)

/-- The instruction the decoder reads from a row's word of spec/opcode_table.json: rows of format CMD8 have at most
32 bits there, rows of format BUS39 have 39 (40 in whole bytes). -/
def decodeTableWord (nbits w : Nat) : Option Instr :=
  (decodeListing nbits w).toOption

end Sys2Proof
end

