-- ==== Sys2Proof/Machine/State.lean ====
section
/-! DEFINITION. The state of the block, group by group as R10 lists it, with the model's own environment and output
fields beside it; the reasons a step can stop; the state after reset (R37). -/

namespace Sys2Proof.Machine

/-- Where the block is (R24). -/
inductive Phase where
  | idle
  | scan
  | pad
  | done
  | error
  deriving DecidableEq, Repr

/-- The fatal errors of R166; their codes are in Machine/Flags.lean. -/
inductive ErrorKind where
  | shape
  | paletteOverflow
  | contract
  | illegalCommand
  deriving DecidableEq, Repr

/-- The events of the side channel (R169). -/
inductive Event where
  | margin
  | softLimit
  | truncation
  | fatal
  deriving DecidableEq, Repr

/-- CFG.SCAN_ORDER (R20, R123). -/
inductive ScanOrder where
  | rowMajor
  | columnMajor
  deriving DecidableEq, Repr

/-- CFG.PLANE_ORDER (R20, R67). -/
inductive PlaneOrder where
  | lowThenHigh
  | highThenLow
  deriving DecidableEq, Repr

/-- The configuration registers (R20 to R23), each in its defined bits. TILE_SIZE is a constant and holds nothing. -/
structure ConfigRegs where
  cfg : BitVec 3
  widthMultiple : BitVec 16
  byteLimit : Word
  imgWidth : BitVec 16
  imgHeight : BitVec 16
  deriving DecidableEq, Repr

/-- PAL_CTRL's defined fields (R13). -/
structure PalCtrl where
  palLen : BitVec 3
  transpEn : Bool
  transpIdx : Index
  deriving DecidableEq, Repr

/-- The palette normalizer's registers (R12 to R14). -/
structure PnRegs where
  palCtrl : PalCtrl
  pal : Four Color
  perm : BitVec 11
  deriving DecidableEq, Repr

/-- TILE_SHAPE's defined fields (R15). -/
structure TileShape where
  rows : BitVec 5
  cols : BitVec 5
  deriving DecidableEq, Repr

/-- The tile encoder's registers (R15 to R17). -/
structure TeRegs where
  tileShape : TileShape
  tileRow : Eight (BitVec 16)
  plane0 : Eight Byte
  plane1 : Eight Byte
  deriving DecidableEq, Repr

/-- STATUS's stored bits and ERR_INFO (R19, R27). BUSY, DONE and ERROR are decoded from the phase. ERR_CODE is held
as the recorded kind, if any: no other code is ever produced (R166, U28). -/
structure StatusRegs where
  outValid : Bool
  errCode : Option ErrorKind
  warnMargin : Bool
  warnSoft : Bool
  trunc : Bool
  permValid : Bool
  planeValid : Bool
  errInfo : Word
  deriving DecidableEq, Repr

/-- The sequencing state (R24, R25, R31). -/
structure Sequencing where
  phase : Phase
  tileCount : Word
  padLeft : Word
  tilesX : BitVec 13
  tilesY : BitVec 13
  nTiles : BitVec 26
  deriving DecidableEq, Repr

/-- The output buffer's bytes: (offset, byte) pairs by rising offset, none of them 0, since an offset that is not
listed reads 0 (R43; log 8). -/
abbrev Memory := List Host.Cell

/-- The output buffer, its length in bytes, and the host's read offset (R26, R28, R29). -/
structure Output where
  out : Memory
  byteCount : Word
  outAddr : Word
  deriving DecidableEq, Repr

/-- The latched configuration L (R30). -/
structure Latch where
  scanOrder : ScanOrder
  planeOrder : PlaneOrder
  legacy : Bool
  mult : BitVec 16
  limit : Word
  w : BitVec 16
  h : BitVec 16
  deriving DecidableEq, Repr

/-- What the host does next (R199): a transaction, a turn left to the block's sequencer, the reset input (R190), or a
new image behind the quantizer, given by the answers it leads to (R192, R197). -/
inductive HostMove where
  | send (e : Encoded)
  | yield
  | reset
  | image (answers : List (QReq × QRsp))
  deriving DecidableEq, Repr

/-- The model's own: the host's coming moves, first one first, and the quantizer's answers for the listed regions
(logs 1 and 4). -/
structure Env where
  inputs : List HostMove
  answers : List (QReq × QRsp)
  deriving DecidableEq, Repr

/-- The model's own: what the last action put on the block's outputs: a read's value (R154), an event (R169), a
request to the quantizer (R100) (log 3). -/
structure Port where
  rdata : Option Word
  event : Option Event
  qreq : Option QReq
  deriving DecidableEq, Repr

structure State where
  /-- Configuration registers. -/
  config : ConfigRegs
  /-- PN data registers. -/
  pn : PnRegs
  /-- TE data registers. -/
  te : TeRegs
  /-- STATUS and ERR_INFO. -/
  status : StatusRegs
  /-- Sequencing state. -/
  seq : Sequencing
  /-- Output buffer, BYTE_COUNT, OUT_ADDR. -/
  output : Output
  /-- The latched configuration L. -/
  latch : Latch
  /-- The model's own: the host and the quantizer. -/
  env : Env
  /-- The model's own: the outputs of the last action. -/
  port : Port
  deriving DecidableEq, Repr

/-- Why the machine stops. A fatal error of the block (R171) is no stop: it is a state. -/
inductive Fault where
  /-- A race: the host puts a new image in place while a call is running, for which no rule of the spec describes a
  result (R197, H-5). Raised by `step` on a host move `image` while BUSY, by no instruction. Safe: the model stops
  where the hardware goes on (log 5). -/
  | imageChangedDuringCall
  deriving DecidableEq, Repr

/-- Why a step has no meaning. -/
inductive Refusal where
  /-- An instruction the model gives no meaning yet: raised by an arm of `exec`. No arm is in that state. Safe: the
  model stops where the hardware goes on. -/
  | notModelled (mnemonic : String)
  deriving DecidableEq, Repr

/-- The machine right after reset: every value is the one R37 states. The environment and the outputs, which are the
model's own, are empty (log 18). -/
def State.reset : State where
  config := { cfg := 0, widthMultiple := 1, byteLimit := 0, imgWidth := 0, imgHeight := 0 }
  pn :=
    { palCtrl := { palLen := 0, transpEn := false, transpIdx := 0 }
      pal := { e0 := 0, e1 := 0, e2 := 0, e3 := 0 }
      perm := 0 }
  te :=
    { tileShape := { rows := 8, cols := 8 }
      tileRow := { e0 := 0, e1 := 0, e2 := 0, e3 := 0, e4 := 0, e5 := 0, e6 := 0, e7 := 0 }
      plane0 := { e0 := 0, e1 := 0, e2 := 0, e3 := 0, e4 := 0, e5 := 0, e6 := 0, e7 := 0 }
      plane1 := { e0 := 0, e1 := 0, e2 := 0, e3 := 0, e4 := 0, e5 := 0, e6 := 0, e7 := 0 } }
  status :=
    { outValid := false, errCode := none, warnMargin := false, warnSoft := false, trunc := false
      permValid := false, planeValid := false, errInfo := 0 }
  seq := { phase := .idle, tileCount := 0, padLeft := 0, tilesX := 0, tilesY := 0, nTiles := 0 }
  output := { out := [], byteCount := 0, outAddr := 0 }
  latch :=
    { scanOrder := .rowMajor, planeOrder := .lowThenHigh, legacy := false, mult := 1, limit := 0, w := 0, h := 0 }
  env := { inputs := [], answers := [] }
  port := { rdata := none, event := none, qreq := none }

end Sys2Proof.Machine
end

