-- ==== Sys2Proof/Machine/Flags.lean ====
section
/-! DEFINITION. The flags: what is decoded from the phase, the codes of errors and events, and the STATUS word (R19,
R24, R32, R166, R169). -/

namespace Sys2Proof.Machine

/-- STATUS.BUSY: an ASSEMBLE call is running (R19, R24). -/
def State.busy (s : State) : Bool :=
  s.seq.phase == .scan || s.seq.phase == .pad

/-- STATUS.DONE (R19, R24). -/
def State.isDone (s : State) : Bool :=
  s.seq.phase == .done

/-- STATUS.ERROR (R19, R24). -/
def State.isError (s : State) : Bool :=
  s.seq.phase == .error

/-- The phases in which every command is performed and a reserved word raises: IDLE and DONE (R151). -/
def State.acceptsCommand (s : State) : Bool :=
  s.seq.phase == .idle || s.seq.phase == .done

/-- The phases in which NOP and CLEAR are performed: IDLE, DONE and ERROR (R151). -/
def State.acceptsClear (s : State) : Bool :=
  s.seq.phase == .idle || s.seq.phase == .done || s.seq.phase == .error

/-- ERR_CODE of a kind (R166). -/
def ErrorKind.code : ErrorKind → BitVec 4
  | .shape => 1
  | .paletteOverflow => 2
  | .contract => 3
  | .illegalCommand => 4

/-- The ERR_CODE field: 0 when no error is recorded (R19, R166). -/
def errCodeField : Option ErrorKind → BitVec 4
  | none => 0
  | some k => k.code

/-- The event code put on the event port, `ev_kind` (R166, R169). -/
def Event.code : Event → BitVec 3
  | .margin => 1
  | .softLimit => 2
  | .truncation => 3
  | .fatal => 4

/-- The STATUS word, from bit 31 down: reserved, PLANE_VALID, PERM_VALID, TRUNC, WARN_SOFT, WARN_MARGIN, ERR_CODE,
OUT_VALID, ERROR, DONE, BUSY (R19). -/
def State.statusWord (s : State) : Word :=
  0#19 ++ (BitVec.ofBool s.status.planeValid ++ (BitVec.ofBool s.status.permValid ++ (BitVec.ofBool s.status.trunc ++
    (BitVec.ofBool s.status.warnSoft ++ (BitVec.ofBool s.status.warnMargin ++ (errCodeField s.status.errCode ++
    (BitVec.ofBool s.status.outValid ++ (BitVec.ofBool s.isError ++ (BitVec.ofBool s.isDone ++
    BitVec.ofBool s.busy)))))))))

end Sys2Proof.Machine
end

