-- ==== Sys2Proof/Machine/Operands.lean ====
section
/-! DEFINITION. Access to the four- and eightfold containers, the packing of fields in registers (R13 to R16, R20),
and the operands each command takes from them (R64). -/

namespace Sys2Proof

/-- The entry at a position. -/
def Four.get {α : Type} (v : Four α) (i : Fin 4) : α :=
  match i with
  | 0 => v.e0
  | 1 => v.e1
  | 2 => v.e2
  | 3 => v.e3

/-- The container with one entry replaced. -/
def Four.set {α : Type} (v : Four α) (i : Fin 4) (x : α) : Four α :=
  match i with
  | 0 => { v with e0 := x }
  | 1 => { v with e1 := x }
  | 2 => { v with e2 := x }
  | 3 => { v with e3 := x }

/-- The entry a 2-bit index names. -/
def Four.at {α : Type} (v : Four α) (i : Index) : α :=
  v.get i.toFin

/-- The entry at a position. -/
def Eight.get {α : Type} (v : Eight α) (i : Fin 8) : α :=
  match i with
  | 0 => v.e0
  | 1 => v.e1
  | 2 => v.e2
  | 3 => v.e3
  | 4 => v.e4
  | 5 => v.e5
  | 6 => v.e6
  | 7 => v.e7

/-- The container with one entry replaced. -/
def Eight.set {α : Type} (v : Eight α) (i : Fin 8) (x : α) : Eight α :=
  match i with
  | 0 => { v with e0 := x }
  | 1 => { v with e1 := x }
  | 2 => { v with e2 := x }
  | 3 => { v with e3 := x }
  | 4 => { v with e4 := x }
  | 5 => { v with e5 := x }
  | 6 => { v with e6 := x }
  | 7 => { v with e7 := x }

/-- The container whose entry at each position is given by a function. -/
def Eight.ofFn {α : Type} (f : Fin 8 → α) : Eight α :=
  ⟨f 0, f 1, f 2, f 3, f 4, f 5, f 6, f 7⟩

/-- A function applied to each entry. -/
def Eight.map {α β : Type} (f : α → β) (v : Eight α) : Eight β :=
  ⟨f v.e0, f v.e1, f v.e2, f v.e3, f v.e4, f v.e5, f v.e6, f v.e7⟩

/-- The entries in order, 0 first. -/
def Eight.toList {α : Type} (v : Eight α) : List α :=
  [v.e0, v.e1, v.e2, v.e3, v.e4, v.e5, v.e6, v.e7]

end Sys2Proof

namespace Sys2Proof.Machine

/-- CFG.SCAN_ORDER, bit 0 (R20). -/
def cfgScanOrder (cfg : BitVec 3) : ScanOrder :=
  if cfg.getLsbD 0 then .columnMajor else .rowMajor

/-- CFG.PLANE_ORDER, bit 1 (R20). -/
def cfgPlaneOrder (cfg : BitVec 3) : PlaneOrder :=
  if cfg.getLsbD 1 then .highThenLow else .lowThenHigh

/-- CFG.LEGACY_BANK_PAD, bit 2 (R20). -/
def cfgLegacy (cfg : BitVec 3) : Bool :=
  cfg.getLsbD 2

/-- PAL_CTRL as read: TRANSP_IDX in 6..5, TRANSP_EN in 4, PAL_LEN in 2..0, the rest 0 (R13). -/
def PalCtrl.toWord (p : PalCtrl) : Word :=
  0#25 ++ (p.transpIdx ++ (BitVec.ofBool p.transpEn ++ (0#1 ++ p.palLen)))

/-- PAL_CTRL's defined bits of a written value (R13, R34). -/
def PalCtrl.ofWord (v : Word) : PalCtrl where
  palLen := v.extractLsb' 0 3
  transpEn := v.getLsbD 4
  transpIdx := v.extractLsb' 5 2

/-- The designated transparent position, if any (R13, R64). -/
def PalCtrl.transp (p : PalCtrl) : Option Index :=
  if p.transpEn then some p.transpIdx else none

/-- TILE_SHAPE as read: ROWS in 12..8, COLS in 4..0, the rest 0 (R15). -/
def TileShape.toWord (t : TileShape) : Word :=
  0#19 ++ (t.rows ++ (0#3 ++ t.cols))

/-- TILE_SHAPE's defined bits of a written value (R15, R34). -/
def TileShape.ofWord (v : Word) : TileShape where
  rows := v.extractLsb' 8 5
  cols := v.extractLsb' 0 5

/-- The eight pixels of a row word, the left-most in bits 15..14, the right-most in bits 1..0 (R16). -/
def rowPixels (w : BitVec 16) : Eight Index :=
  ⟨w.extractLsb' 14 2, w.extractLsb' 12 2, w.extractLsb' 10 2, w.extractLsb' 8 2,
   w.extractLsb' 6 2, w.extractLsb' 4 2, w.extractLsb' 2 2, w.extractLsb' 0 2⟩

/-- ENCODE_TILE's grid operand (R64). -/
def TeRegs.grid (te : TeRegs) : Eight (Eight Index) :=
  te.tileRow.map rowPixels

/-- ASSEMBLE's operands, as its start latches them: WIDTH_MULTIPLE 0 is unset and acts as 1 (R30, R64, R120). -/
def ConfigRegs.latched (c : ConfigRegs) : Latch where
  scanOrder := cfgScanOrder c.cfg
  planeOrder := cfgPlaneOrder c.cfg
  legacy := cfgLegacy c.cfg
  mult := if c.widthMultiple = 0 then 1 else c.widthMultiple
  limit := c.byteLimit
  w := c.imgWidth
  h := c.imgHeight

end Sys2Proof.Machine
end

