-- ==== Sys2Proof/Machine/Ops.lean ====
section
/-! DEFINITION. The named operations over the output buffer and the host registers, the event port, fatal-error entry
and the return from it (R28, R34, R42, R43, R156, R169, R171, R173). -/

namespace Sys2Proof.Machine

/-- The byte at an offset; an offset that is not listed reads 0 (R43). -/
def Memory.read : Memory → Nat → Byte
  | [], _ => 0#8
  | (k, b) :: rest, a => if k = a then b else Memory.read rest a

/-- A byte stored at an offset, keeping the canonical form: offsets rise and no listed byte is 0. -/
def Memory.write : Memory → Nat → Byte → Memory
  | [], a, b => if b = 0#8 then [] else [(a, b)]
  | (k, c) :: rest, a, b =>
    if k < a then (k, c) :: Memory.write rest a b
    else if k = a then (if b = 0#8 then rest else (a, b) :: rest)
    else (if b = 0#8 then (k, c) :: rest else (a, b) :: (k, c) :: rest)

/-- Bytes stored one after the other from an offset on. -/
def Memory.writeList : Memory → Nat → List Byte → Memory
  | m, _, [] => m
  | m, a, b :: bs => Memory.writeList (Memory.write m a b) (a + 1) bs

/-- The canonical form: offsets strictly rising, no listed byte equal to what an unlisted offset reads as. -/
abbrev Memory.wf (m : Memory) : Prop :=
  m.Pairwise (fun c d => c.1 < d.1) ∧ ∀ c ∈ m, c.2 ≠ 0#8

/-- The output stream `out` of R29 as the list of its bytes: offsets 0 to BYTE_COUNT - 1. -/
def Output.bytes (o : Output) : List Byte :=
  (List.range o.byteCount.toNat).map (Memory.read o.out)

/-- OutAppend: the bytes land behind the ones already there, and BYTE_COUNT grows by their number, which is 16 (R42). -/
def State.outAppend (b : List Byte) (s : State) : State :=
  { s with
    output.out := s.output.out.writeList s.output.byteCount.toNat b
    output.byteCount := s.output.byteCount + BitVec.ofNat 32 b.length }

/-- What OUT_DATA reads: the byte at OUT_ADDR when that is below BYTE_COUNT, else 0 (R28). -/
def Output.window (o : Output) : Byte :=
  if o.outAddr.toNat < o.byteCount.toNat then o.out.read o.outAddr.toNat else 0

/-- One event on the event port (R169). -/
def State.emit (e : Event) (s : State) : State :=
  { s with port.event := some e }

/-- Fatal-error entry, `raise Kind(info)` (R171). -/
def State.raise (kind : ErrorKind) (info : Word) (s : State) : State :=
  State.emit .fatal
    { s with
      seq.phase := .error
      status.errCode := some kind
      status.errInfo := info
      status.outValid := false }

/-- The return: the effect of CLEAR on the per-call state and the error record (R156, R173). -/
def State.clearCall (s : State) : State :=
  { s with
    seq.phase := .idle
    seq.tileCount := 0
    seq.padLeft := 0
    output.out := []
    output.byteCount := 0
    status.outValid := false
    status.errCode := none
    status.warnMargin := false
    status.warnSoft := false
    status.trunc := false
    status.errInfo := 0 }

/-- What a read of a register returns: its defined bits, reserved bits and reserved registers 0, CMD 0, TILE_SIZE 8,
STATUS and OUT_DATA computed (R11, R18, R19, R28, R34, R154). -/
def State.readReg (s : State) : Reg → Word
  | .cmd => 0
  | .status => s.statusWord
  | .cfg => s.config.cfg.zeroExtend 32
  | .widthMultiple => s.config.widthMultiple.zeroExtend 32
  | .byteLimit => s.config.byteLimit
  | .imgWidth => s.config.imgWidth.zeroExtend 32
  | .imgHeight => s.config.imgHeight.zeroExtend 32
  | .tileSize => 8
  | .tileCount => s.seq.tileCount
  | .byteCount => s.output.byteCount
  | .errInfo => s.status.errInfo
  | .outAddr => s.output.outAddr
  | .outData => s.output.window.zeroExtend 32
  | .palCtrl => s.pn.palCtrl.toWord
  | .pal i => (s.pn.pal.get i).zeroExtend 32
  | .perm => s.pn.perm.zeroExtend 32
  | .tileShape => s.te.tileShape.toWord
  | .tileRow r => (s.te.tileRow.get r).zeroExtend 32
  | .plane0 r => (s.te.plane0.get r).zeroExtend 32
  | .plane1 r => (s.te.plane1.get r).zeroExtend 32
  | .reserved _ => 0

/-- The storing of a value in a register: its defined bits only; read-only and reserved registers ignore it (R34,
R153). A write to CMD stores nothing (R18); the command it performs is in Machine/HostAccess.lean. -/
def State.writeReg (s : State) (reg : Reg) (v : Word) : State :=
  match reg with
  | .cfg => { s with config.cfg := v.extractLsb' 0 3 }
  | .widthMultiple => { s with config.widthMultiple := v.extractLsb' 0 16 }
  | .byteLimit => { s with config.byteLimit := v }
  | .imgWidth => { s with config.imgWidth := v.extractLsb' 0 16 }
  | .imgHeight => { s with config.imgHeight := v.extractLsb' 0 16 }
  | .outAddr => { s with output.outAddr := v }
  | .palCtrl => { s with pn.palCtrl := PalCtrl.ofWord v }
  | .pal i => { s with pn.pal := s.pn.pal.set i (v.extractLsb' 0 24) }
  | .tileShape => { s with te.tileShape := TileShape.ofWord v }
  | .tileRow r => { s with te.tileRow := s.te.tileRow.set r (v.extractLsb' 0 16) }
  | .cmd => s
  | .status => s
  | .tileSize => s
  | .tileCount => s
  | .byteCount => s
  | .errInfo => s
  | .outData => s
  | .perm => s
  | .plane0 _ => s
  | .plane1 _ => s
  | .reserved _ => s

/-- The outputs of the last action are withdrawn: an event is valid for one action only (R169). -/
def State.clearPort (s : State) : State :=
  { s with port := { rdata := none, event := none, qreq := none } }

/-- The host's coming moves replaced. -/
def State.setInputs (moves : List HostMove) (s : State) : State :=
  { s with env.inputs := moves }

/-- The quantizer's answer Q for a region: the listed one, else the free one (R101; log 4). -/
def Env.answer (env : Env) (r : QReq) : QRsp :=
  match env.answers.lookup r with
  | some q => q
  | none => Config.quantizer r

end Sys2Proof.Machine
end

