-- ==== Sys2Proof/Machine/PaletteNormalizer.lean ====
section
/-! DEFINITION. The palette normalizer: brightness, the stable sort, the transparent pin, the inverse permutation, and
the NORMALIZE command (R80 to R88, R69). -/

namespace Sys2Proof.Machine

/-- The brightness of a colour, an exact integer (R81; log 7). -/
def luma (c : Color) : Nat :=
  299 * (c.extractLsb' 16 8).toNat + 587 * (c.extractLsb' 8 8).toNat + 114 * (c.extractLsb' 0 8).toNat

/-- `key(i) < key(j)`: brightness first, then the position (R82). -/
def keyLt (pal : Four Color) (i j : Index) : Bool :=
  luma (pal.at i) < luma (pal.at j) || (luma (pal.at i) == luma (pal.at j) && i.toNat < j.toNat)

/-- A position put into a list of positions that rises by key. -/
def insertByKey (pal : Four Color) (i : Index) : List Index → List Index
  | [] => [i]
  | j :: rest => if keyLt pal i j then i :: j :: rest else j :: insertByKey pal i rest

/-- Positions sorted by ascending key (R82). -/
def sortByKey (pal : Four Color) : List Index → List Index
  | [] => []
  | i :: rest => insertByKey pal i (sortByKey pal rest)

/-- The positions 0 to n - 1 of a palette of n entries (R83). -/
def positions (n : Nat) : List Index :=
  List.take n [0, 1, 2, 3]

/-- The permutation of R83 once its preconditions hold: `permutation[canonical] = original`. -/
def permutation (n : Nat) (pal : Four Color) (t : Option Index) : List Index :=
  match t with
  | none => sortByKey pal (positions n)
  | some ti => ti :: sortByKey pal ((positions n).filter (fun i => i != ti))

/-- The designated position names no entry (R84 (b)). -/
def transpOutside (n : Nat) (t : Option Index) : Bool :=
  match t with
  | none => false
  | some ti => n ≤ ti.toNat

/-- The precondition `normalize` finds broken, the palette's length first (R83, R84, R170). -/
def normalizeError (n : Nat) (t : Option Index) : Option ErrorKind :=
  if 4 < n then some .paletteOverflow
  else if transpOutside n t then some .contract
  else none

/-- `normalize(n, pal, t)` (R83). -/
def normalizePalette (n : Nat) (pal : Four Color) (t : Option Index) : Except ErrorKind (List Index) :=
  match normalizeError n t with
  | some e => .error e
  | none => .ok (permutation n pal t)

/-- The inverse permutation: the canonical index of an original index (R86). -/
def cmap (perm : List Index) (o : Index) : Index :=
  BitVec.ofNat 2 (perm.findIdx (fun p => p == o))

/-- The permutation packed as PERM holds it, its length in bits 10..8, slot c in bits 2c+1..2c, unused slots 0
(R14, R69). -/
def packPerm (perm : List Index) : BitVec 11 :=
  BitVec.ofNat 3 perm.length ++ (perm.getD 3 0 ++ (perm.getD 2 0 ++ (perm.getD 1 0 ++ perm.getD 0 0)))

/-- NORMALIZE once accepted (R87): PERM and PERM_VALID on success; on an error PERM_VALID is cleared, PERM is kept and
the fatal error is entered with ERR_INFO 0. -/
def State.performNormalize (s : State) : State :=
  match normalizePalette s.pn.palCtrl.palLen.toNat s.pn.pal s.pn.palCtrl.transp with
  | .ok perm => { s with pn.perm := packPerm perm, status.permValid := true }
  | .error e => State.raise e 0 { s with status.permValid := false }

/-- `NORMALIZE` (R87): performed in IDLE and DONE, dropped while BUSY and in ERROR (R151). -/
def execNormalize (s : State) : Host.Outcome State Fault Refusal :=
  .next (if s.acceptsCommand then s.performNormalize else s)

end Sys2Proof.Machine
end

