-- ==== Sys2Proof/Machine/TileEncoder.lean ====
section
/-! DEFINITION. The tile encoder: one 8 by 8 grid of 2-bit indices to two bitplanes, its inverse, the order of the
planes in the stream, and the ENCODE_TILE command (R110 to R115, R65 to R67). -/

namespace Sys2Proof.Machine

/-- One row of one plane: the row's pixels from left to right, each shifted in at the right, so that the left-most
pixel's bit ends in bit 7 (R111). `bit` is 0 for plane0, 1 for plane1. -/
def planeByte (bit : Nat) (row : Eight Index) : Byte :=
  row.toList.foldl (fun (a : Byte) p => (a <<< (1 : Nat)) ||| (BitVec.ofBool (p.getLsbD bit)).zeroExtend 8) 0

/-- `encode_tile` on a grid of the right shape: plane0 and plane1, rows top to bottom (R111). -/
def encodePlanes (grid : Eight (Eight Index)) : Eight Byte × Eight Byte :=
  (grid.map (planeByte 0), grid.map (planeByte 1))

/-- The shape precondition: exactly 8 rows and 8 columns (R112). -/
def shapeOk (rows cols : BitVec 5) : Bool :=
  rows == 8 && cols == 8

/-- `encode_tile` of a grid with its shape descriptor (R111, R112). -/
def encodeTile (rows cols : BitVec 5) (grid : Eight (Eight Index)) : Except ErrorKind (Eight Byte × Eight Byte) :=
  if shapeOk rows cols then .ok (encodePlanes grid) else .error .shape

/-- One pixel of two plane bytes: `(plane1_bit << 1) | plane0_bit` at bit 7 - c (R114). -/
def decodePixel (p0 p1 : Byte) (c : Fin 8) : Index :=
  BitVec.ofBool (p1.getLsbD (7 - c.val)) ++ BitVec.ofBool (p0.getLsbD (7 - c.val))

/-- `decode_tile`, used to state the format's invariant; no instruction performs it (R114). -/
def decodeTile (plane0 plane1 : Eight Byte) : Eight (Eight Index) :=
  Eight.ofFn (fun r => Eight.ofFn (fun c => decodePixel (plane0.get r) (plane1.get r) c))

/-- The 16 bytes of a tile in the stream (R67). -/
def emitOrder (planes : Eight Byte × Eight Byte) (order : PlaneOrder) : List Byte :=
  match order with
  | .lowThenHigh => planes.1.toList ++ planes.2.toList
  | .highThenLow => planes.2.toList ++ planes.1.toList

/-- ENCODE_TILE once accepted (R113): the planes and PLANE_VALID on success; on a ShapeError PLANE_VALID is cleared,
the planes are kept and the fatal error is entered with ERR_INFO 0. -/
def State.performEncodeTile (s : State) : State :=
  match encodeTile s.te.tileShape.rows s.te.tileShape.cols s.te.grid with
  | .ok planes => { s with te.plane0 := planes.1, te.plane1 := planes.2, status.planeValid := true }
  | .error e => State.raise e 0 { s with status.planeValid := false }

/-- `ENCODE_TILE` (R113): performed in IDLE and DONE, dropped while BUSY and in ERROR (R151). -/
def execEncodeTile (s : State) : Host.Outcome State Fault Refusal :=
  .next (if s.acceptsCommand then s.performEncodeTile else s)

end Sys2Proof.Machine
end

