-- ==== Sys2Proof/Machine/StreamAssembler.lean ====
section
/-! DEFINITION. The stream assembler: the ASSEMBLE command's start and the internal steps of the call it starts
(R100 to R103, R120 to R136). -/

namespace Sys2Proof.Machine

/-- Image dimensions leave a margin: not both are multiples of 8 (R122). -/
def Latch.margin (l : Latch) : Bool :=
  l.w.toNat % 8 != 0 || l.h.toNat % 8 != 0

/-- Tile columns, `floor(W / 8)` (R121). -/
def Latch.columns (l : Latch) : BitVec 13 :=
  BitVec.ofNat 13 (l.w.toNat / 8)

/-- Tile rows, `floor(H / 8)` (R121). -/
def Latch.tileRows (l : Latch) : BitVec 13 :=
  BitVec.ofNat 13 (l.h.toNat / 8)

/-- ASSEMBLE's start once accepted: the configuration is latched, the per-call state set afresh, the geometry computed,
the margin warning given (R120 to R122). -/
def State.startCall (s : State) : State :=
  let l := s.config.latched
  let started :=
    { s with
      latch := l
      output.out := []
      output.byteCount := 0
      seq.phase := .scan
      seq.tileCount := 0
      seq.padLeft := 0
      seq.tilesX := l.columns
      seq.tilesY := l.tileRows
      seq.nTiles := BitVec.ofNat 26 (l.columns.toNat * l.tileRows.toNat)
      status.outValid := false
      status.warnMargin := l.margin
      status.warnSoft := false
      status.trunc := false }
  if l.margin then started.emit .margin else started

/-- `ASSEMBLE` (R120): its start, performed in IDLE and DONE, dropped while BUSY and in ERROR (R151). The call's other
steps are the sequencer's (`State.sequence`). -/
def execAssemble (s : State) : Host.Outcome State Fault Refusal :=
  .next (if s.acceptsCommand then s.startCall else s)

/-- `TileOrigin(k)`: the region visited k-th (R124). -/
def tileOrigin (order : ScanOrder) (tilesX tilesY k : Nat) : QReq :=
  match order with
  | .rowMajor => { x0 := BitVec.ofNat 16 (8 * (k % tilesX)), y0 := BitVec.ofNat 16 (8 * (k / tilesX)) }
  | .columnMajor => { x0 := BitVec.ofNat 16 (8 * (k / tilesY)), y0 := BitVec.ofNat 16 (8 * (k % tilesY)) }

/-- Some pixel's index is not below the palette's length (R125). -/
def pixelOutside (q : QRsp) : Bool :=
  q.idx.toList.any (fun row => row.toList.any (fun i => q.palLen.toNat ≤ i.toNat))

/-- The checks on a response, the first failing one is the error: palette length, shape, transparent index, pixel
index (R103, R125, R170). -/
def responseError (q : QRsp) : Option ErrorKind :=
  if 4 < q.palLen.toNat then some .paletteOverflow
  else if !shapeOk q.rows q.cols then some .shape
  else if transpOutside q.palLen.toNat q.transp then some .contract
  else if pixelOutside q then some .contract
  else none

/-- The grid of canonical indices of a checked response: normalised, then each pixel remapped (R126). -/
def canonicalGrid (q : QRsp) : Eight (Eight Index) :=
  q.idx.map (fun row => row.map (cmap (permutation q.palLen.toNat q.pal q.transp)))

/-- The 16 bytes of a checked response's tile (R126). -/
def tileBytes (order : PlaneOrder) (q : QRsp) : List Byte :=
  emitOrder (encodePlanes (canonicalGrid q)) order

/-- The 16 bytes of a padding tile (R68, R134). -/
def paddingTile : List Byte :=
  List.replicate 16 0

/-- What AppendTile returns, with the state it leaves (R129). -/
inductive AppendResult where
  | ok (s : State)
  | truncated (s : State)
  deriving DecidableEq, Repr

/-- `AppendTile(b)`: the hard limit, or the one soft-limit warning, then the append (R128 to R131). Sums are exact. -/
def State.appendTile (b : List Byte) (s : State) : AppendResult :=
  if 0 < s.latch.limit.toNat then
    if s.latch.limit.toNat < s.output.byteCount.toNat + 16 then
      .truncated (State.emit .truncation { s with status.trunc := true })
    else .ok (s.outAppend b)
  else if !s.status.warnSoft && 4096 < s.output.byteCount.toNat + 16 then
    .ok ((State.emit .softLimit { s with status.warnSoft := true }).outAppend b)
  else .ok (s.outAppend b)

/-- The call ends in DONE with its output valid (R127, R134, R135). -/
def State.endCall (s : State) : State :=
  { s with seq.phase := .done, status.outValid := true }

/-- The tile step after the response has come: checks, then normalise, remap, encode, append and count (R125 to R127,
R139). -/
def State.takeResponse (q : QRsp) (s : State) : State :=
  match responseError q with
  | some e => s.raise e s.seq.tileCount
  | none =>
    match s.appendTile (tileBytes s.latch.planeOrder q) with
    | .ok t => { t with seq.tileCount := t.seq.tileCount + 1 }
    | .truncated t => t.endCall

/-- The request of the tile step about to be taken (R100, R124). -/
def State.request (s : State) : QReq :=
  tileOrigin s.latch.scanOrder s.seq.tilesX.toNat s.seq.tilesY.toNat s.seq.tileCount.toNat

/-- The tile step: request, response and the rest in one action (R100, R125). -/
def State.tileStep (s : State) : State :=
  State.takeResponse (s.env.answer s.request) { s with port.qreq := some s.request }

/-- The number of padding tiles wanted at the end of the scan (R132, R133). -/
def padWanted (l : Latch) (tileCount byteCount : Nat) : Nat :=
  if 1 < l.mult.toNat then
    (tileCount + l.mult.toNat - 1) / l.mult.toNat * l.mult.toNat - tileCount
  else if l.legacy && l.limit.toNat == 0 && byteCount < 4096 then (4096 - byteCount) / 16
  else 0

/-- The end-of-scan step (R132). -/
def State.endOfScan (s : State) : State :=
  { s with
    seq.padLeft := BitVec.ofNat 32 (padWanted s.latch s.seq.tileCount.toNat s.output.byteCount.toNat)
    seq.phase := .pad }

/-- The pad step (R134). -/
def State.padStep (s : State) : State :=
  match s.appendTile paddingTile with
  | .ok t => { t with seq.padLeft := t.seq.padLeft - 1 }
  | .truncated t => t.endCall

/-- The sequencer's turn: the one internal step that is enabled, or none (R136). In SCAN past the last tile, which no
run reaches, none is enabled (log 12). -/
def State.sequence (s : State) : State :=
  match s.seq.phase with
  | .idle => s
  | .done => s
  | .error => s
  | .scan =>
    if s.seq.tileCount.toNat < s.seq.nTiles.toNat then s.tileStep
    else if s.seq.tileCount.toNat = s.seq.nTiles.toNat then s.endOfScan
    else s
  | .pad => if 0 < s.seq.padLeft.toNat then s.padStep else s.endCall

end Sys2Proof.Machine
end

