-- ==== Sys2Proof/Machine/HostAccess.lean ====
section
/-! DEFINITION. The host transactions WR and RD, the commands NOP and CLEAR, and the dispatch of a write to CMD (R150
to R156). -/

namespace Sys2Proof.Machine

/-- Dispatch of a value written to CMD, in the order of R150. -/
def State.dispatch (v : Word) (s : State) : State :=
  if s.busy then s
  else if v = 0x00000000#32 then s
  else if v = 0x00000004#32 then s.clearCall
  else if s.isError then s
  else if v = 0x00000001#32 then s.performNormalize
  else if v = 0x00000002#32 then s.performEncodeTile
  else if v = 0x00000003#32 then s.startCall
  else s.raise .illegalCommand v

/-- `WR addr, value` (R153): dropped while BUSY (R152); a write to CMD is dispatched; any other write stores the
defined bits of a read/write register and is ignored by the rest. -/
def execWr (reg : Reg) (v : Word) (s : State) : Host.Outcome State Fault Refusal :=
  .next (if s.busy then s else if reg = .cmd then s.dispatch v else s.writeReg reg v)

/-- `RD addr` (R154): the value goes out as `rdata`; nothing else changes, in any phase. -/
def execRd (reg : Reg) (s : State) : Host.Outcome State Fault Refusal :=
  .next { s with port.rdata := some (s.readReg reg) }

/-- `NOP` (R155): performed or dropped, nothing changes. -/
def execNop (s : State) : Host.Outcome State Fault Refusal :=
  .next s

/-- `CLEAR` (R156): performed in IDLE, DONE and ERROR, dropped while BUSY (R151). -/
def execClear (s : State) : Host.Outcome State Fault Refusal :=
  .next (if s.acceptsClear then s.clearCall else s)

end Sys2Proof.Machine
end

