-- ==== Sys2Proof/Machine/Dispatch.lean ====
section
/-! DEFINITION. One arm per row of spec/opcode_table.json. -/

namespace Sys2Proof.Machine

/-- The meaning of an instruction. -/
def exec (i : Instr) (s : State) : Host.Outcome State Fault Refusal :=
  match i with
  | .wr reg value => Sys2Proof.Machine.execWr reg value s
  | .rd reg => Sys2Proof.Machine.execRd reg s
  | .nop => Sys2Proof.Machine.execNop s
  | .normalize => Sys2Proof.Machine.execNormalize s
  | .encodeTile => Sys2Proof.Machine.execEncodeTile s
  | .assemble => Sys2Proof.Machine.execAssemble s
  | .clear => Sys2Proof.Machine.execClear s

end Sys2Proof.Machine
end

