-- ==== Sys2Proof/Machine/Moves.lean ====
section
/-! DEFINITION. What one move of the host, or a turn left to the sequencer, does to the machine (R51, R136, R190, R197,
R199). -/

namespace Sys2Proof.Machine

/-- The instruction a transmitted word stands for. A value written to CMD that is no command word is still the host
transaction that writes it, and raises IllegalCommand as that (R63, R150). -/
def received (e : Encoded) : Instr :=
  match e with
  | .bus39 w => decodeBus39 w
  | .cmd8 v =>
    match decodeCmd8 v with
    | .ok i => i
    | .error _ => .wr .cmd v

/-- The reset input: every piece of the block's state takes its value of R37; the host and the image are no part of the
block (R190, R191; log 13). -/
def State.applyReset (s : State) : State :=
  { State.reset with env := s.env }

/-- A new image behind the quantizer: between calls its answers are replaced; while a call runs it is a race (R192,
R197; log 5). -/
def State.placeImage (answers : List (QReq × QRsp)) (s : State) : Host.Outcome State Fault Refusal :=
  if s.busy then .fault .imageChangedDuringCall
  else .next { s with env.answers := answers }

/-- One move of the host. -/
def State.perform (m : HostMove) (s : State) : Host.Outcome State Fault Refusal :=
  match m with
  | .send e => exec (received e) s
  | .yield => .next s.sequence
  | .reset => .next s.applyReset
  | .image answers => s.placeImage answers

end Sys2Proof.Machine
end

