-- ==== Sys2Proof/Machine/Step.lean ====
section
/-! DEFINITION. One step: the next atomic action, of the host or of the sequencer (R51, R136), and how a listing word
is placed as the next transaction. -/

namespace Sys2Proof.Machine

/-- One action. The outputs of the action before are withdrawn; then the host's next move is taken from the front of
its list and performed; where the host has no further move, the sequencer takes its turn (logs 1, 2 and 3). -/
def step (s : State) : Host.Outcome State Fault Refusal :=
  match s.env.inputs with
  | [] => .next s.clearPort.sequence
  | m :: rest => (s.clearPort.setInputs rest).perform m

/-- The state with a listing word as the host's very next move (log 9). -/
def State.withFetchWord (s : State) (nbits w : Nat) : State :=
  s.setInputs (.send (listing nbits w) :: s.env.inputs)

end Sys2Proof.Machine
end

