-- ==== Sys2Proof/Machine/HostNotation.lean ====
section
/-! DEFINITION. The host notation of R72: what each pseudo-instruction expands to, as the instructions the host sends.
`cmd M` is `transaction` (Sys2Proof/Decode.lean); `wait` is a repeated read of STATUS, whose end `waitEnds` tells. -/

namespace Sys2Proof.Machine

/-- `setpal n, [t,] c0, ..., c(n-1)`: PAL_CTRL, then one palette entry for each colour given (R72). R72 is silent on more
than four colours, for which no register exists, and on a list whose length is not n; DESIGN CHOICE (log 20): PAL_LEN is n
as given, each of the first four colours given is written, and colours beyond the fourth are dropped. -/
def setPal (n : BitVec 3) (t : Option Index) (colors : List Color) : List Instr :=
  .wr .palCtrl (n.zeroExtend 32 ||| (match t with
    | some ti => 0x10 ||| (ti.zeroExtend 32 <<< (5 : Nat))
    | none => 0)) ::
  List.zipWith (fun i c => Instr.wr (.pal i) (c.zeroExtend 32)) [0, 1, 2, 3] colors

/-- `settile w0, ..., w7`: the eight row words (R72, R16). -/
def setTile (rows : Eight (BitVec 16)) : List Instr :=
  List.zipWith (fun r w => Instr.wr (.tileRow r) (w.zeroExtend 32)) [0, 1, 2, 3, 4, 5, 6, 7] rows.toList

/-- `readout n`: the offset written and the byte read, for each offset below `n` (R72). R72 is silent on
n above 2^32, where an offset has no 32-bit value to write; DESIGN CHOICE (log 21): its low 32 bits are written, so the
first bytes are read again. -/
def readOut (n : Nat) : List Instr :=
  (List.range n).flatMap (fun a => [Instr.wr .outAddr (BitVec.ofNat 32 a), Instr.rd .outData])

/-- `wait` reads STATUS again until this holds of the value read: bit 0, BUSY, is 0 (R72). -/
def waitEnds (rdata : Word) : Bool :=
  !rdata.getLsbD 0

/-- The state with these instructions as the host's next transactions, in order (logs 1 and 9). -/
def State.withProgram (program : List Instr) (s : State) : State :=
  { s with env.inputs := program.map (fun i => HostMove.send (.bus39 (transaction i))) ++ s.env.inputs }

end Sys2Proof.Machine
end

