-- ==== Sys2Proof/Safety.lean ====
section
/-! DEFINITION. What claims are stated in: the invariants of R35, the end of a run (R198), the quantizer's contract
(R102), what the registers hold (R11), the order R83 asks for, a call as one function (R137), and what R138 says of a finished
call. -/

namespace Sys2Proof

open Sys2Proof.Machine

/-- The observable end of a run of one call (R198). -/
def Ended (s : State) : Prop :=
  s.seq.phase = .done ∨ s.seq.phase = .error

/-- The output buffer is in order: canonical form, nothing listed at or beyond BYTE_COUNT, whole tiles (R35 (a)). -/
structure OutputInv (o : Output) : Prop where
  canonical : Memory.wf o.out
  inside : ∀ c ∈ o.out, c.1 < o.byteCount.toNat
  wholeTiles : o.byteCount.toNat % 16 = 0
  bounded : o.byteCount.toNat < 2 ^ 31

/-- The padding tiles wanted once every image tile is written, T of them in 16 T bytes (R132, R133). -/
def paddingWanted (s : State) : Nat :=
  padWanted s.latch s.seq.tileCount.toNat (16 * s.seq.tileCount.toNat)

/-- Every image tile is written, and behind them in the output stand exactly the padding tiles wanted but for the
pad_left that are not: `wanted - pad_left` padding tiles are appended (R132, R134). -/
abbrev PaddedSoFar (s : State) : Prop :=
  s.seq.tileCount.toNat = s.seq.nTiles.toNat ∧ s.seq.padLeft.toNat ≤ paddingWanted s ∧
    s.output.byteCount.toNat = 16 * (s.seq.tileCount.toNat + (paddingWanted s - s.seq.padLeft.toNat))

/-- The invariants of R35, with what makes them inductive: the geometry of a running call, and the bound of R26. R35 (g)
is the fields `scanning`, `padding`, `finished` and `counted`. -/
structure Inv (s : State) : Prop where
  /-- R35 (a), R26. -/
  output : OutputInv s.output
  /-- R35 (b), (g): in SCAN the tiles written are the tiles counted, at most all of them. -/
  scanning : s.seq.phase = .scan →
    s.seq.tileCount.toNat ≤ s.seq.nTiles.toNat ∧ s.output.byteCount.toNat = 16 * s.seq.tileCount.toNat
  /-- R35 (g): in PAD the output is the image tiles and the padding appended so far, so before the first pad step it is
  16 · TILE_COUNT bytes; and the padding still to come leaves the bound of R26. -/
  padding : s.seq.phase = .pad →
    PaddedSoFar s ∧ s.output.byteCount.toNat + 16 * s.seq.padLeft.toNat < 2 ^ 31
  /-- R35 (g): in DONE the call either ended in the scan, and the output is 16 · TILE_COUNT bytes, or every image tile
  is written and the output is those and the padding appended. -/
  finished : s.seq.phase = .done →
    (s.seq.tileCount.toNat < s.seq.nTiles.toNat ∧ s.output.byteCount.toNat = 16 * s.seq.tileCount.toNat) ∨
      PaddedSoFar s
  /-- R35 (g), in every phase: the output is 16 · TILE_COUNT bytes, or a padding tile has been appended (`pad_left` is
  below the number wanted), which IDLE and SCAN exclude. In ERROR, which a call or a later command can lead to, no
  register tells the two apart but BYTE_COUNT itself. -/
  counted : s.output.byteCount.toNat = 16 * s.seq.tileCount.toNat ∨
    (PaddedSoFar s ∧ s.seq.padLeft.toNat < paddingWanted s ∧ s.seq.phase ≠ .idle ∧ s.seq.phase ≠ .scan)
  /-- R35 (c). -/
  truncLimit : s.status.trunc = true → 0 < s.latch.limit.toNat
  /-- R35 (c). -/
  softLimit : s.status.warnSoft = true → s.latch.limit.toNat = 0
  /-- R35 (d). -/
  withinLimit : 0 < s.latch.limit.toNat → s.output.byteCount.toNat ≤ s.latch.limit.toNat
  /-- R35 (e). -/
  validDone : s.status.outValid = true → s.seq.phase = .done
  /-- R35 (f). -/
  errorCode : s.status.errCode ≠ none ↔ s.seq.phase = .error
  /-- R30: the latched multiple is never 0. -/
  multiple : 0 < s.latch.mult.toNat
  /-- R121: while a call runs, tile columns and rows are those of the latched image, and n_tiles is their product. -/
  geometry : s.busy = true →
    s.seq.tilesX.toNat = s.latch.w.toNat / 8 ∧ s.seq.tilesY.toNat = s.latch.h.toNat / 8 ∧
      s.seq.nTiles.toNat = s.seq.tilesX.toNat * s.seq.tilesY.toNat
  /-- R24: in IDLE nothing of a call is left, "nothing has run". -/
  fresh : s.seq.phase = .idle →
    s.output.out = [] ∧ s.output.byteCount = 0 ∧ s.seq.tileCount = 0 ∧ s.seq.padLeft = 0 ∧
      s.status.warnMargin = false ∧ s.status.warnSoft = false ∧ s.status.trunc = false ∧ s.status.errInfo = 0

/-- A response that meets the contract of R102 (a) to (d). -/
structure MeetsContract (q : QRsp) : Prop where
  length : q.palLen.toNat ≤ 4
  shape : q.rows = 8 ∧ q.cols = 8
  transparent : ∀ ti, q.transp = some ti → ti.toNat < q.palLen.toNat
  pixels : ∀ r c : Fin 8, ((q.idx.get r).get c).toNat < q.palLen.toNat

/-- The bits of a register that hold something; every other bit reads 0 (R11 and each register's own rule, U22). -/
def definedBits : Reg → Word
  | .cmd => 0
  | .status => 0x1FFF
  | .cfg => 0x7
  | .widthMultiple => 0xFFFF
  | .byteLimit => 0xFFFFFFFF
  | .imgWidth => 0xFFFF
  | .imgHeight => 0xFFFF
  | .tileSize => 0xFFFFFFFF
  | .tileCount => 0xFFFFFFFF
  | .byteCount => 0xFFFFFFFF
  | .errInfo => 0xFFFFFFFF
  | .outAddr => 0xFFFFFFFF
  | .outData => 0xFF
  | .palCtrl => 0x77
  | .pal _ => 0xFFFFFF
  | .perm => 0x7FF
  | .tileShape => 0x1F1F
  | .tileRow _ => 0xFFFF
  | .plane0 _ => 0xFF
  | .plane1 _ => 0xFF
  | .reserved _ => 0

/-- The read/write registers of R11. -/
def writable : Reg → Bool
  | .cfg => true
  | .widthMultiple => true
  | .byteLimit => true
  | .imgWidth => true
  | .imgHeight => true
  | .outAddr => true
  | .palCtrl => true
  | .pal _ => true
  | .tileShape => true
  | .tileRow _ => true
  | .cmd => false
  | .status => false
  | .tileSize => false
  | .tileCount => false
  | .byteCount => false
  | .errInfo => false
  | .outData => false
  | .perm => false
  | .plane0 _ => false
  | .plane1 _ => false
  | .reserved _ => false

/-- The source's brightness of a colour, the real-number expression R81 compares with. -/
def sourceBrightness (c : Color) : ℚ :=
  299 / 1000 * (c.extractLsb' 16 8).toNat + 587 / 1000 * (c.extractLsb' 8 8).toNat +
    114 / 1000 * (c.extractLsb' 0 8).toNat

/-- `key(i) < key(j)` of R82. -/
def KeyLess (pal : Four Color) (i j : Index) : Prop :=
  luma (pal.at i) < luma (pal.at j) ∨ (luma (pal.at i) = luma (pal.at j) ∧ i.toNat < j.toNat)

/-- `perm` is the order R83 asks for: the positions 0 to n - 1, each once, the transparent one first if there is one,
the rest by ascending key. -/
structure IsNormalOrder (n : Nat) (pal : Four Color) (t : Option Index) (perm : List Index) : Prop where
  once : perm.Nodup
  exactly : ∀ i : Index, i ∈ perm ↔ i.toNat < n
  plain : t = none → perm.Pairwise (KeyLess pal)
  pinned : ∀ ti, t = some ti → ∃ rest, perm = ti :: rest ∧ rest.Pairwise (KeyLess pal)

/-- The sequencer's turn would hand a tile to AppendTile: an image tile whose response passes every check, or a padding
tile (R127, R134). -/
def AppendDue (s : State) : Prop :=
  (s.seq.phase = .scan ∧ s.seq.tileCount.toNat < s.seq.nTiles.toNat ∧
    responseError (s.env.answer s.request) = none) ∨
  (s.seq.phase = .pad ∧ 0 < s.seq.padLeft.toNat)

/-- The sixteen bytes the sequencer's turn would hand to AppendTile: in PAD those of a padding tile, else those of the
answer to its request (R126, R134). -/
def dueBytes (s : State) : List Byte :=
  match s.seq.phase with
  | .pad => paddingTile
  | _ => tileBytes s.latch.planeOrder (s.env.answer s.request)

/-- The host's next move is the transmission of this instruction. -/
def NextIs (s : State) (i : Instr) : Prop :=
  ∃ e rest, s.env.inputs = .send e :: rest ∧ received e = i

/-- The host's next move starts a call: ASSEMBLE as a command or as the write of its word to CMD. -/
def NextStarts (s : State) : Prop :=
  NextIs s .assemble ∨ NextIs s (.wr .cmd 3)

/-- The host's next move is CLEAR, as a command or as the write of its word to CMD. -/
def NextClears (s : State) : Prop :=
  NextIs s .clear ∨ NextIs s (.wr .cmd 4)

/-- The host's next move is the reset input. -/
def NextResets (s : State) : Prop :=
  ∃ rest, s.env.inputs = .reset :: rest

/-- What a call has produced so far (R137). -/
structure CallSoFar where
  out : List Byte
  tiles : Nat
  warnSoft : Bool
  trunc : Bool
  deriving DecidableEq, Repr

/-- How a call ends (R137): `Done` with its result, or `Error(kind, k, out, T)`. -/
inductive CallEnd where
  | done (r : CallSoFar)
  | error (kind : ErrorKind) (r : CallSoFar)
  deriving DecidableEq, Repr

/-- A call under way: going on, or ended. -/
inductive CallStage where
  | going (r : CallSoFar)
  | ended (e : CallEnd)
  deriving DecidableEq, Repr

/-- `append(b)` of R137. -/
def callAppend (l : Latch) (b : List Byte) (r : CallSoFar) : CallStage :=
  if 0 < l.limit.toNat ∧ l.limit.toNat < r.out.length + 16 then .ended (.done { r with trunc := true })
  else if l.limit.toNat = 0 ∧ r.warnSoft = false ∧ 4096 < r.out.length + 16 then
    .going { r with warnSoft := true, out := r.out ++ b }
  else .going { r with out := r.out ++ b }

/-- The tiles still to visit, `n` of them, in scan order (the first loop of R137). -/
def callTiles (answer : QReq → QRsp) (l : Latch) : Nat → CallSoFar → CallStage
  | 0, r => .going r
  | n + 1, r =>
    let q := answer (tileOrigin l.scanOrder (l.w.toNat / 8) (l.h.toNat / 8) r.tiles)
    match responseError q with
    | some kind => .ended (.error kind r)
    | none =>
      match callAppend l (tileBytes l.planeOrder q) r with
      | .ended e => .ended e
      | .going r' => callTiles answer l n { r' with tiles := r'.tiles + 1 }

/-- The padding tiles still to append, `n` of them (the second loop of R137). -/
def callPad (l : Latch) : Nat → CallSoFar → CallEnd
  | 0, r => .done r
  | n + 1, r =>
    match callAppend l paddingTile r with
    | .ended e => e
    | .going r' => callPad l n r'

/-- The number of image tiles of a call (R121). -/
def callTileCount (l : Latch) : Nat :=
  (l.w.toNat / 8) * (l.h.toNat / 8)

/-- `assemble(W, H, cfg, Q)` (R137). -/
def assembleCall (answer : QReq → QRsp) (l : Latch) : CallEnd :=
  match callTiles answer l (callTileCount l) { out := [], tiles := 0, warnSoft := false, trunc := false } with
  | .ended e => e
  | .going r => callPad l (padWanted l r.tiles r.out.length) r

/-- `u` of R131: the 16-byte units a call would append if the limit cut nothing off, image tiles and padding tiles.
Legacy padding is none of them under a limit, since a limit turns it off (R133). -/
def callUnits (l : Latch) : Nat :=
  callTileCount l + padWanted l (callTileCount l) (16 * callTileCount l)

/-- A state holds the end of a call (R137, R198). -/
def holdsEnd (s : State) (e : CallEnd) : Prop :=
  match e with
  | .done r =>
    s.seq.phase = .done ∧ s.status.outValid = true ∧ s.output.bytes = r.out ∧
      s.output.byteCount.toNat = r.out.length ∧ s.seq.tileCount.toNat = r.tiles ∧
      s.status.warnSoft = r.warnSoft ∧ s.status.trunc = r.trunc ∧ s.status.errCode = none
  | .error kind r =>
    s.seq.phase = .error ∧ s.status.outValid = false ∧ s.output.bytes = r.out ∧
      s.output.byteCount.toNat = r.out.length ∧ s.seq.tileCount.toNat = r.tiles ∧
      s.status.warnSoft = r.warnSoft ∧ s.status.trunc = r.trunc ∧
      s.status.errCode = some kind ∧ s.status.errInfo.toNat = r.tiles

/-- R138 (a) to (g), of a state `t` in which a call with the latched configuration `l` and the quantizer `answer` has
ended in DONE. -/
structure DoneCall (answer : QReq → QRsp) (l : Latch) (t : State) : Prop where
  /-- (a). -/
  allTiles : t.status.trunc = false → t.seq.tileCount.toNat = callTileCount l
  /-- (b), with `u` as `callUnits` reads it (DEDUCED, log 19). -/
  cut : 0 < l.limit.toNat →
    t.output.bytes.length ≤ l.limit.toNat ∧
      t.output.bytes.length = 16 * min (callUnits l) (l.limit.toNat / 16) ∧
      (t.status.trunc = true ↔ l.limit.toNat / 16 < callUnits l)
  /-- (c). -/
  roundedUp : t.status.trunc = false → 1 < l.mult.toNat →
    t.output.bytes.length = (t.seq.tileCount.toNat + l.mult.toNat - 1) / l.mult.toNat * l.mult.toNat * 16 ∧
      ∀ a, 16 * t.seq.tileCount.toNat ≤ a → t.output.bytes.getD a 0 = 0
  /-- (d). -/
  unpadded : t.status.trunc = false → l.mult.toNat ≤ 1 →
    ¬ (l.legacy = true ∧ l.limit.toNat = 0 ∧ 16 * t.seq.tileCount.toNat < 4096) →
    t.output.bytes.length = 16 * t.seq.tileCount.toNat
  /-- (e). -/
  soft : t.status.warnSoft = true ↔ l.limit.toNat = 0 ∧ 4096 < t.output.bytes.length
  /-- (f). -/
  margin : t.status.warnMargin = true ↔ l.w.toNat % 8 ≠ 0 ∨ l.h.toNat % 8 ≠ 0
  /-- (g): each counted tile's bytes are a function of the answer for its own region and the plane order. -/
  ownTile : ∀ i, i < t.seq.tileCount.toNat → (t.output.bytes.drop (16 * i)).take 16 =
    tileBytes l.planeOrder (answer (tileOrigin l.scanOrder (l.w.toNat / 8) (l.h.toNat / 8) i))

/-- R138 (h): the two 8-byte halves of every 16-byte unit exchanged. -/
structure HalvesExchanged (a b : List Byte) : Prop where
  length : b.length = a.length
  first : ∀ i j, j < 8 → b.getD (16 * i + j) 0 = a.getD (16 * i + (j + 8)) 0
  second : ∀ i j, j < 8 → b.getD (16 * i + (j + 8)) 0 = a.getD (16 * i + j) 0

end Sys2Proof
end

