-- ==== Sys2Proof/Certificates/Slice0/Obligations.lean ====
section
/-! DEFINITION. The statements for the provers, file by file of the spec: reset, encoding, host transactions, the
commands, the call's steps, the call as a whole, and what holds of every step. -/

open Sys2Proof Sys2Proof.Machine

/-! ### Reset -/

/-- R37: after reset every register reads its stated value, and the hidden state has its stated value. -/
def Obligations.ResetLeavesTheStatedValues : Prop :=
  (∀ r, State.reset.readReg r =
    (match r with | .widthMultiple => 1#32 | .tileSize => 8#32 | .tileShape => 0x808#32 | _ => 0#32)) ∧
  State.reset.seq.phase = .idle ∧ State.reset.output.out = [] ∧
  State.reset.latch =
    { scanOrder := .rowMajor, planeOrder := .lowThenHigh, legacy := false, mult := 1, limit := 0, w := 0, h := 0 } ∧
  State.reset.seq.tilesX = 0 ∧ State.reset.seq.tilesY = 0 ∧ State.reset.seq.nTiles = 0 ∧
  State.reset.seq.padLeft = 0

/-- R190, R191: the reset input in any phase, a running call's included, leaves the reset state of the block, with no
event and no recorded error; the host's later moves and the image stay (the model's choice, log 13). -/
def Obligations.ResetInputWorksInEveryPhase : Prop :=
  ∀ (s : State) (rest : List HostMove), s.env.inputs = .reset :: rest →
    ∃ t, step s = .next t ∧ t.config = State.reset.config ∧ t.pn = State.reset.pn ∧ t.te = State.reset.te ∧
      t.status = State.reset.status ∧ t.seq = State.reset.seq ∧ t.output = State.reset.output ∧
      t.latch = State.reset.latch ∧ t.port.event = none ∧
      t.env.inputs = rest ∧ t.env.answers = s.env.answers

/-! ### Encoding -/

/-- R61, R62: reading back what the encoder writes gives the instruction, every register and every value, for all
seven constructors; and the transaction that performs an instruction reads back as itself, a command as the write of
its word to CMD. -/
def Obligations.DecodeUndoesEncode : Prop :=
  ∀ i : Instr, i.wellFormed = true →
    decode (encode i) = .ok i ∧
    decodeBus39 (transaction i) = (match encode i with | .bus39 _ => i | .cmd8 v => .wr .cmd v)

/-- R11, R61: every 39-bit word is a transaction on a register that R11 names; a write's word is what the encoder gives
back, a read's is that but for its ignored data. -/
def Obligations.EncodeUndoesDecode : Prop :=
  ∀ w : BitVec 39, (decodeBus39 w).wellFormed = true ∧
    (w.getLsbD 38 = true → encode (decodeBus39 w) = .bus39 w) ∧
    (w.getLsbD 38 = false → encode (decodeBus39 w) = .bus39 (w.extractLsb' 32 7 ++ 0#32))

/-- R62, R63: exactly the values 0 to 4 are command words; every other value is refused by name. -/
def Obligations.OnlyFiveCommandWords : Prop :=
  ∀ v : Word,
    decodeCmd8 v =
      (if v = 0 then .ok .nop else if v = 1 then .ok .normalize else if v = 2 then .ok .encodeTile
        else if v = 3 then .ok .assemble else if v = 4 then .ok .clear else .error (.reservedCommand v))

/-- Words of the spec's own listings, one or more of each row (R61's examples, R62's map, the programs P1 to P3 of
spec/95): transactions at the 39 bits R61 and R71 give them, command words as the 32-bit value written to CMD (R62). -/
def Obligations.ListedWordsDecode : Prop :=
  decodeTableWord 39 0x4000000003 = some (.wr .cmd 3) ∧
  decodeTableWord 39 0x4500000014 = some (.wr .imgWidth 20) ∧
  decodeTableWord 39 0x51000078F8 = some (.wr (.pal 0) 0x0078F8) ∧
  decodeTableWord 39 0x6700000550 = some (.wr (.tileRow 7) 0x0550) ∧
  decodeTableWord 39 0x0100000000 = some (.rd .status) ∧
  decodeTableWord 39 0x3700000000 = some (.rd (.plane1 7)) ∧
  decodeTableWord 32 0 = some .nop ∧ decodeTableWord 32 1 = some .normalize ∧
  decodeTableWord 32 2 = some .encodeTile ∧ decodeTableWord 32 3 = some .assemble ∧
  decodeTableWord 32 4 = some .clear ∧ decodeTableWord 32 5 = none

/-! ### A step -/

/-- R51: a transmitted word runs as the instruction it decodes to; a reserved command word runs as the write of it to CMD
(R63). What the step adds around it is the model's choice, not the spec's: that the host's moves are a list whose first is
taken (DESIGN CHOICE, log 1), that the outputs of the action before are withdrawn first (DESIGN CHOICE, log 3), and that
a command word is a move of its own (DESIGN CHOICE, log 10). -/
def Obligations.StepRunsTheDecodedInstruction : Prop :=
  ∀ (s : State) (e : Encoded) (rest : List HostMove), s.env.inputs = .send e :: rest →
    (∀ i, decode e = .ok i → i.wellFormed = true → step s = exec i (s.clearPort.setInputs rest)) ∧
    (∀ v, decode e = .error (.reservedCommand v) → step s = exec (.wr .cmd v) (s.clearPort.setInputs rest))

/-- A listing word placed as the next transaction runs as what it decodes to (log 9). -/
def Obligations.PlacedWordRunsNext : Prop :=
  ∀ (s : State) (nbits w : Nat) (i : Instr), decodeTableWord nbits w = some i →
    step (s.withFetchWord nbits w) = exec i s.clearPort

/-- R136, R179: in IDLE, DONE and ERROR the sequencer has no step, and the block keeps all its state. When the sequencer
gets a turn is the model's choice, not the spec's, since R51 leaves the interleaving free: the move `yield` gives it one
(DESIGN CHOICE, log 1), an empty list of moves gives it every turn (DEDUCED, log 2), and the outputs of the action before
are withdrawn first (DESIGN CHOICE, log 3). -/
def Obligations.SequencerTakesItsTurn : Prop :=
  ∀ s : State,
    (s.env.inputs = [] → step s = .next s.clearPort.sequence) ∧
    (∀ rest, s.env.inputs = .yield :: rest → step s = .next (s.clearPort.setInputs rest).sequence) ∧
    (s.busy = false → s.sequence = s)

/-- Every step answers a next state, but for the one stop the model has: a new image while a call runs (R197; the
model's choice, log 5). -/
def Obligations.StepStopsOnlyOnAnImageRace : Prop :=
  ∀ s : State,
    (s.busy = true ∧ (∃ a rest, s.env.inputs = .image a :: rest) ∧
      step s = .fault .imageChangedDuringCall) ∨
    (¬ (s.busy = true ∧ ∃ a rest, s.env.inputs = .image a :: rest) ∧ ∃ t, step s = .next t)

/-! ### WR and RD -/

/-- R34: while the block takes writes, a write stores the defined bits of a read/write register and is ignored by every
other register but CMD; nothing else changes, nothing raises, and reserved bits and reserved registers read 0. -/
def Obligations.WriteStoresTheDefinedBits : Prop :=
  ∀ (s : State) (r : Reg) (v : Word),
    (s.busy = false → r ≠ .cmd →
      ∃ t, exec (.wr r v) s = .next t ∧
        t.readReg r = (if writable r then v &&& definedBits r else s.readReg r) ∧
        (∀ r', r' ≠ r → ¬ (r = .outAddr ∧ r' = .outData) → t.readReg r' = s.readReg r') ∧
        t.status = s.status ∧ t.seq = s.seq ∧ t.latch = s.latch ∧ t.env = s.env ∧ t.port = s.port ∧
        t.pn.perm = s.pn.perm ∧ t.te.plane0 = s.te.plane0 ∧ t.te.plane1 = s.te.plane1 ∧
        t.output.byteCount = s.output.byteCount ∧ (∀ a, t.output.out.read a = s.output.out.read a)) ∧
    s.readReg r &&& ~~~ (definedBits r) = 0

/-- R152: while a call runs every host write, and every command, changes nothing; a read is served and changes nothing
but the value it puts out. -/
def Obligations.WritesWhileBusyAreDropped : Prop :=
  ∀ (s : State) (i : Instr), s.busy = true →
    (match i with
      | .rd r => exec i s = .next { s with port := { s.port with rdata := some (s.readReg r) } }
      | _ => exec i s = .next s)

/-- R150, R151: a value written to CMD is dispatched in the stated order: dropped while BUSY; NOP; CLEAR; dropped in
ERROR; the three commands; IllegalCommand. CMD stores nothing: it reads 0. -/
def Obligations.WriteToCmdIsDispatched : Prop :=
  ∀ (s : State) (v : Word), s.readReg .cmd = 0 ∧
    exec (.wr .cmd v) s =
      (if s.seq.phase = .scan ∨ s.seq.phase = .pad then .next s
        else if v = 0 then exec .nop s
        else if v = 4 then exec .clear s
        else if s.seq.phase = .error then .next s
        else if v = 1 then exec .normalize s
        else if v = 2 then exec .encodeTile s
        else if v = 3 then exec .assemble s
        else .next (s.raise .illegalCommand v))

/-- R168: a value that is no command word raises IllegalCommand in IDLE and DONE and is dropped elsewhere. -/
def Obligations.IllegalCommandIsRaised : Prop :=
  ∀ (s : State) (v : Word), 4 < v.toNat →
    ((s.seq.phase = .idle ∨ s.seq.phase = .done) →
      ∃ t, exec (.wr .cmd v) s = .next t ∧ t.seq.phase = .error ∧ (t.readReg .status).extractLsb' 4 4 = 4 ∧
        t.readReg .errInfo = v ∧ t.seq = { s.seq with phase := .error } ∧
        t.status = { s.status with errCode := some .illegalCommand, errInfo := v, outValid := false } ∧
        t.port = { s.port with event := some .fatal } ∧ t.output = s.output ∧ t.config = s.config ∧ t.pn = s.pn ∧
        t.te = s.te ∧ t.latch = s.latch ∧ t.env = s.env) ∧
    ((s.seq.phase = .scan ∨ s.seq.phase = .pad ∨ s.seq.phase = .error) → exec (.wr .cmd v) s = .next s)

/-- R154: a read gives the register's value, in every phase, and changes nothing. -/
def Obligations.ReadReturnsTheRegister : Prop :=
  ∀ (s : State) (r : Reg), ∃ v,
    exec (.rd r) s = .next { s with port := { s.port with rdata := some v } } ∧
    v = (match r with
      | .cmd => 0#32
      | .reserved _ => 0#32
      | .tileSize => 8#32
      | .cfg => 0#29 ++ s.config.cfg
      | .widthMultiple => 0#16 ++ s.config.widthMultiple
      | .byteLimit => s.config.byteLimit
      | .imgWidth => 0#16 ++ s.config.imgWidth
      | .imgHeight => 0#16 ++ s.config.imgHeight
      | .tileCount => s.seq.tileCount
      | .byteCount => s.output.byteCount
      | .errInfo => s.status.errInfo
      | .outAddr => s.output.outAddr
      | .outData =>
        if s.output.outAddr.toNat < s.output.byteCount.toNat
          then 0#24 ++ s.output.out.read s.output.outAddr.toNat else 0#32
      | .palCtrl =>
        0#25 ++ s.pn.palCtrl.transpIdx ++ BitVec.ofBool s.pn.palCtrl.transpEn ++ 0#1 ++ s.pn.palCtrl.palLen
      | .pal i => 0#8 ++ s.pn.pal.get i
      | .perm => 0#21 ++ s.pn.perm
      | .tileShape => 0#19 ++ s.te.tileShape.rows ++ 0#3 ++ s.te.tileShape.cols
      | .tileRow k => 0#16 ++ s.te.tileRow.get k
      | .plane0 k => 0#24 ++ s.te.plane0.get k
      | .plane1 k => 0#24 ++ s.te.plane1.get k
      | .status =>
        0#19 ++ BitVec.ofBool s.status.planeValid ++ BitVec.ofBool s.status.permValid ++
          BitVec.ofBool s.status.trunc ++ BitVec.ofBool s.status.warnSoft ++ BitVec.ofBool s.status.warnMargin ++
          (match s.status.errCode with
            | none => 0#4
            | some .shape => 1#4
            | some .paletteOverflow => 2#4
            | some .contract => 3#4
            | some .illegalCommand => 4#4) ++
          BitVec.ofBool s.status.outValid ++ BitVec.ofBool (s.seq.phase == .error) ++
          BitVec.ofBool (s.seq.phase == .done) ++ BitVec.ofBool (s.seq.phase == .scan || s.seq.phase == .pad))

/-- R19: the fields of STATUS, bit by bit; BUSY, DONE and ERROR are decoded from the phase and at most one is 1. -/
def Obligations.StatusHoldsTheStatedFields : Prop :=
  ∀ s : State,
    ((s.readReg .status).getLsbD 0 = true ↔ s.seq.phase = .scan ∨ s.seq.phase = .pad) ∧
    ((s.readReg .status).getLsbD 1 = true ↔ s.seq.phase = .done) ∧
    ((s.readReg .status).getLsbD 2 = true ↔ s.seq.phase = .error) ∧
    (s.readReg .status).getLsbD 3 = s.status.outValid ∧
    (s.readReg .status).extractLsb' 4 4 =
      (match s.status.errCode with
        | none => 0#4
        | some .shape => 1#4
        | some .paletteOverflow => 2#4
        | some .contract => 3#4
        | some .illegalCommand => 4#4) ∧
    (s.readReg .status).getLsbD 8 = s.status.warnMargin ∧
    (s.readReg .status).getLsbD 9 = s.status.warnSoft ∧
    (s.readReg .status).getLsbD 10 = s.status.trunc ∧
    (s.readReg .status).getLsbD 11 = s.status.permValid ∧
    (s.readReg .status).getLsbD 12 = s.status.planeValid ∧
    (∀ k, 13 ≤ k → (s.readReg .status).getLsbD k = false)

/-- R28: OUT_DATA reads the byte at OUT_ADDR below BYTE_COUNT and 0 elsewhere, without changing anything; OUT_ADDR
changes only by a host write of it or, to 0, by reset. -/
def Obligations.OutputWindowReadsTheBuffer : Prop :=
  (∀ s : State,
    s.readReg .outData =
      (if s.output.outAddr.toNat < s.output.byteCount.toNat
        then (s.output.bytes.getD s.output.outAddr.toNat 0).zeroExtend 32 else 0) ∧
    exec (.rd .outData) s = .next { s with port := { s.port with rdata := some (s.readReg .outData) } }) ∧
  (∀ s t : State, step s = .next t → t.output.outAddr ≠ s.output.outAddr →
    (NextResets s ∧ t.output.outAddr = 0) ∨ ∃ v, NextIs s (.wr .outAddr v) ∧ t.output.outAddr = v)

/-! ### The host notation -/

/-- R72: while no call runs, `setpal` leaves PAL_CTRL and the listed colours as given, `settile` the row words, `readout`
reads the buffer byte by byte; nothing else changes but OUT_ADDR and the read value; `wait` ends exactly when no call
runs. The `setpal` clause takes every n with every list of at most four colours: that a list whose length is not n
is written as given is the model's choice, R72 being silent (DESIGN CHOICE, log 20); what more than four colours mean is
the model's choice too (log 20) and not stated here, and so is `readout n` for n above 2^32 (DESIGN CHOICE, log 21). -/
def Obligations.HostNotationDoesWhatItSays : Prop :=
  ∀ s : State, waitEnds (s.readReg .status) = !s.busy ∧ (s.busy = false →
    (∀ (n : BitVec 3) (t : Option Index) (colors : List Color), colors.length ≤ 4 →
      ∃ u, Host.Core.run core (colors.length + 1) (s.withProgram (setPal n t colors)) = .next u ∧
        u.pn.palCtrl = { palLen := n, transpEn := t.isSome, transpIdx := t.getD 0 } ∧
        (∀ i : Fin 4, u.pn.pal.get i = colors.getD i.val (s.pn.pal.get i)) ∧
        u.pn.perm = s.pn.perm ∧ u.te = s.te ∧ u.config = s.config ∧ u.status = s.status ∧ u.seq = s.seq ∧
        u.output = s.output ∧ u.latch = s.latch ∧ u.env = s.env) ∧
    (∀ rows : Eight (BitVec 16),
      ∃ u, Host.Core.run core 8 (s.withProgram (setTile rows)) = .next u ∧ u.te = { s.te with tileRow := rows } ∧
        u.pn = s.pn ∧ u.config = s.config ∧ u.status = s.status ∧ u.seq = s.seq ∧ u.output = s.output ∧
        u.latch = s.latch ∧ u.env = s.env) ∧
    (∀ n a : Nat, a < n → n ≤ 2 ^ 32 →
      ∃ u, Host.Core.run core (2 * a + 2) (s.withProgram (readOut n)) = .next u ∧
        u.port.rdata = some ((s.output.bytes.getD a 0).zeroExtend 32) ∧
        u.output = { s.output with outAddr := BitVec.ofNat 32 a } ∧
        u.config = s.config ∧ u.pn = s.pn ∧ u.te = s.te ∧ u.status = s.status ∧ u.seq = s.seq ∧ u.latch = s.latch))

/-! ### NOP and CLEAR -/

/-- R155: NOP answers the state it found, in every phase. -/
def Obligations.NopChangesNothing : Prop :=
  ∀ s : State, exec .nop s = .next s

/-- R156: CLEAR in IDLE, DONE and ERROR empties the output, clears the per-call state and the error record and goes to
IDLE; STATUS[10:0] reads 0 and OUT_DATA reads 0 at every offset; everything else stays; while BUSY it is dropped; in
IDLE it changes nothing (by the invariant of that phase); and short of reset nothing else leads out of ERROR. -/
def Obligations.ClearReturnsToIdle : Prop :=
  ∀ s : State,
    (s.busy = false →
      ∃ t, exec .clear s = .next t ∧ t.seq.phase = .idle ∧ t.output.bytes = [] ∧ t.output.out = [] ∧
        t.readReg .byteCount = 0 ∧ t.readReg .tileCount = 0 ∧ t.seq.padLeft = 0 ∧ t.readReg .errInfo = 0 ∧
        (t.readReg .status).extractLsb' 0 11 = 0 ∧
        (∀ a : Word, ({ t with output := { t.output with outAddr := a } } : State).readReg .outData = 0) ∧
        t.config = s.config ∧ t.pn = s.pn ∧ t.te = s.te ∧ t.latch = s.latch ∧ t.env = s.env ∧ t.port = s.port ∧
        t.output.outAddr = s.output.outAddr ∧ t.status.permValid = s.status.permValid ∧
        t.status.planeValid = s.status.planeValid ∧ t.seq.tilesX = s.seq.tilesX ∧ t.seq.tilesY = s.seq.tilesY ∧
        t.seq.nTiles = s.seq.nTiles) ∧
    (s.busy = true → exec .clear s = .next s) ∧
    (Inv s → s.seq.phase = .idle → exec .clear s = .next s) ∧
    (∀ t, s.seq.phase = .error → step s = .next t → t.seq.phase ≠ .error → NextClears s ∨ NextResets s)

/-! ### NORMALIZE -/

/-- R81: the brightness is the stated integer sum, from 0 for black to 255000 for white, in 18 bits; it orders colours,
and ties them, as the source's weights do. -/
def Obligations.LumaIsTheWeightedSum : Prop :=
  (∀ r g b : BitVec 8, luma (r ++ g ++ b) = 299 * r.toNat + 587 * g.toNat + 114 * b.toNat) ∧
  luma 0x000000 = 0 ∧ luma 0xFFFFFF = 255000 ∧ (∀ c : Color, luma c ≤ 255000 ∧ luma c < 2 ^ 18) ∧
  ∀ c d : Color,
    (luma c < luma d ↔ sourceBrightness c < sourceBrightness d) ∧
    (luma c = luma d ↔ sourceBrightness c = sourceBrightness d)

/-- R82, R83: `normalize` raises on more than four entries, checked first, and on a transparent position that names no
entry; else it returns the one and only order R83 asks for. -/
def Obligations.NormalOrderIsUnique : Prop :=
  ∀ (n : Nat) (pal : Four Color) (t : Option Index),
    (4 < n → normalizePalette n pal t = .error .paletteOverflow) ∧
    (n ≤ 4 → (∃ ti, t = some ti ∧ n ≤ ti.toNat) → normalizePalette n pal t = .error .contract) ∧
    (n ≤ 4 → (∀ ti, t = some ti → ti.toNat < n) →
      ∃ perm, normalizePalette n pal t = .ok perm ∧ IsNormalOrder n pal t perm ∧
        ∀ other, IsNormalOrder n pal t other → other = perm)

/-- R85 (a) to (f): the result is a permutation of 0 to n - 1; it depends on the first n colours and the transparent
position only; the transparent position comes first whatever its brightness; darker colours come before brighter ones;
with none transparent the darkest comes first. -/
def Obligations.NormalizeOrdersByBrightness : Prop :=
  ∀ (n : Nat) (pal : Four Color) (t : Option Index) (perm : List Index), normalizePalette n pal t = .ok perm →
    (perm.length = n ∧ perm.Nodup ∧ ∀ i : Index, i ∈ perm ↔ i.toNat < n) ∧
    (∀ pal' : Four Color, (∀ i : Index, i.toNat < n → pal'.at i = pal.at i) → normalizePalette n pal' t = .ok perm) ∧
    (∀ ti, t = some ti → perm.head? = some ti) ∧
    (∀ i j : Index, i ∈ perm → j ∈ perm → t ≠ some i → t ≠ some j → luma (pal.at i) < luma (pal.at j) →
      perm.idxOf i < perm.idxOf j) ∧
    (t = none → ∀ d, perm.head? = some d → ∀ i ∈ perm, luma (pal.at d) < luma (pal.at i) ∨
      (luma (pal.at d) = luma (pal.at i) ∧ d.toNat ≤ i.toNat))

/-- R86: the inverse permutation: `cmap(perm)[o] = c` iff `perm[c] = o`. -/
def Obligations.CmapInvertsThePermutation : Prop :=
  ∀ (n : Nat) (pal : Four Color) (t : Option Index) (perm : List Index), normalizePalette n pal t = .ok perm →
    ∀ o c : Index, o.toNat < perm.length → c.toNat < perm.length →
      (cmap perm o = c ↔ perm[c.toNat]? = some o)

/-- R87, R69: NORMALIZE in IDLE or DONE on a legal palette packs the order of R83 in PERM, sets PERM_VALID and changes
nothing else. -/
def Obligations.NormalizeWritesThePermutation : Prop :=
  ∀ s : State, (s.seq.phase = .idle ∨ s.seq.phase = .done) → s.pn.palCtrl.palLen.toNat ≤ 4 →
    (s.pn.palCtrl.transpEn = true → s.pn.palCtrl.transpIdx.toNat < s.pn.palCtrl.palLen.toNat) →
    ∃ t perm, exec .normalize s = .next t ∧
      IsNormalOrder s.pn.palCtrl.palLen.toNat s.pn.pal
        (if s.pn.palCtrl.transpEn then some s.pn.palCtrl.transpIdx else none) perm ∧
      (∀ c : Fin 4, (t.readReg .perm).extractLsb' (2 * c.val) 2 = perm.getD c.val 0) ∧
      (t.readReg .perm).extractLsb' 8 3 = s.pn.palCtrl.palLen ∧ (t.readReg .perm).extractLsb' 11 21 = 0 ∧
      t.status = { s.status with permValid := true } ∧
      t.pn.palCtrl = s.pn.palCtrl ∧ t.pn.pal = s.pn.pal ∧ t.config = s.config ∧ t.te = s.te ∧ t.seq = s.seq ∧
      t.output = s.output ∧ t.latch = s.latch ∧ t.env = s.env ∧ t.port = s.port

/-- R84, R87, R170: on a palette of more than four entries NORMALIZE raises PaletteOverflowError, checked first; on a
transparent position that names no entry ContractViolation; PERM is kept, PERM_VALID cleared, ERR_INFO 0, and nothing
else changes but what fatal-error entry writes. -/
def Obligations.NormalizeRaises : Prop :=
  ∀ s : State, (s.seq.phase = .idle ∨ s.seq.phase = .done) →
    ∀ kind : ErrorKind,
      (4 < s.pn.palCtrl.palLen.toNat ∧ kind = .paletteOverflow ∨
        s.pn.palCtrl.palLen.toNat ≤ 4 ∧ s.pn.palCtrl.transpEn = true ∧
          s.pn.palCtrl.palLen.toNat ≤ s.pn.palCtrl.transpIdx.toNat ∧ kind = .contract) →
      ∃ t, exec .normalize s = .next t ∧ t.seq = { s.seq with phase := .error } ∧
        t.status = { s.status with permValid := false, errCode := some kind, errInfo := 0, outValid := false } ∧
        t.port = { s.port with event := some .fatal } ∧ t.pn = s.pn ∧ t.te = s.te ∧ t.config = s.config ∧
        t.output = s.output ∧ t.latch = s.latch ∧ t.env = s.env

/-! ### ENCODE_TILE -/

/-- R65, R113: ENCODE_TILE in IDLE or DONE on an 8 by 8 grid de-interleaves each row word: bit 7 - c of a plane byte is
the corresponding bit of the pixel of column c, whatever the plane order; PLANE_VALID is set and nothing else
changes. -/
def Obligations.EncodeTileDeinterleaves : Prop :=
  ∀ s : State, (s.seq.phase = .idle ∨ s.seq.phase = .done) →
    s.te.tileShape.rows.toNat = 8 → s.te.tileShape.cols.toNat = 8 →
    ∃ t, exec .encodeTile s = .next t ∧
      (∀ (r : Fin 8) (j : Nat), j < 8 →
        (t.readReg (.plane0 r)).getLsbD j = (s.readReg (.tileRow r)).getLsbD (2 * j) ∧
        (t.readReg (.plane1 r)).getLsbD j = (s.readReg (.tileRow r)).getLsbD (2 * j + 1)) ∧
      (∀ (r c : Fin 8),
        (t.te.plane0.get r).getLsbD (7 - c.val) = ((s.te.grid.get r).get c).getLsbD 0 ∧
        (t.te.plane1.get r).getLsbD (7 - c.val) = ((s.te.grid.get r).get c).getLsbD 1) ∧
      t.status = { s.status with planeValid := true } ∧
      t.te.tileShape = s.te.tileShape ∧ t.te.tileRow = s.te.tileRow ∧ t.config = s.config ∧ t.pn = s.pn ∧
      t.seq = s.seq ∧ t.output = s.output ∧ t.latch = s.latch ∧ t.env = s.env ∧ t.port = s.port

/-- R112, R113: on any other shape ENCODE_TILE raises ShapeError: the planes are kept, PLANE_VALID cleared, ERR_INFO 0,
and nothing else changes but what fatal-error entry writes. -/
def Obligations.EncodeTileRaisesShapeError : Prop :=
  ∀ s : State, (s.seq.phase = .idle ∨ s.seq.phase = .done) →
    ¬ (s.te.tileShape.rows.toNat = 8 ∧ s.te.tileShape.cols.toNat = 8) →
    ∃ t, exec .encodeTile s = .next t ∧ t.seq = { s.seq with phase := .error } ∧
      t.status = { s.status with planeValid := false, errCode := some .shape, errInfo := 0, outValid := false } ∧
      t.port = { s.port with event := some .fatal } ∧ t.te = s.te ∧ t.pn = s.pn ∧ t.config = s.config ∧
      t.output = s.output ∧ t.latch = s.latch ∧ t.env = s.env

/-- R114: recombining the planes of a grid gives the grid, and every pair of planes is the encoding of one grid. -/
def Obligations.TileRoundTrip : Prop :=
  (∀ (p0 p1 : Eight Byte) (r c : Fin 8),
    ((decodeTile p0 p1).get r).get c =
      (BitVec.ofBool ((p1.get r).getLsbD (7 - c.val))).zeroExtend 2 <<< 1 |||
        (BitVec.ofBool ((p0.get r).getLsbD (7 - c.val))).zeroExtend 2) ∧
  (∀ grid : Eight (Eight Index), decodeTile (encodePlanes grid).1 (encodePlanes grid).2 = grid) ∧
  (∀ p0 p1 : Eight Byte, encodePlanes (decodeTile p0 p1) = (p0, p1))

/-- R66, R67: the sixteen bytes of a tile in the stream: rows top to bottom, the left-most pixel in bit 7, the planes in
the chosen order. -/
def Obligations.StreamLayoutOfATile : Prop :=
  ∀ (grid : Eight (Eight Index)) (order : PlaneOrder),
    (emitOrder (encodePlanes grid) order).length = 16 ∧
    ∀ r c : Fin 8,
      ((emitOrder (encodePlanes grid) order).getD
        ((match order with | .lowThenHigh => 0 | .highThenLow => 8) + r.val) 0).getLsbD (7 - c.val) =
          ((grid.get r).get c).getLsbD 0 ∧
      ((emitOrder (encodePlanes grid) order).getD
        ((match order with | .lowThenHigh => 8 | .highThenLow => 0) + r.val) 0).getLsbD (7 - c.val) =
          ((grid.get r).get c).getLsbD 1

/-- R151, R87, R113, R120: in ERROR the three commands are dropped; NOP and CLEAR are performed. -/
def Obligations.ErrorDropsTheCommands : Prop :=
  ∀ s : State, s.seq.phase = .error →
    exec .normalize s = .next s ∧ exec .encodeTile s = .next s ∧ exec .assemble s = .next s ∧
    exec .nop s = .next s ∧ ∃ t, exec .clear s = .next t ∧ t.seq.phase = .idle

/-! ### ASSEMBLE: the start and the steps of the call -/

/-- R120, R121, R30: ASSEMBLE in IDLE or DONE latches the configuration (a multiple of 0 as 1), sets the per-call state
afresh, computes the geometry and gives the margin warning; the PN and TE registers, PERM_VALID, PLANE_VALID, OUT_ADDR,
ERR_CODE and ERR_INFO are not touched. -/
def Obligations.AssembleStartsACall : Prop :=
  ∀ s : State, (s.seq.phase = .idle ∨ s.seq.phase = .done) →
    ∃ t, exec .assemble s = .next t ∧ t.seq.phase = .scan ∧
      t.latch.scanOrder = (if s.config.cfg.getLsbD 0 then .columnMajor else .rowMajor) ∧
      t.latch.planeOrder = (if s.config.cfg.getLsbD 1 then .highThenLow else .lowThenHigh) ∧
      t.latch.legacy = s.config.cfg.getLsbD 2 ∧
      t.latch.mult = (if s.config.widthMultiple = 0 then 1 else s.config.widthMultiple) ∧
      t.latch.limit = s.config.byteLimit ∧ t.latch.w = s.config.imgWidth ∧ t.latch.h = s.config.imgHeight ∧
      t.output.out = [] ∧ t.output.byteCount = 0 ∧ t.seq.tileCount = 0 ∧ t.seq.padLeft = 0 ∧
      t.seq.tilesX.toNat = s.config.imgWidth.toNat / 8 ∧ t.seq.tilesY.toNat = s.config.imgHeight.toNat / 8 ∧
      t.seq.nTiles.toNat = (s.config.imgWidth.toNat / 8) * (s.config.imgHeight.toNat / 8) ∧
      t.status = { s.status with
        outValid := false
        warnMargin := decide (s.config.imgWidth.toNat % 8 ≠ 0 ∨ s.config.imgHeight.toNat % 8 ≠ 0)
        warnSoft := false
        trunc := false } ∧
      t.port = (if s.config.imgWidth.toNat % 8 ≠ 0 ∨ s.config.imgHeight.toNat % 8 ≠ 0
        then { s.port with event := some .margin } else s.port) ∧
      t.config = s.config ∧ t.pn = s.pn ∧ t.te = s.te ∧ t.env = s.env ∧ t.output.outAddr = s.output.outAddr

/-- R123, R124: the k-th tile of either scan order; both orders visit the same tiles; they agree when the image is one
tile wide or one tile high, and differ somewhere otherwise. -/
def Obligations.ScanOrdersVisitEveryTileOnce : Prop :=
  ∀ tilesX tilesY : Nat, tilesX ≤ 8191 → tilesY ≤ 8191 →
    (∀ k, k < tilesX * tilesY → ∃ tx ty, tx < tilesX ∧ ty < tilesY ∧ k = ty * tilesX + tx ∧
      tileOrigin .rowMajor tilesX tilesY k = { x0 := BitVec.ofNat 16 (8 * tx), y0 := BitVec.ofNat 16 (8 * ty) }) ∧
    (∀ k, k < tilesX * tilesY → ∃ tx ty, tx < tilesX ∧ ty < tilesY ∧ k = tx * tilesY + ty ∧
      tileOrigin .columnMajor tilesX tilesY k = { x0 := BitVec.ofNat 16 (8 * tx), y0 := BitVec.ofNat 16 (8 * ty) }) ∧
    (∀ order tx ty, tx < tilesX → ty < tilesY → ∃ k, k < tilesX * tilesY ∧
      tileOrigin order tilesX tilesY k = { x0 := BitVec.ofNat 16 (8 * tx), y0 := BitVec.ofNat 16 (8 * ty) } ∧
      ∀ k', k' < tilesX * tilesY → tileOrigin order tilesX tilesY k' = tileOrigin order tilesX tilesY k → k' = k) ∧
    (tilesX = 1 ∨ tilesY = 1 → ∀ k, k < tilesX * tilesY →
      tileOrigin .rowMajor tilesX tilesY k = tileOrigin .columnMajor tilesX tilesY k) ∧
    (2 ≤ tilesX → 2 ≤ tilesY → ∃ k, k < tilesX * tilesY ∧
      tileOrigin .rowMajor tilesX tilesY k ≠ tileOrigin .columnMajor tilesX tilesY k)

/-- R125, R139, R170: a response that breaks the contract ends the call: the first broken check in the stated order is
the error, ERR_INFO is the tile's number, and nothing of the tile is appended. -/
def Obligations.BadResponseEndsTheCall : Prop :=
  ∀ s : State, s.seq.phase = .scan → s.seq.tileCount.toNat < s.seq.nTiles.toNat →
    ∀ (q : QRsp) (kind : ErrorKind), q = s.env.answer s.request →
      ((4 < q.palLen.toNat ∧ kind = .paletteOverflow) ∨
        (q.palLen.toNat ≤ 4 ∧ ¬ (q.rows.toNat = 8 ∧ q.cols.toNat = 8) ∧ kind = .shape) ∨
        (q.palLen.toNat ≤ 4 ∧ q.rows.toNat = 8 ∧ q.cols.toNat = 8 ∧
          ((∃ ti, q.transp = some ti ∧ q.palLen.toNat ≤ ti.toNat) ∨
            ∃ r c : Fin 8, q.palLen.toNat ≤ ((q.idx.get r).get c).toNat) ∧ kind = .contract)) →
      s.sequence.seq = { s.seq with phase := .error } ∧
      s.sequence.status = { s.status with errCode := some kind, errInfo := s.seq.tileCount, outValid := false } ∧
      s.sequence.port = { s.port with event := some .fatal, qreq := some s.request } ∧
      s.sequence.output = s.output ∧ s.sequence.latch = s.latch ∧ s.sequence.config = s.config ∧
      s.sequence.pn = s.pn ∧ s.sequence.te = s.te ∧ s.sequence.env = s.env

/-- R126, R127: a response that meets the contract, where the limit leaves room: sixteen bytes are appended whose planes,
in the latched order, hold for each pixel the canonical index c with perm[c] the pixel's index; the tile is counted, the
request is put out and the scan goes on; of the status only WARN_SOFT can change, with its event; nothing else changes. -/
def Obligations.GoodResponseAppendsItsTile : Prop :=
  ∀ s : State, Inv s → s.seq.phase = .scan → s.seq.tileCount.toNat < s.seq.nTiles.toNat →
    MeetsContract (s.env.answer s.request) →
    (s.latch.limit.toNat = 0 ∨ s.output.byteCount.toNat + 16 ≤ s.latch.limit.toNat) →
    ∃ (perm : List Index) (p0 p1 : Eight Byte),
      IsNormalOrder (s.env.answer s.request).palLen.toNat (s.env.answer s.request).pal
        (s.env.answer s.request).transp perm ∧
      (∀ r c : Fin 8, perm[(decodePixel (p0.get r) (p1.get r) c).toNat]? =
        some (((s.env.answer s.request).idx.get r).get c)) ∧
      s.sequence.output.bytes = s.output.bytes ++
        (match s.latch.planeOrder with
          | .lowThenHigh => p0.toList ++ p1.toList
          | .highThenLow => p1.toList ++ p0.toList) ∧
      s.sequence.output.byteCount.toNat = s.output.byteCount.toNat + 16 ∧
      s.sequence.seq = { s.seq with tileCount := s.seq.tileCount + 1 } ∧
      (if s.latch.limit.toNat = 0 ∧ s.status.warnSoft = false ∧ 4096 < s.output.byteCount.toNat + 16
        then s.sequence.status = { s.status with warnSoft := true } ∧
          s.sequence.port = { s.port with event := some .softLimit, qreq := some s.request }
        else s.sequence.status = s.status ∧ s.sequence.port = { s.port with qreq := some s.request }) ∧
      s.sequence.latch = s.latch ∧ s.sequence.config = s.config ∧ s.sequence.pn = s.pn ∧ s.sequence.te = s.te ∧
      s.sequence.env = s.env ∧ s.sequence.output.outAddr = s.output.outAddr

/-- R129, R42: everything AppendTile does, in its four cases. The sum BYTE_COUNT + 16 is exact in both tests, for every
BYTE_COUNT; the append itself is stated where the new BYTE_COUNT fits its 32 bits. -/
def Obligations.AppendTileFollowsTheSizePolicy : Prop :=
  ∀ (s : State) (b : List Byte), b.length = 16 →
    (0 < s.latch.limit.toNat → s.latch.limit.toNat < s.output.byteCount.toNat + 16 →
      s.appendTile b = .truncated { s with
        status := { s.status with trunc := true }, port := { s.port with event := some .truncation } }) ∧
    (Memory.wf s.output.out → s.output.byteCount.toNat + 16 < 2 ^ 32 →
      (s.latch.limit.toNat = 0 ∨ s.output.byteCount.toNat + 16 ≤ s.latch.limit.toNat) →
      ∃ t, s.appendTile b = .ok t ∧ t.output.bytes = s.output.bytes ++ b ∧
        t.output.byteCount.toNat = s.output.byteCount.toNat + 16 ∧ Memory.wf t.output.out ∧
        (∀ a, a < s.output.byteCount.toNat ∨ s.output.byteCount.toNat + 16 ≤ a →
          t.output.out.read a = s.output.out.read a) ∧
        t.output.outAddr = s.output.outAddr ∧
        (if s.latch.limit.toNat = 0 ∧ s.status.warnSoft = false ∧ 4096 < s.output.byteCount.toNat + 16
          then t.status = { s.status with warnSoft := true } ∧ t.port = { s.port with event := some .softLimit }
          else t.status = s.status ∧ t.port = s.port) ∧
        t.seq = s.seq ∧ t.latch = s.latch ∧ t.config = s.config ∧ t.pn = s.pn ∧ t.te = s.te ∧ t.env = s.env)

/-- R131: where the hard limit leaves no room for the tile that is due, image tile or padding tile, the call ends at
once in DONE with the output valid and TRUNC set; nothing is appended. -/
def Obligations.HardLimitEndsTheCall : Prop :=
  ∀ s : State, AppendDue s → 0 < s.latch.limit.toNat → s.latch.limit.toNat < s.output.byteCount.toNat + 16 →
    s.sequence.seq = { s.seq with phase := .done } ∧
    s.sequence.status = { s.status with trunc := true, outValid := true } ∧
    s.sequence.port.event = some .truncation ∧ s.sequence.output = s.output ∧ s.sequence.latch = s.latch ∧
    s.sequence.config = s.config ∧ s.sequence.pn = s.pn ∧ s.sequence.te = s.te ∧ s.sequence.env = s.env

/-- R130: the soft-limit event is given exactly when a tile is due, no limit is set, none was given in this call, and
the tile takes the output above 4096 bytes; that tile is appended, its bytes behind the stream; and the flag stays. -/
def Obligations.SoftLimitWarnsOnce : Prop :=
  ∀ s : State, s.port.event = none →
    (s.sequence.port.event = some .softLimit ↔
      AppendDue s ∧ s.latch.limit.toNat = 0 ∧ s.status.warnSoft = false ∧ 4096 < s.output.byteCount.toNat + 16) ∧
    (s.sequence.port.event = some .softLimit → s.sequence.status.warnSoft = true ∧
      s.sequence.output.byteCount = s.output.byteCount + 16 ∧
      (Inv s → s.sequence.output.bytes = s.output.bytes ++ dueBytes s)) ∧
    (s.status.warnSoft = true → s.sequence.status.warnSoft = true)

/-- R132, R133: the end of the scan asks for the padding that rounds the tile count up to the multiple; with no
multiple and no limit, and the legacy bit set, for the tiles up to 4096 bytes; else for none; it goes to PAD and changes
nothing else. -/
def Obligations.EndOfScanComputesThePadding : Prop :=
  ∀ s : State, s.seq.phase = .scan → s.seq.tileCount.toNat = s.seq.nTiles.toNat →
    s.sequence.seq = { s.seq with phase := .pad, padLeft := s.sequence.seq.padLeft } ∧
    (1 < s.latch.mult.toNat →
      (s.seq.tileCount.toNat + s.sequence.seq.padLeft.toNat) % s.latch.mult.toNat = 0 ∧
      s.sequence.seq.padLeft.toNat < s.latch.mult.toNat ∧
      (s.seq.tileCount.toNat % s.latch.mult.toNat = 0 → s.sequence.seq.padLeft.toNat = 0)) ∧
    (s.latch.mult.toNat ≤ 1 → s.latch.legacy = true → s.latch.limit.toNat = 0 → s.output.byteCount.toNat < 4096 →
      s.sequence.seq.padLeft.toNat = (4096 - s.output.byteCount.toNat) / 16 ∧
      (s.output.byteCount.toNat % 16 = 0 →
        s.output.byteCount.toNat + 16 * s.sequence.seq.padLeft.toNat = 4096)) ∧
    (s.latch.mult.toNat ≤ 1 →
      ¬ (s.latch.legacy = true ∧ s.latch.limit.toNat = 0 ∧ s.output.byteCount.toNat < 4096) →
      s.sequence.seq.padLeft = 0) ∧
    s.sequence.output = s.output ∧ s.sequence.status = s.status ∧ s.sequence.latch = s.latch ∧
    s.sequence.config = s.config ∧ s.sequence.pn = s.pn ∧ s.sequence.te = s.te ∧
    s.sequence.env = s.env ∧ s.sequence.port = s.port

/-- R134: a pad step with room appends sixteen zero bytes and lowers pad_left; of the status only WARN_SOFT can change,
with its event; nothing else changes. -/
def Obligations.PadStepAppendsZeros : Prop :=
  ∀ s : State, Inv s → s.seq.phase = .pad → 0 < s.seq.padLeft.toNat →
    (s.latch.limit.toNat = 0 ∨ s.output.byteCount.toNat + 16 ≤ s.latch.limit.toNat) →
    s.sequence.output.bytes = s.output.bytes ++ List.replicate 16 0 ∧
    s.sequence.output.byteCount.toNat = s.output.byteCount.toNat + 16 ∧
    s.sequence.seq.padLeft.toNat + 1 = s.seq.padLeft.toNat ∧
    s.sequence.seq = { s.seq with padLeft := s.sequence.seq.padLeft } ∧
    s.sequence.output.outAddr = s.output.outAddr ∧
    (if s.latch.limit.toNat = 0 ∧ s.status.warnSoft = false ∧ 4096 < s.output.byteCount.toNat + 16
      then s.sequence.status = { s.status with warnSoft := true } ∧
        s.sequence.port = { s.port with event := some .softLimit }
      else s.sequence.status = s.status ∧ s.sequence.port = s.port) ∧
    s.sequence.latch = s.latch ∧ s.sequence.config = s.config ∧
    s.sequence.pn = s.pn ∧ s.sequence.te = s.te ∧ s.sequence.env = s.env

/-- R135: with no padding left the call ends in DONE with the output valid and nothing else changes; in DONE the
output, the counters and the warnings stay until a start, CLEAR or reset, and OUT_VALID until one of these or a fatal
error. -/
def Obligations.FinishedCallKeepsItsResult : Prop :=
  (∀ s : State, s.seq.phase = .pad → s.seq.padLeft.toNat = 0 →
    s.sequence = { s with
      seq := { s.seq with phase := .done }, status := { s.status with outValid := true } } ∧
    s.sequence.busy = false ∧ s.sequence.isDone = true) ∧
  (∀ s t : State, s.seq.phase = .done → step s = .next t → ¬ NextStarts s → ¬ NextClears s → ¬ NextResets s →
    t.output.out = s.output.out ∧ t.output.byteCount = s.output.byteCount ∧ t.seq.tileCount = s.seq.tileCount ∧
    t.status.warnMargin = s.status.warnMargin ∧ t.status.warnSoft = s.status.warnSoft ∧
    t.status.trunc = s.status.trunc ∧
    ((t.seq.phase = .done ∧ t.status.outValid = s.status.outValid) ∨
      (t.seq.phase = .error ∧ t.status.outValid = false)))

/-! ### The call as a whole -/

/-- R137, R136: a call run to its end, with no host move in between (HostCannotDisturbACall has those), ends within the
number of steps of R136 in DONE or ERROR, holding exactly what the function `assemble` gives: output, counters, warnings,
error record. R136 gives the bound provided Q answers and the sequencer is scheduled; both are the model's readings: Q is
total (DEDUCED, log 6), and with no host move left the sequencer takes every turn (DEDUCED, log 2). -/
def Obligations.CallComputesAssemble : Prop :=
  ∀ s : State, (s.seq.phase = .idle ∨ s.seq.phase = .done) → s.status.errCode = none → s.env.inputs = [] →
    ∃ t n u, exec .assemble s = .next t ∧ Host.Core.run core n t = .next u ∧
      n ≤ callTileCount s.config.latched + 65534 + 2 ∧
      (s.config.latched.mult.toNat ≤ 1 → n ≤ callTileCount s.config.latched + 256 + 2) ∧
      holdsEnd u (assembleCall s.env.answer s.config.latched) ∧
      u.status.warnMargin = s.config.latched.margin

/-- R140: two calls with the same latched configuration and the same quantizer, run undisturbed, run alike, whatever ran
before. The calls have no host move in between (HostCannotDisturbACall has those); that each of the n steps then is an
internal step of the call, a silent host leaving the sequencer every turn, is the model's reading (DEDUCED, log 2). -/
def Obligations.CallsAreIndependent : Prop :=
  ∀ s₁ s₂ : State, (s₁.seq.phase = .idle ∨ s₁.seq.phase = .done) → (s₂.seq.phase = .idle ∨ s₂.seq.phase = .done) →
    s₁.env.inputs = [] → s₂.env.inputs = [] → (∀ r, s₁.env.answer r = s₂.env.answer r) →
    s₁.config.latched = s₂.config.latched →
    ∀ n : Nat, ∃ t₁ t₂ u₁ u₂, exec .assemble s₁ = .next t₁ ∧ exec .assemble s₂ = .next t₂ ∧
      Host.Core.run core n t₁ = .next u₁ ∧ Host.Core.run core n t₂ = .next u₂ ∧
      u₁.output.out = u₂.output.out ∧ u₁.output.byteCount = u₂.output.byteCount ∧ u₁.seq = u₂.seq ∧
      u₁.status.warnMargin = u₂.status.warnMargin ∧ u₁.status.warnSoft = u₂.status.warnSoft ∧
      u₁.status.trunc = u₂.status.trunc ∧ u₁.status.outValid = u₂.status.outValid

/-- R138 (b), R131: under a hard limit B the output of a call that ends in DONE has 16 · min(u, floor(B / 16)) bytes, and
TRUNC is set exactly when u exceeds floor(B / 16). R131 calls u the units the call would append "with no limit"; the
reading of u here is the model's (DEDUCED, log 19): the units it would append if the limit cut nothing off, without legacy
padding, which R133 turns off under a limit. -/
def Obligations.TruncationIsExact : Prop :=
  ∀ (answer : QReq → QRsp) (l : Latch) (r : CallSoFar), 0 < l.limit.toNat → assembleCall answer l = .done r →
    r.out.length ≤ l.limit.toNat ∧ r.out.length = 16 * min (callUnits l) (l.limit.toNat / 16) ∧
    (r.trunc = true ↔ l.limit.toNat / 16 < callUnits l)

/-- R138 (a), (c), (d), R133: a call that ends in DONE without truncation has counted every tile; its output is rounded
up to the multiple, filled to the legacy bank, or exactly the tiles, and every byte after the tiles is 0. -/
def Obligations.PaddingIsExact : Prop :=
  ∀ (answer : QReq → QRsp) (l : Latch) (r : CallSoFar), assembleCall answer l = .done r → r.trunc = false →
    r.tiles = (l.w.toNat / 8) * (l.h.toNat / 8) ∧
    (1 < l.mult.toNat →
      r.out.length = (r.tiles + l.mult.toNat - 1) / l.mult.toNat * l.mult.toNat * 16) ∧
    (l.mult.toNat ≤ 1 → l.legacy = true → l.limit.toNat = 0 → r.out.length = max (16 * r.tiles) 4096) ∧
    (l.mult.toNat ≤ 1 → ¬ (l.legacy = true ∧ l.limit.toNat = 0) → r.out.length = 16 * r.tiles) ∧
    (∀ a, 16 * r.tiles ≤ a → r.out.getD a 0 = 0)

/-- R138 (e), (g): WARN_SOFT is set exactly when no limit is set and the output is above 4096 bytes; each counted tile's
sixteen bytes are those of the quantizer's answer for its own region. -/
def Obligations.OutputHoldsTheTilesInOrder : Prop :=
  ∀ (answer : QReq → QRsp) (l : Latch) (r : CallSoFar), assembleCall answer l = .done r →
    (r.warnSoft = true ↔ l.limit.toNat = 0 ∧ 4096 < r.out.length) ∧
    (∀ i, i < r.tiles → (r.out.drop (16 * i)).take 16 =
      tileBytes l.planeOrder (answer (tileOrigin l.scanOrder (l.w.toNat / 8) (l.h.toNat / 8) i)))

/-- R138 (h): the other plane order exchanges the two halves of every unit and changes nothing else. -/
def Obligations.PlaneOrderExchangesTheHalves : Prop :=
  ∀ (answer : QReq → QRsp) (l : Latch) (r : CallSoFar),
    assembleCall answer { l with planeOrder := .lowThenHigh } = .done r →
    ∃ r', assembleCall answer { l with planeOrder := .highThenLow } = .done r' ∧
      r'.tiles = r.tiles ∧ r'.warnSoft = r.warnSoft ∧ r'.trunc = r.trunc ∧ r'.out.length = r.out.length ∧
      ∀ i j, j < 16 → r'.out.getD (16 * i + j) 0 = r.out.getD (16 * i + (j + 8) % 16) 0

/-! ### Every step -/

/-- The invariants of R35 hold after reset. -/
def Obligations.ResetMeetsTheInvariant : Prop :=
  Inv State.reset

/-- R35, R26: from every state that meets the invariants, every step gives one that meets them. -/
def Obligations.StepKeepsTheInvariant : Prop :=
  ∀ s t : State, Inv s → step s = .next t → Inv t

/-- R173, R151: a recorded error stays, with the output and the counters, until CLEAR or reset. -/
def Obligations.ErrorIsSticky : Prop :=
  ∀ s t : State, s.seq.phase = .error → step s = .next t →
    (NextResets s ∧ t.seq.phase = .idle) ∨ (NextClears s ∧ t.seq.phase = .idle ∧ t.status.errCode = none) ∨
    (t.seq = s.seq ∧ t.status.errCode = s.status.errCode ∧ t.status.errInfo = s.status.errInfo ∧
      t.output.out = s.output.out ∧ t.output.byteCount = s.output.byteCount)

/-- R169: every event sets its STATUS bit in the same step, and no bit is newly set without its event. -/
def Obligations.EventsMirrorTheStatusBits : Prop :=
  ∀ s t : State, step s = .next t →
    (match t.port.event with
      | none => True
      | some .margin => t.status.warnMargin = true
      | some .softLimit => t.status.warnSoft = true
      | some .truncation => t.status.trunc = true
      | some .fatal => t.seq.phase = .error) ∧
    (s.status.warnMargin = false → t.status.warnMargin = true → t.port.event = some .margin) ∧
    (s.status.warnSoft = false → t.status.warnSoft = true → t.port.event = some .softLimit) ∧
    (s.status.trunc = false → t.status.trunc = true → t.port.event = some .truncation) ∧
    (s.seq.phase ≠ .error → t.seq.phase = .error → t.port.event = some .fatal)

/-- R43, R51: during a call a byte already written never changes, and the counters only grow, until the reset input. -/
def Obligations.WrittenBytesStay : Prop :=
  ∀ s t : State, Inv s → s.busy = true → step s = .next t → ¬ NextResets s →
    (∀ a, a < s.output.byteCount.toNat → t.output.out.read a = s.output.out.read a) ∧
    s.output.byteCount.toNat ≤ t.output.byteCount.toNat ∧ s.seq.tileCount.toNat ≤ t.seq.tileCount.toNat

/-- R33, R195, R41: the call's steps leave the configuration, the PN and TE registers, PERM_VALID, PLANE_VALID, OUT_ADDR
and the latch as they are, and do not read the configuration, PN and TE registers at all. -/
def Obligations.CallUsesOnlyItsOwnState : Prop :=
  ∀ s : State,
    s.sequence.config = s.config ∧ s.sequence.pn = s.pn ∧ s.sequence.te = s.te ∧ s.sequence.latch = s.latch ∧
    s.sequence.env = s.env ∧ s.sequence.output.outAddr = s.output.outAddr ∧
    s.sequence.status.permValid = s.status.permValid ∧ s.sequence.status.planeValid = s.status.planeValid ∧
    ∀ (config : ConfigRegs) (pn : PnRegs) (te : TeRegs),
      State.sequence { s with config := config, pn := pn, te := te } =
        { s.sequence with config := config, pn := pn, te := te }

/-- R136, R151: only a start makes the block busy. -/
def Obligations.OnlyAssembleStartsACall : Prop :=
  ∀ s t : State, s.busy = false → step s = .next t → t.busy = true → NextStarts s ∧ t.seq.phase = .scan

/-- R152, R48: a transaction during a call leaves the block as it is; a read puts out the register's value. -/
def Obligations.HostCannotDisturbACall : Prop :=
  ∀ (s : State) (e : Encoded) (rest : List HostMove), s.busy = true → s.env.inputs = .send e :: rest →
    ∃ t, step s = .next t ∧ t.config = s.config ∧ t.pn = s.pn ∧ t.te = s.te ∧ t.status = s.status ∧ t.seq = s.seq ∧
      t.output = s.output ∧ t.latch = s.latch ∧ t.env.answers = s.env.answers ∧ t.env.inputs = rest ∧
      t.port.event = none ∧ t.port.qreq = none ∧
      (∀ r, received e = .rd r → t.port.rdata = some (s.readReg r)) ∧
      ((∀ r, received e ≠ .rd r) → t.port.rdata = none)

/-- R100, R46: a request is sent only by a tile step, for the region of a complete 8 by 8 block of the latched image:
never for a margin, a padding tile or a tile after the last. -/
def Obligations.RequestsAreForWholeTiles : Prop :=
  ∀ (s t : State) (r : QReq), Inv s → step s = .next t → t.port.qreq = some r →
    s.seq.phase = .scan ∧ s.seq.tileCount.toNat < s.seq.nTiles.toNat ∧
    (∃ tx ty, tx < s.latch.w.toNat / 8 ∧ ty < s.latch.h.toNat / 8 ∧ r.x0.toNat = 8 * tx ∧ r.y0.toNat = 8 * ty) ∧
    r.x0.toNat + 8 ≤ s.latch.w.toNat ∧ r.y0.toNat + 8 ≤ s.latch.h.toNat

/-- R192, R197: between calls a new image takes the old one's place behind the quantizer and touches nothing of the
block; during a call it is the model's one stop (the model's choice, log 5). -/
def Obligations.ImageMayChangeBetweenCalls : Prop :=
  ∀ (s : State) (answers : List (QReq × QRsp)) (rest : List HostMove), s.env.inputs = .image answers :: rest →
    (s.busy = false → ∃ t, step s = .next t ∧ t.env = { inputs := rest, answers := answers } ∧
      t.config = s.config ∧ t.pn = s.pn ∧ t.te = s.te ∧ t.status = s.status ∧ t.seq = s.seq ∧ t.output = s.output ∧
      t.latch = s.latch) ∧
    (s.busy = true → step s = .fault .imageChangedDuringCall)

/-- R35 (g): the output is 16 · TILE_COUNT bytes after reset and after every start, and every step keeps it so but one
that appends a padding tile; and whenever the output is empty, no tile is counted, so CLEAR makes it so too. -/
def Obligations.OutputIsTheTilesUntilPadding : Prop :=
  State.reset.output.byteCount.toNat = 16 * State.reset.seq.tileCount.toNat ∧
  (∀ s : State, s.startCall.output.byteCount.toNat = 16 * s.startCall.seq.tileCount.toNat) ∧
  ∀ s t : State, Inv s → step s = .next t →
    (s.output.byteCount.toNat = 16 * s.seq.tileCount.toNat →
      t.output.byteCount.toNat = 16 * t.seq.tileCount.toNat ∨
      (s.seq.phase = .pad ∧ t.seq.padLeft.toNat + 1 = s.seq.padLeft.toNat ∧
        t.output.bytes = s.output.bytes ++ paddingTile)) ∧
    (t.output.byteCount = 0 → t.output.byteCount.toNat = 16 * t.seq.tileCount.toNat)

/-- R138 (a) to (h), of the machine: a call run with no host move in between that stands in DONE after any number of
steps has the listed properties; and the same call with the other plane order stands in DONE with it, its output that
with the halves of every unit exchanged. That with no host move left the sequencer takes every turn is the model's reading
(DEDUCED, log 2), and so is the u of (b) (DEDUCED, log 19). -/
def Obligations.DoneCallHasTheStatedProperties : Prop :=
  (∀ (s t u : State) (n : Nat), (s.seq.phase = .idle ∨ s.seq.phase = .done) → s.env.inputs = [] →
    exec .assemble s = .next t → Host.Core.run core n t = .next u → u.seq.phase = .done →
    DoneCall s.env.answer s.config.latched u) ∧
  ∀ (s₁ s₂ t₁ t₂ u₁ : State) (n : Nat), (s₁.seq.phase = .idle ∨ s₁.seq.phase = .done) →
    (s₂.seq.phase = .idle ∨ s₂.seq.phase = .done) → s₁.env.inputs = [] → s₂.env.inputs = [] →
    (∀ r, s₁.env.answer r = s₂.env.answer r) → s₁.config.latched.planeOrder = .lowThenHigh →
    s₂.config.latched = { s₁.config.latched with planeOrder := .highThenLow } →
    exec .assemble s₁ = .next t₁ → exec .assemble s₂ = .next t₂ →
    Host.Core.run core n t₁ = .next u₁ → u₁.seq.phase = .done →
    ∃ u₂, Host.Core.run core n t₂ = .next u₂ ∧ u₂.seq.phase = .done ∧
      HalvesExchanged u₁.output.bytes u₂.output.bytes
end

