-- ==== Sys2Proof/Laws/State.lean ====
section
/-! SUPPORT. One lemma per field group and named update of the state, each true by computation, so that no proof unfolds
a record update. -/

namespace Sys2Proof.Machine

/-! ### `State.outAppend` -/

@[simp] theorem State.outAppend_config (b : List Byte) (s : State) :
    (s.outAppend b).config =
      s.config := rfl

@[simp] theorem State.outAppend_pn (b : List Byte) (s : State) :
    (s.outAppend b).pn =
      s.pn := rfl

@[simp] theorem State.outAppend_te (b : List Byte) (s : State) :
    (s.outAppend b).te =
      s.te := rfl

@[simp] theorem State.outAppend_status (b : List Byte) (s : State) :
    (s.outAppend b).status =
      s.status := rfl

@[simp] theorem State.outAppend_seq (b : List Byte) (s : State) :
    (s.outAppend b).seq =
      s.seq := rfl

@[simp] theorem State.outAppend_output (b : List Byte) (s : State) :
    (s.outAppend b).output =
      { s.output with out := s.output.out.writeList s.output.byteCount.toNat b, byteCount := s.output.byteCount + BitVec.ofNat 32 b.length } := rfl

@[simp] theorem State.outAppend_latch (b : List Byte) (s : State) :
    (s.outAppend b).latch =
      s.latch := rfl

@[simp] theorem State.outAppend_env (b : List Byte) (s : State) :
    (s.outAppend b).env =
      s.env := rfl

@[simp] theorem State.outAppend_port (b : List Byte) (s : State) :
    (s.outAppend b).port =
      s.port := rfl

/-! ### `State.emit` -/

@[simp] theorem State.emit_config (e : Event) (s : State) :
    (s.emit e).config =
      s.config := rfl

@[simp] theorem State.emit_pn (e : Event) (s : State) :
    (s.emit e).pn =
      s.pn := rfl

@[simp] theorem State.emit_te (e : Event) (s : State) :
    (s.emit e).te =
      s.te := rfl

@[simp] theorem State.emit_status (e : Event) (s : State) :
    (s.emit e).status =
      s.status := rfl

@[simp] theorem State.emit_seq (e : Event) (s : State) :
    (s.emit e).seq =
      s.seq := rfl

@[simp] theorem State.emit_output (e : Event) (s : State) :
    (s.emit e).output =
      s.output := rfl

@[simp] theorem State.emit_latch (e : Event) (s : State) :
    (s.emit e).latch =
      s.latch := rfl

@[simp] theorem State.emit_env (e : Event) (s : State) :
    (s.emit e).env =
      s.env := rfl

@[simp] theorem State.emit_port (e : Event) (s : State) :
    (s.emit e).port =
      { s.port with event := some e } := rfl

/-! ### `State.raise` -/

@[simp] theorem State.raise_config (kind : ErrorKind) (info : Word) (s : State) :
    (s.raise kind info).config =
      s.config := rfl

@[simp] theorem State.raise_pn (kind : ErrorKind) (info : Word) (s : State) :
    (s.raise kind info).pn =
      s.pn := rfl

@[simp] theorem State.raise_te (kind : ErrorKind) (info : Word) (s : State) :
    (s.raise kind info).te =
      s.te := rfl

@[simp] theorem State.raise_status (kind : ErrorKind) (info : Word) (s : State) :
    (s.raise kind info).status =
      { s.status with errCode := some kind, errInfo := info, outValid := false } := rfl

@[simp] theorem State.raise_seq (kind : ErrorKind) (info : Word) (s : State) :
    (s.raise kind info).seq =
      { s.seq with phase := .error } := rfl

@[simp] theorem State.raise_output (kind : ErrorKind) (info : Word) (s : State) :
    (s.raise kind info).output =
      s.output := rfl

@[simp] theorem State.raise_latch (kind : ErrorKind) (info : Word) (s : State) :
    (s.raise kind info).latch =
      s.latch := rfl

@[simp] theorem State.raise_env (kind : ErrorKind) (info : Word) (s : State) :
    (s.raise kind info).env =
      s.env := rfl

@[simp] theorem State.raise_port (kind : ErrorKind) (info : Word) (s : State) :
    (s.raise kind info).port =
      { s.port with event := some .fatal } := rfl

/-! ### `State.clearCall` -/

@[simp] theorem State.clearCall_config (s : State) :
    (s.clearCall).config =
      s.config := rfl

@[simp] theorem State.clearCall_pn (s : State) :
    (s.clearCall).pn =
      s.pn := rfl

@[simp] theorem State.clearCall_te (s : State) :
    (s.clearCall).te =
      s.te := rfl

@[simp] theorem State.clearCall_status (s : State) :
    (s.clearCall).status =
      { s.status with outValid := false, errCode := none, warnMargin := false, warnSoft := false, trunc := false, errInfo := 0 } := rfl

@[simp] theorem State.clearCall_seq (s : State) :
    (s.clearCall).seq =
      { s.seq with phase := .idle, tileCount := 0, padLeft := 0 } := rfl

@[simp] theorem State.clearCall_output (s : State) :
    (s.clearCall).output =
      { s.output with out := [], byteCount := 0 } := rfl

@[simp] theorem State.clearCall_latch (s : State) :
    (s.clearCall).latch =
      s.latch := rfl

@[simp] theorem State.clearCall_env (s : State) :
    (s.clearCall).env =
      s.env := rfl

@[simp] theorem State.clearCall_port (s : State) :
    (s.clearCall).port =
      s.port := rfl

/-! ### `State.clearPort` -/

@[simp] theorem State.clearPort_config (s : State) :
    (s.clearPort).config =
      s.config := rfl

@[simp] theorem State.clearPort_pn (s : State) :
    (s.clearPort).pn =
      s.pn := rfl

@[simp] theorem State.clearPort_te (s : State) :
    (s.clearPort).te =
      s.te := rfl

@[simp] theorem State.clearPort_status (s : State) :
    (s.clearPort).status =
      s.status := rfl

@[simp] theorem State.clearPort_seq (s : State) :
    (s.clearPort).seq =
      s.seq := rfl

@[simp] theorem State.clearPort_output (s : State) :
    (s.clearPort).output =
      s.output := rfl

@[simp] theorem State.clearPort_latch (s : State) :
    (s.clearPort).latch =
      s.latch := rfl

@[simp] theorem State.clearPort_env (s : State) :
    (s.clearPort).env =
      s.env := rfl

@[simp] theorem State.clearPort_port (s : State) :
    (s.clearPort).port =
      { rdata := none, event := none, qreq := none } := rfl

/-! ### `State.setInputs` -/

@[simp] theorem State.setInputs_config (moves : List HostMove) (s : State) :
    (s.setInputs moves).config =
      s.config := rfl

@[simp] theorem State.setInputs_pn (moves : List HostMove) (s : State) :
    (s.setInputs moves).pn =
      s.pn := rfl

@[simp] theorem State.setInputs_te (moves : List HostMove) (s : State) :
    (s.setInputs moves).te =
      s.te := rfl

@[simp] theorem State.setInputs_status (moves : List HostMove) (s : State) :
    (s.setInputs moves).status =
      s.status := rfl

@[simp] theorem State.setInputs_seq (moves : List HostMove) (s : State) :
    (s.setInputs moves).seq =
      s.seq := rfl

@[simp] theorem State.setInputs_output (moves : List HostMove) (s : State) :
    (s.setInputs moves).output =
      s.output := rfl

@[simp] theorem State.setInputs_latch (moves : List HostMove) (s : State) :
    (s.setInputs moves).latch =
      s.latch := rfl

@[simp] theorem State.setInputs_env (moves : List HostMove) (s : State) :
    (s.setInputs moves).env =
      { s.env with inputs := moves } := rfl

@[simp] theorem State.setInputs_port (moves : List HostMove) (s : State) :
    (s.setInputs moves).port =
      s.port := rfl

/-! ### `State.endCall` -/

@[simp] theorem State.endCall_config (s : State) :
    (s.endCall).config =
      s.config := rfl

@[simp] theorem State.endCall_pn (s : State) :
    (s.endCall).pn =
      s.pn := rfl

@[simp] theorem State.endCall_te (s : State) :
    (s.endCall).te =
      s.te := rfl

@[simp] theorem State.endCall_status (s : State) :
    (s.endCall).status =
      { s.status with outValid := true } := rfl

@[simp] theorem State.endCall_seq (s : State) :
    (s.endCall).seq =
      { s.seq with phase := .done } := rfl

@[simp] theorem State.endCall_output (s : State) :
    (s.endCall).output =
      s.output := rfl

@[simp] theorem State.endCall_latch (s : State) :
    (s.endCall).latch =
      s.latch := rfl

@[simp] theorem State.endCall_env (s : State) :
    (s.endCall).env =
      s.env := rfl

@[simp] theorem State.endCall_port (s : State) :
    (s.endCall).port =
      s.port := rfl

/-! ### `State.endOfScan` -/

@[simp] theorem State.endOfScan_config (s : State) :
    (s.endOfScan).config =
      s.config := rfl

@[simp] theorem State.endOfScan_pn (s : State) :
    (s.endOfScan).pn =
      s.pn := rfl

@[simp] theorem State.endOfScan_te (s : State) :
    (s.endOfScan).te =
      s.te := rfl

@[simp] theorem State.endOfScan_status (s : State) :
    (s.endOfScan).status =
      s.status := rfl

@[simp] theorem State.endOfScan_seq (s : State) :
    (s.endOfScan).seq =
      { s.seq with padLeft := BitVec.ofNat 32 (padWanted s.latch s.seq.tileCount.toNat s.output.byteCount.toNat), phase := .pad } := rfl

@[simp] theorem State.endOfScan_output (s : State) :
    (s.endOfScan).output =
      s.output := rfl

@[simp] theorem State.endOfScan_latch (s : State) :
    (s.endOfScan).latch =
      s.latch := rfl

@[simp] theorem State.endOfScan_env (s : State) :
    (s.endOfScan).env =
      s.env := rfl

@[simp] theorem State.endOfScan_port (s : State) :
    (s.endOfScan).port =
      s.port := rfl

/-! ### `State.startCall` -/

@[simp] theorem State.startCall_config (s : State) :
    s.startCall.config =
      s.config := by
  unfold State.startCall; by_cases h : s.config.latched.margin = true <;> simp only [h] <;> rfl

@[simp] theorem State.startCall_pn (s : State) :
    s.startCall.pn =
      s.pn := by
  unfold State.startCall; by_cases h : s.config.latched.margin = true <;> simp only [h] <;> rfl

@[simp] theorem State.startCall_te (s : State) :
    s.startCall.te =
      s.te := by
  unfold State.startCall; by_cases h : s.config.latched.margin = true <;> simp only [h] <;> rfl

@[simp] theorem State.startCall_status (s : State) :
    s.startCall.status =
      { s.status with outValid := false, warnMargin := s.config.latched.margin, warnSoft := false, trunc := false } := by
  unfold State.startCall; by_cases h : s.config.latched.margin = true <;> simp only [h] <;> rfl

@[simp] theorem State.startCall_seq (s : State) :
    s.startCall.seq =
      { phase := .scan, tileCount := 0, padLeft := 0, tilesX := s.config.latched.columns
        tilesY := s.config.latched.tileRows
        nTiles := BitVec.ofNat 26 (s.config.latched.columns.toNat * s.config.latched.tileRows.toNat) } := by
  unfold State.startCall; by_cases h : s.config.latched.margin = true <;> simp only [h] <;> rfl

@[simp] theorem State.startCall_output (s : State) :
    s.startCall.output =
      { s.output with out := [], byteCount := 0 } := by
  unfold State.startCall; by_cases h : s.config.latched.margin = true <;> simp only [h] <;> rfl

@[simp] theorem State.startCall_latch (s : State) :
    s.startCall.latch =
      s.config.latched := by
  unfold State.startCall; by_cases h : s.config.latched.margin = true <;> simp only [h] <;> rfl

@[simp] theorem State.startCall_env (s : State) :
    s.startCall.env =
      s.env := by
  unfold State.startCall; by_cases h : s.config.latched.margin = true <;> simp only [h] <;> rfl

@[simp] theorem State.startCall_port (s : State) :
    s.startCall.port =
      if s.config.latched.margin then { s.port with event := some .margin } else s.port := by
  unfold State.startCall; by_cases h : s.config.latched.margin = true <;> simp only [h] <;> rfl

/-! ### `State.applyReset` -/

@[simp] theorem State.applyReset_config (s : State) :
    s.applyReset.config =
      State.reset.config := rfl

@[simp] theorem State.applyReset_pn (s : State) :
    s.applyReset.pn =
      State.reset.pn := rfl

@[simp] theorem State.applyReset_te (s : State) :
    s.applyReset.te =
      State.reset.te := rfl

@[simp] theorem State.applyReset_status (s : State) :
    s.applyReset.status =
      State.reset.status := rfl

@[simp] theorem State.applyReset_seq (s : State) :
    s.applyReset.seq =
      State.reset.seq := rfl

@[simp] theorem State.applyReset_output (s : State) :
    s.applyReset.output =
      State.reset.output := rfl

@[simp] theorem State.applyReset_latch (s : State) :
    s.applyReset.latch =
      State.reset.latch := rfl

@[simp] theorem State.applyReset_env (s : State) :
    s.applyReset.env =
      s.env := rfl

@[simp] theorem State.applyReset_port (s : State) :
    s.applyReset.port =
      State.reset.port := rfl

/-! ### `State.writeReg`: what no write of a register touches -/

@[simp] theorem State.writeReg_status (s : State) (r : Reg) (v : Word) :
    (s.writeReg r v).status = s.status := by
  cases r <;> rfl

@[simp] theorem State.writeReg_seq (s : State) (r : Reg) (v : Word) :
    (s.writeReg r v).seq = s.seq := by
  cases r <;> rfl

@[simp] theorem State.writeReg_latch (s : State) (r : Reg) (v : Word) :
    (s.writeReg r v).latch = s.latch := by
  cases r <;> rfl

@[simp] theorem State.writeReg_env (s : State) (r : Reg) (v : Word) :
    (s.writeReg r v).env = s.env := by
  cases r <;> rfl

@[simp] theorem State.writeReg_port (s : State) (r : Reg) (v : Word) :
    (s.writeReg r v).port = s.port := by
  cases r <;> rfl

@[simp] theorem State.writeReg_out (s : State) (r : Reg) (v : Word) :
    (s.writeReg r v).output.out = s.output.out := by
  cases r <;> rfl

@[simp] theorem State.writeReg_byteCount (s : State) (r : Reg) (v : Word) :
    (s.writeReg r v).output.byteCount = s.output.byteCount := by
  cases r <;> rfl

@[simp] theorem State.writeReg_perm (s : State) (r : Reg) (v : Word) :
    (s.writeReg r v).pn.perm = s.pn.perm := by
  cases r <;> rfl

@[simp] theorem State.writeReg_plane0 (s : State) (r : Reg) (v : Word) :
    (s.writeReg r v).te.plane0 = s.te.plane0 := by
  cases r <;> rfl

@[simp] theorem State.writeReg_plane1 (s : State) (r : Reg) (v : Word) :
    (s.writeReg r v).te.plane1 = s.te.plane1 := by
  cases r <;> rfl

/-! ### What depends on the phase alone -/

theorem State.busy_eq (s : State) : s.busy = (s.seq.phase == .scan || s.seq.phase == .pad) := rfl

theorem State.acceptsCommand_eq (s : State) :
    s.acceptsCommand = (s.seq.phase == .idle || s.seq.phase == .done) := rfl

theorem State.acceptsClear_eq_not_busy (s : State) : s.acceptsClear = !s.busy := by
  cases h : s.seq.phase <;> simp [State.acceptsClear, State.busy, h]

theorem State.acceptsCommand_eq_not_busy_not_error (s : State) :
    s.acceptsCommand = (!s.busy && !s.isError) := by
  cases h : s.seq.phase <;> simp [State.acceptsCommand, State.busy, State.isError, h]

end Sys2Proof.Machine
end

