-- ==== Sys2Proof/Laws/Memory.lean ====
section
/-! SUPPORT. The laws of the output buffer's memory: reads after writes, the canonical form, and what appending does to
the list of its bytes (R42, R43). -/

namespace Sys2Proof.Machine

/-- An offset below every listed one reads 0. -/
theorem Memory.read_below {m : Memory} {a : Nat} (h : ∀ c ∈ m, a < c.1) : m.read a = 0#8 := by
  induction m with
  | nil => rfl
  | cons c rest ih =>
    have hc := h c (by simp)
    obtain ⟨k, b⟩ := c
    have : k ≠ a := by simp at hc; omega
    simp [Memory.read, this, ih fun d hd => h d (by simp [hd])]

/-- An offset that is not listed reads 0. -/
theorem Memory.read_unlisted {m : Memory} {a : Nat} (h : ∀ c ∈ m, c.1 ≠ a) : m.read a = 0#8 := by
  induction m with
  | nil => rfl
  | cons c rest ih =>
    obtain ⟨k, b⟩ := c
    have hk : k ≠ a := h (k, b) (by simp)
    simp [Memory.read, hk, ih fun d hd => h d (by simp [hd])]

/-- A write lists no offset but the old ones and its own. -/
theorem Memory.mem_write {m : Memory} {a : Nat} {b : Byte} {c : Host.Cell} (h : c ∈ m.write a b) :
    c ∈ m ∨ (c = (a, b) ∧ b ≠ 0#8) := by
  induction m with
  | nil => by_cases hb : b = 0#8 <;> simp_all [Memory.write]
  | cons d rest ih =>
    obtain ⟨k, e⟩ := d
    unfold Memory.write at h
    split at h
    · rcases List.mem_cons.1 h with h | h
      · exact .inl (by simp [h])
      · rcases ih h with h | h
        · exact .inl (by simp [h])
        · exact .inr h
    · split at h <;> split at h <;> simp_all <;> tauto

/-- Every write keeps the canonical form. -/
theorem Memory.wf_write {m : Memory} (h : m.wf) (a : Nat) (b : Byte) : (m.write a b).wf := by
  induction m with
  | nil => by_cases hb : b = 0#8 <;> simp [Memory.write, Memory.wf, hb]
  | cons d rest ih =>
    obtain ⟨k, e⟩ := d
    obtain ⟨hs, hz⟩ := h
    obtain ⟨hk, hs⟩ := List.pairwise_cons.1 hs
    have hrest : Memory.wf rest := ⟨hs, fun c hc => hz c (by simp [hc])⟩
    have he : e ≠ 0#8 := hz (k, e) (by simp)
    unfold Memory.write
    split
    · rename_i hlt
      refine ⟨List.pairwise_cons.2 ⟨fun c hc => ?_, (ih hrest).1⟩, fun c hc => ?_⟩
      · rcases Memory.mem_write hc with hc | ⟨rfl, -⟩
        · exact hk c hc
        · exact hlt
      · rcases List.mem_cons.1 hc with rfl | hc
        · exact he
        · exact (ih hrest).2 c hc
    · rename_i hlt
      split
      · rename_i heq
        subst heq
        split
        · exact hrest
        · rename_i hb
          exact ⟨List.pairwise_cons.2 ⟨hk, hs⟩, fun c hc => by
            rcases List.mem_cons.1 hc with rfl | hc
            · exact hb
            · exact hrest.2 c hc⟩
      · rename_i hne
        split
        · exact ⟨List.pairwise_cons.2 ⟨hk, hs⟩, hz⟩
        · rename_i hb
          refine ⟨List.pairwise_cons.2 ⟨fun c hc => ?_, List.pairwise_cons.2 ⟨hk, hs⟩⟩, fun c hc => ?_⟩
          · rcases List.mem_cons.1 hc with rfl | hc
            · show a < k
              omega
            · have := hk c hc
              show a < c.1
              simp at this
              omega
          · rcases List.mem_cons.1 hc with rfl | hc
            · exact hb
            · exact hz c hc

/-- A read after a write: the written byte at its offset, every other byte as before. -/
theorem Memory.read_write {m : Memory} (h : m.wf) (a : Nat) (b : Byte) (x : Nat) :
    (m.write a b).read x = if x = a then b else m.read x := by
  induction m with
  | nil =>
    by_cases hb : b = 0#8
    · by_cases hx : x = a <;> simp [Memory.write, Memory.read, hb]
    · by_cases hx : x = a
      · simp [Memory.write, Memory.read, hb, hx]
      · simp [Memory.write, Memory.read, hb, hx, Ne.symm hx]
  | cons d rest ih =>
    obtain ⟨k, e⟩ := d
    obtain ⟨hs, hz⟩ := h
    obtain ⟨hk, hs⟩ := List.pairwise_cons.1 hs
    have hrest : Memory.wf rest := ⟨hs, fun c hc => hz c (by simp [hc])⟩
    have hbelow : ∀ y, y ≤ k → Memory.read rest y = 0#8 := fun y hy =>
      Memory.read_below fun c hc => lt_of_le_of_lt hy (hk c hc)
    have ih' := ih hrest
    unfold Memory.write
    split
    · rename_i hlt
      by_cases hx : k = x
      · subst hx
        have : k ≠ a := by omega
        simp [Memory.read, this]
      · simp [Memory.read, hx, ih']
    · rename_i hlt
      split
      · rename_i heq
        subst heq
        split
        · rename_i hb
          by_cases hx : x = k
          · subst hx
            simp [hbelow x le_rfl, hb]
          · simp [Memory.read, hx, Ne.symm hx]
        · by_cases hx : x = k
          · simp [Memory.read, hx]
          · simp [Memory.read, hx, Ne.symm hx]
      · rename_i hne
        have hak : a < k := by omega
        split
        · rename_i hb
          by_cases hx : x = a
          · subst hx
            simp [Memory.read, hne, hbelow x hak.le, hb]
          · simp [hx]
        · by_cases hx : x = a
          · simp [Memory.read, hx]
          · simp [Memory.read, hx, Ne.symm hx]

/-- A run of writes keeps the canonical form. -/
theorem Memory.wf_writeList {m : Memory} (h : m.wf) (a : Nat) (bs : List Byte) : (m.writeList a bs).wf := by
  induction bs generalizing m a with
  | nil => exact h
  | cons b bs ih => exact ih (Memory.wf_write h a b) (a + 1)

/-- A read after a run of writes: the bytes written from `a` on, every other byte as before. -/
theorem Memory.read_writeList {m : Memory} (h : m.wf) (a : Nat) (bs : List Byte) (x : Nat) :
    (m.writeList a bs).read x = if a ≤ x ∧ x < a + bs.length then bs.getD (x - a) 0#8 else m.read x := by
  induction bs generalizing m a with
  | nil =>
    have : ¬ (a ≤ x ∧ x < a + ([] : List Byte).length) := by simp
    simp only [this, if_false]
    rfl
  | cons b bs ih =>
    rw [Memory.writeList, ih (Memory.wf_write h a b) (a + 1), Memory.read_write h, List.length_cons]
    by_cases hx : x = a
    · subst hx
      simp
    · by_cases hin : a + 1 ≤ x ∧ x < a + 1 + bs.length
      · have hin' : a ≤ x ∧ x < a + (bs.length + 1) := by omega
        have : x - a = (x - (a + 1)) + 1 := by omega
        simp [hin, hin', this]
      · have hin' : ¬ (a ≤ x ∧ x < a + (bs.length + 1)) := by omega
        rw [if_neg hin, if_neg hx, if_neg hin']

/-- A run of writes lists no offset but the old ones and the ones it covers. -/
theorem Memory.offset_writeList {m : Memory} {a : Nat} {bs : List Byte} {c : Host.Cell}
    (h : c ∈ m.writeList a bs) : c ∈ m ∨ (a ≤ c.1 ∧ c.1 < a + bs.length) := by
  induction bs generalizing m a with
  | nil => exact .inl h
  | cons b bs ih =>
    rcases ih h with h | h
    · rcases Memory.mem_write h with h | ⟨rfl, -⟩
      · exact .inl h
      · exact .inr (by simp)
    · exact .inr (by simp only [List.length_cons]; omega)

/-- Canonical memories that read alike are the same list. -/
theorem Memory.eq_of_read {m n : Memory} (hm : m.wf) (hn : n.wf) (h : ∀ a, m.read a = n.read a) : m = n := by
  induction m generalizing n with
  | nil =>
    cases n with
    | nil => rfl
    | cons c n' =>
      exact absurd (h c.1).symm (by simpa [Memory.read] using hn.2 c (by simp))
  | cons c m' ih =>
    cases n with
    | nil => exact absurd (h c.1) (by simpa [Memory.read] using hm.2 c (by simp))
    | cons d n' =>
      obtain ⟨k, b⟩ := c
      obtain ⟨l, e⟩ := d
      obtain ⟨hkm, hsm⟩ := List.pairwise_cons.1 hm.1
      obtain ⟨hln, hsn⟩ := List.pairwise_cons.1 hn.1
      have hb : b ≠ 0#8 := hm.2 (k, b) (by simp)
      have he : e ≠ 0#8 := hn.2 (l, e) (by simp)
      have hkl : k = l := by
        rcases lt_trichotomy k l with hlt | heq | hgt
        · exfalso
          have hk := h k
          rw [Memory.read_below (m := (l, e) :: n') (a := k)] at hk
          · simp [Memory.read, hb] at hk
          · intro c hc
            rcases List.mem_cons.1 hc with rfl | hc
            · exact hlt
            · exact lt_trans hlt (hln c hc)
        · exact heq
        · exfalso
          have hl := h l
          rw [Memory.read_below (m := (k, b) :: m') (a := l)] at hl
          · exact he (by simpa [Memory.read] using hl.symm)
          · intro c hc
            rcases List.mem_cons.1 hc with rfl | hc
            · exact hgt
            · exact lt_trans hgt (hkm c hc)
      subst hkl
      have hbe : b = e := by simpa [Memory.read] using h k
      subst hbe
      refine congrArg _ (ih ⟨hsm, fun c hc => hm.2 c (by simp [hc])⟩ ⟨hsn, fun c hc => hn.2 c (by simp [hc])⟩ fun a => ?_)
      by_cases ha : k = a
      · subst ha
        rw [Memory.read_below hkm, Memory.read_below hln]
      · simpa [Memory.read, ha] using h a

/-- The reset output buffer is canonical. -/
theorem Memory.wf_reset : Memory.wf State.reset.output.out := by decide

/-! ### The output stream as a list of bytes -/

@[simp] theorem Output.length_bytes (o : Output) : o.bytes.length = o.byteCount.toNat := by
  simp [Output.bytes]

/-- A byte of the stream is the byte read at its offset. -/
theorem Output.bytes_getD (o : Output) {a : Nat} (h : a < o.byteCount.toNat) :
    o.bytes.getD a 0#8 = o.out.read a := by
  simp [Output.bytes, List.getD, h]

/-- BYTE_COUNT after an append that does not leave 32 bits. -/
theorem State.outAppend_byteCount {b : List Byte} {s : State}
    (hb : s.output.byteCount.toNat + b.length < 2 ^ 32) :
    (s.outAppend b).output.byteCount.toNat = s.output.byteCount.toNat + b.length := by
  simp only [State.outAppend_output, BitVec.toNat_add, BitVec.toNat_ofNat]
  omega

/-- OutAppend puts its bytes behind the stream and leaves what was there (R42). -/
theorem State.outAppend_bytes {b : List Byte} {s : State} (hw : Memory.wf s.output.out)
    (hb : s.output.byteCount.toNat + b.length < 2 ^ 32) :
    (s.outAppend b).output.bytes = s.output.bytes ++ b := by
  have hn := State.outAppend_byteCount hb
  apply List.ext_getElem
  · simp only [Output.length_bytes, hn, List.length_append]
  · intro a h1 h2
    have ha : a < s.output.byteCount.toNat + b.length := by
      rw [Output.length_bytes, hn] at h1
      exact h1
    have hl : (s.outAppend b).output.bytes[a] = (s.outAppend b).output.out.read a := by
      simp only [Output.bytes, List.getElem_map, List.getElem_range]
    rw [hl]
    simp only [State.outAppend_output, Memory.read_writeList hw]
    by_cases hlt : a < s.output.byteCount.toNat
    · have hnot : ¬ (s.output.byteCount.toNat ≤ a ∧ a < s.output.byteCount.toNat + b.length) := by omega
      rw [if_neg hnot, List.getElem_append_left (by simpa using hlt)]
      simp only [Output.bytes, List.getElem_map, List.getElem_range]
    · have hin : s.output.byteCount.toNat ≤ a ∧ a < s.output.byteCount.toNat + b.length := by omega
      rw [if_pos hin, List.getElem_append_right (by simpa using hlt)]
      have : a - s.output.byteCount.toNat < b.length := by omega
      simp [List.getD, this]

end Sys2Proof.Machine
end

