-- ==== Sys2Proof/Laws/Operands.lean ====
section
/-! SUPPORT. The laws of the containers and of the STATUS word's inputs. -/

namespace Sys2Proof

theorem Four.get_set {α : Type} (v : Four α) (i j : Fin 4) (x : α) :
    (v.set i x).get j = if j = i then x else v.get j := by
  fin_cases i <;> fin_cases j <;> rfl

theorem Eight.get_set {α : Type} (v : Eight α) (i j : Fin 8) (x : α) :
    (v.set i x).get j = if j = i then x else v.get j := by
  fin_cases i <;> fin_cases j <;> rfl

@[simp] theorem Eight.get_map {α β : Type} (f : α → β) (v : Eight α) (i : Fin 8) : (v.map f).get i = f (v.get i) := by
  fin_cases i <;> rfl

@[simp] theorem Eight.get_ofFn {α : Type} (f : Fin 8 → α) (i : Fin 8) : (Eight.ofFn f).get i = f i := by
  fin_cases i <;> rfl

/-- Containers with the same entries are the same. -/
theorem Eight.ext_get {α : Type} {v w : Eight α} (h : ∀ i, v.get i = w.get i) : v = w := by
  obtain ⟨a, b, c, d, e, f, g, k⟩ := v
  obtain ⟨a', b', c', d', e', f', g', k'⟩ := w
  have h0 := h 0
  have h1 := h 1
  have h2 := h 2
  have h3 := h 3
  have h4 := h 4
  have h5 := h 5
  have h6 := h 6
  have h7 := h 7
  simp only [Eight.get] at h0 h1 h2 h3 h4 h5 h6 h7
  subst h0 h1 h2 h3 h4 h5 h6 h7
  rfl

@[simp] theorem Eight.length_toList {α : Type} (v : Eight α) : v.toList.length = 8 := rfl

theorem Eight.getElem_toList {α : Type} (v : Eight α) (i : Fin 8) : v.toList[i.val]'(by simp) = v.get i := by
  fin_cases i <;> rfl

namespace Machine

/-- The STATUS word depends on the stored bits and the phase alone. -/
theorem State.statusWord_congr {s t : State} (hs : t.status = s.status) (hp : t.seq.phase = s.seq.phase) :
    t.statusWord = s.statusWord := by
  simp only [State.statusWord, State.busy, State.isDone, State.isError, hs, hp]

/-- A tile has sixteen bytes in the stream. -/
theorem length_tileBytes (order : PlaneOrder) (q : QRsp) : (tileBytes order q).length = 16 := by
  cases order <;> rfl

theorem length_paddingTile : paddingTile.length = 16 := by decide

end Machine

end Sys2Proof
end

