-- ==== Sys2Proof/Laws/Ops.lean ====
section
/-! SUPPORT. One lemma for each shared operation that says everything it can do: appending, the commands' effects, the
sequencer's turn, a move of the host, a step. -/

namespace Sys2Proof.Machine

/-- Everything AppendTile can do (R129): refuse under the hard limit, append under it, append with the one soft-limit
warning, append. -/
theorem State.appendTile_cases (b : List Byte) (s : State) :
    (0 < s.latch.limit.toNat ∧ s.latch.limit.toNat < s.output.byteCount.toNat + 16 ∧
      s.appendTile b = .truncated (State.emit .truncation { s with status.trunc := true })) ∨
    (0 < s.latch.limit.toNat ∧ s.output.byteCount.toNat + 16 ≤ s.latch.limit.toNat ∧
      s.appendTile b = .ok (s.outAppend b)) ∨
    (s.latch.limit.toNat = 0 ∧ s.status.warnSoft = false ∧ 4096 < s.output.byteCount.toNat + 16 ∧
      s.appendTile b = .ok ((State.emit .softLimit { s with status.warnSoft := true }).outAppend b)) ∨
    (s.latch.limit.toNat = 0 ∧ (s.status.warnSoft = true ∨ s.output.byteCount.toNat + 16 ≤ 4096) ∧
      s.appendTile b = .ok (s.outAppend b)) := by
  by_cases hl : 0 < s.latch.limit.toNat
  · by_cases hx : s.latch.limit.toNat < s.output.byteCount.toNat + 16
    · exact .inl ⟨hl, hx, by rw [State.appendTile, if_pos hl, if_pos hx]⟩
    · exact .inr (.inl ⟨hl, by omega, by rw [State.appendTile, if_pos hl, if_neg hx]⟩)
  · have h0 : s.latch.limit.toNat = 0 := by omega
    cases hw : s.status.warnSoft
    · by_cases hx : 4096 < s.output.byteCount.toNat + 16
      · exact .inr (.inr (.inl ⟨h0, rfl, hx, by rw [State.appendTile, if_neg hl, if_pos (by simp [hw, hx])]⟩))
      · exact .inr (.inr (.inr ⟨h0, .inr (by omega), by rw [State.appendTile, if_neg hl, if_neg (by simp [hx])]⟩))
    · exact .inr (.inr (.inr ⟨h0, .inl rfl, by rw [State.appendTile, if_neg hl, if_neg (by simp [hw])]⟩))

/-- Everything NORMALIZE can do once accepted (R87). -/
theorem State.performNormalize_cases (s : State) :
    (∃ e, normalizeError s.pn.palCtrl.palLen.toNat s.pn.palCtrl.transp = some e ∧
      s.performNormalize = State.raise e 0 { s with status.permValid := false }) ∨
    (normalizeError s.pn.palCtrl.palLen.toNat s.pn.palCtrl.transp = none ∧
      s.performNormalize =
        { s with
          pn.perm := packPerm (permutation s.pn.palCtrl.palLen.toNat s.pn.pal s.pn.palCtrl.transp)
          status.permValid := true }) := by
  unfold State.performNormalize normalizePalette
  cases h : normalizeError s.pn.palCtrl.palLen.toNat s.pn.palCtrl.transp with
  | some e => exact .inl ⟨e, rfl, rfl⟩
  | none => exact .inr ⟨rfl, rfl⟩

/-- Everything ENCODE_TILE can do once accepted (R113). -/
theorem State.performEncodeTile_cases (s : State) :
    (shapeOk s.te.tileShape.rows s.te.tileShape.cols = false ∧
      s.performEncodeTile = State.raise .shape 0 { s with status.planeValid := false }) ∨
    (shapeOk s.te.tileShape.rows s.te.tileShape.cols = true ∧
      s.performEncodeTile =
        { s with
          te.plane0 := (encodePlanes s.te.grid).1
          te.plane1 := (encodePlanes s.te.grid).2
          status.planeValid := true }) := by
  unfold State.performEncodeTile encodeTile
  cases h : shapeOk s.te.tileShape.rows s.te.tileShape.cols with
  | false => exact .inl ⟨rfl, rfl⟩
  | true => exact .inr ⟨rfl, rfl⟩

/-- NORMALIZE once accepted leaves all but PERM, PERM_VALID and what fatal-error entry writes (R87). -/
theorem State.performNormalize_frame (s : State) :
    s.performNormalize.output = s.output ∧ s.performNormalize.latch = s.latch ∧ s.performNormalize.env = s.env ∧
      s.performNormalize.config = s.config ∧ s.performNormalize.te = s.te ∧
      ((s.performNormalize.seq = s.seq ∧ s.performNormalize.port = s.port ∧
          s.performNormalize.status = { s.status with permValid := true }) ∨
        ∃ e, s.performNormalize.seq = { s.seq with phase := .error } ∧
          s.performNormalize.port = { s.port with event := some .fatal } ∧
          s.performNormalize.status =
            { s.status with permValid := false, errCode := some e, errInfo := 0, outValid := false }) := by
  rcases s.performNormalize_cases with ⟨e, -, h⟩ | ⟨-, h⟩ <;> rw [h]
  · exact ⟨rfl, rfl, rfl, rfl, rfl, .inr ⟨e, rfl, rfl, rfl⟩⟩
  · exact ⟨rfl, rfl, rfl, rfl, rfl, .inl ⟨rfl, rfl, rfl⟩⟩

/-- ENCODE_TILE once accepted leaves all but the planes, PLANE_VALID and what fatal-error entry writes (R113). -/
theorem State.performEncodeTile_frame (s : State) :
    s.performEncodeTile.output = s.output ∧ s.performEncodeTile.latch = s.latch ∧ s.performEncodeTile.env = s.env ∧
      s.performEncodeTile.config = s.config ∧ s.performEncodeTile.pn = s.pn ∧
      ((s.performEncodeTile.seq = s.seq ∧ s.performEncodeTile.port = s.port ∧
          s.performEncodeTile.status = { s.status with planeValid := true }) ∨
        (s.performEncodeTile.seq = { s.seq with phase := .error } ∧
          s.performEncodeTile.port = { s.port with event := some .fatal } ∧
          s.performEncodeTile.status =
            { s.status with planeValid := false, errCode := some .shape, errInfo := 0, outValid := false })) := by
  rcases s.performEncodeTile_cases with ⟨-, h⟩ | ⟨-, h⟩ <;> rw [h]
  · exact ⟨rfl, rfl, rfl, rfl, rfl, .inr ⟨rfl, rfl, rfl⟩⟩
  · exact ⟨rfl, rfl, rfl, rfl, rfl, .inl ⟨rfl, rfl, rfl⟩⟩

/-- Everything a dispatched value can do (R150). -/
theorem State.dispatch_cases (v : Word) (s : State) :
    (s.dispatch v = s ∧ (s.busy = true ∨ v = 0#32 ∨ s.isError = true)) ∨
    (s.dispatch v = s.clearCall ∧ s.busy = false ∧ v = 4#32) ∨
    (s.acceptsCommand = true ∧
      ((v = 1#32 ∧ s.dispatch v = s.performNormalize) ∨ (v = 2#32 ∧ s.dispatch v = s.performEncodeTile) ∨
        (v = 3#32 ∧ s.dispatch v = s.startCall) ∨ (4 < v.toNat ∧ s.dispatch v = s.raise .illegalCommand v))) := by
  unfold State.dispatch
  rw [State.acceptsCommand_eq_not_busy_not_error]
  by_cases hb : s.busy = true
  · exact .inl ⟨by simp [hb], .inl hb⟩
  by_cases h0 : v = 0#32
  · exact .inl ⟨by simp [h0], .inr (.inl h0)⟩
  by_cases h4 : v = 4#32
  · exact .inr (.inl ⟨by simp [h4, hb], by simpa using hb, h4⟩)
  by_cases he : s.isError = true
  · exact .inl ⟨by simp [hb, h0, h4, he], .inr (.inr he)⟩
  refine .inr (.inr ⟨by simp [hb, he], ?_⟩)
  by_cases h1 : v = 1#32
  · exact .inl ⟨h1, by simp [hb, he, h1]⟩
  by_cases h2 : v = 2#32
  · exact .inr (.inl ⟨h2, by simp [hb, he, h2]⟩)
  by_cases h3 : v = 3#32
  · exact .inr (.inr (.inl ⟨h3, by simp [hb, he, h3]⟩))
  refine .inr (.inr (.inr ⟨?_, by simp [hb, he, h0, h1, h2, h3, h4]⟩))
  have hne : ∀ k : Nat, k < 2 ^ 32 → v ≠ BitVec.ofNat 32 k → v.toNat ≠ k := fun k hk h e =>
    h (BitVec.eq_of_toNat_eq (by rw [e, BitVec.toNat_ofNat, Nat.mod_eq_of_lt hk]))
  have := hne 0 (by decide) h0
  have := hne 1 (by decide) h1
  have := hne 2 (by decide) h2
  have := hne 3 (by decide) h3
  have := hne 4 (by decide) h4
  omega

/-- Everything the tile step can do with a response (R125 to R127). -/
theorem State.takeResponse_cases (q : QRsp) (s : State) :
    (∃ e, responseError q = some e ∧ s.takeResponse q = s.raise e s.seq.tileCount) ∨
    (responseError q = none ∧ ∃ t, s.appendTile (tileBytes s.latch.planeOrder q) = .truncated t ∧
      s.takeResponse q = t.endCall) ∨
    (responseError q = none ∧ ∃ t, s.appendTile (tileBytes s.latch.planeOrder q) = .ok t ∧
      s.takeResponse q = { t with seq.tileCount := t.seq.tileCount + 1 }) := by
  unfold State.takeResponse
  cases hr : responseError q with
  | some e => exact .inl ⟨e, rfl, rfl⟩
  | none =>
    cases ha : s.appendTile (tileBytes s.latch.planeOrder q) with
    | truncated t => exact .inr (.inl ⟨rfl, t, rfl, rfl⟩)
    | ok t => exact .inr (.inr ⟨rfl, t, rfl, rfl⟩)

/-- Everything the pad step can do (R134). -/
theorem State.padStep_cases (s : State) :
    (∃ t, s.appendTile paddingTile = .truncated t ∧ s.padStep = t.endCall) ∨
    (∃ t, s.appendTile paddingTile = .ok t ∧ s.padStep = { t with seq.padLeft := t.seq.padLeft - 1 }) := by
  unfold State.padStep
  cases ha : s.appendTile paddingTile with
  | truncated t => exact .inl ⟨t, rfl, rfl⟩
  | ok t => exact .inr ⟨t, rfl, rfl⟩

/-- Everything a turn of the sequencer can be (R136). -/
theorem State.sequence_cases (s : State) :
    (s.sequence = s ∧ (s.busy = false ∨ s.seq.nTiles.toNat < s.seq.tileCount.toNat)) ∨
    (s.seq.phase = .scan ∧ s.seq.tileCount.toNat < s.seq.nTiles.toNat ∧ s.sequence = s.tileStep) ∨
    (s.seq.phase = .scan ∧ s.seq.tileCount.toNat = s.seq.nTiles.toNat ∧ s.sequence = s.endOfScan) ∨
    (s.seq.phase = .pad ∧ 0 < s.seq.padLeft.toNat ∧ s.sequence = s.padStep) ∨
    (s.seq.phase = .pad ∧ s.seq.padLeft.toNat = 0 ∧ s.sequence = s.endCall) := by
  unfold State.sequence
  cases hp : s.seq.phase with
  | idle => exact .inl ⟨rfl, .inl (by simp [State.busy, hp])⟩
  | done => exact .inl ⟨rfl, .inl (by simp [State.busy, hp])⟩
  | error => exact .inl ⟨rfl, .inl (by simp [State.busy, hp])⟩
  | scan =>
    by_cases hlt : s.seq.tileCount.toNat < s.seq.nTiles.toNat
    · exact .inr (.inl ⟨rfl, hlt, by simp [hlt]⟩)
    · by_cases heq : s.seq.tileCount.toNat = s.seq.nTiles.toNat
      · exact .inr (.inr (.inl ⟨rfl, heq, by simp [heq]⟩))
      · exact .inl ⟨by simp [hlt, heq], .inr (by omega)⟩
  | pad =>
    by_cases h0 : 0 < s.seq.padLeft.toNat
    · exact .inr (.inr (.inr (.inl ⟨rfl, h0, by simp [h0]⟩)))
    · exact .inr (.inr (.inr (.inr ⟨rfl, by omega, by simp [h0]⟩)))

/-- Whatever an instruction does, it answers a next state: nothing of the table stops. -/
theorem exec_next (i : Instr) (s : State) : ∃ t, exec i s = .next t := by
  cases i <;> exact ⟨_, rfl⟩

/-- Everything a step that answers a next state can be: the sequencer's turn with no host move left, or the first host
move. -/
theorem step_cases {s t : State} (h : step s = .next t) :
    (s.env.inputs = [] ∧ t = s.clearPort.sequence) ∨
    ∃ m rest, s.env.inputs = m :: rest ∧ (s.clearPort.setInputs rest).perform m = .next t := by
  unfold step at h
  cases hi : s.env.inputs with
  | nil => simp only [hi] at h; exact .inl ⟨rfl, (Host.Outcome.next.inj h).symm⟩
  | cons m rest => simp only [hi] at h; exact .inr ⟨m, rest, rfl, h⟩

end Sys2Proof.Machine
end

