-- ==== Sys2Proof/Laws/PerInstr.lean ====
section
/-! SUPPORT. A fact about every instruction as syntax, one lemma per constructor: the direction bit of the host
transaction that performs it (R61, R72). -/

namespace Sys2Proof.Laws.Direction

/-- Bit 38, `we`, of the transaction that performs an instruction is 0 for a read and 1 for everything else: a command
is given by a host write. -/
def Statement (i : Instr) : Prop :=
  (transaction i).getLsbD 38 = (match i with | .rd _ => false | _ => true)

theorem we_busWord (we : Bool) (reg : Reg) (v : Word) : (busWord we reg v).getLsbD 38 = we := by
  unfold busWord
  rw [BitVec.getLsbD_append]
  simp

theorem wr (reg : Reg) (value : Word) : Statement (.wr reg value) := we_busWord true reg value
theorem rd (reg : Reg) : Statement (.rd reg) := we_busWord false reg 0
theorem nop : Statement .nop := by unfold Statement; decide
theorem normalize : Statement .normalize := by unfold Statement; decide
theorem encodeTile : Statement .encodeTile := by unfold Statement; decide
theorem assemble : Statement .assemble := by unfold Statement; decide
theorem clear : Statement .clear := by unfold Statement; decide

end Sys2Proof.Laws.Direction
end

