-- ==== Sys2Proof/Tests/Slice0.lean ====
section
/-! SUPPORT. The model's own tests: the checks of well-formedness, decoding of words written out from the spec, one step
of each instruction with results taken from spec/95, and for each statement with hypotheses a named witness. -/

namespace Sys2Proof.Tests

open Sys2Proof.Machine

/-! ### Small states -/

/-- The state a step or an instruction answers, if it answers one. -/
def after (o : Host.Outcome State Fault Refusal) : Option State :=
  match o with
  | .next s => some s
  | .fault _ => none
  | .refused _ => none

/-- spec/95 section 2.4: a response of palette G with one index everywhere. -/
def solid (v : Index) : QRsp where
  palLen := 4
  transp := none
  pal := { e0 := 0x000000, e1 := 0x555555, e2 := 0xAAAAAA, e3 := 0xFFFFFF }
  rows := 8
  cols := 8
  idx := Eight.ofFn (fun _ => Eight.ofFn (fun _ => v))

/-- The quantizer of these states: the region at (0, 0) is A of spec/95, that at (8, 0) is B. -/
def listed : List (QReq × QRsp) :=
  [({ x0 := 0, y0 := 0 }, solid 1), ({ x0 := 8, y0 := 0 }, solid 2)]

/-- Reset with an image of `w` by `h`, a multiple and a limit. -/
def idle (w h mult : BitVec 16) (limit : Word) : State :=
  { State.reset with
    config := { State.reset.config with imgWidth := w, imgHeight := h, widthMultiple := mult, byteLimit := limit }
    env := { inputs := [], answers := listed } }

/-- The call of `idle` just started. -/
def scanning (w h mult : BitVec 16) (limit : Word) : State :=
  (idle w h mult limit).startCall

/-- A call on one tile, the tile A of spec/95 written, at its padding: the multiple, the padding left, the bytes
written, the limit. -/
def paddingTo (mult : BitVec 16) (left bytes limit : Word) : State :=
  { scanning 8 8 mult limit with
    seq := { (scanning 8 8 mult limit).seq with phase := .pad, tileCount := 1, padLeft := left }
    output := { out := Memory.writeList [] 0 (List.replicate 8 0xFF), byteCount := bytes, outAddr := 0 } }

/-- The same with a multiple of 2, before its one padding tile. -/
def padding (left : Word) (limit : Word) : State :=
  paddingTo 2 left 16 limit

/-- A finished call with the tile A of spec/95 in the buffer. -/
def finished : State :=
  { idle 8 8 1 0 with
    seq := { State.reset.seq with phase := .done, tileCount := 1, nTiles := 1, tilesX := 1, tilesY := 1 }
    output := { out := Memory.writeList [] 0 (List.replicate 8 0xFF), byteCount := 16, outAddr := 0 }
    status := { State.reset.status with outValid := true }
    latch := (idle 8 8 1 0).config.latched }

/-- A recorded PaletteOverflowError. -/
def failed : State :=
  State.raise .paletteOverflow 0 State.reset

/-- The host's coming moves put in place. -/
def withMoves (moves : List HostMove) (s : State) : State :=
  s.setInputs moves

/-- NORMALIZE's operands: PAL_CTRL's fields and four colours. -/
def palette (n : BitVec 3) (en : Bool) (ti : Index) (c0 c1 c2 c3 : Color) : State :=
  { State.reset with
    pn := { State.reset.pn with
      palCtrl := { palLen := n, transpEn := en, transpIdx := ti }
      pal := { e0 := c0, e1 := c1, e2 := c2, e3 := c3 } } }

/-! ### Well-formedness (R11: which indices are reserved) -/

theorem test_wellFormed_named : (Instr.rd .status).wellFormed = true := by decide
theorem test_wellFormed_reserved : (Instr.wr (.reserved 0x0D) 5).wellFormed = true := by decide
theorem test_illFormed_wr : (Instr.wr (.reserved 0x01) 0).wellFormed = false := by decide
theorem test_illFormed_rd : (Instr.rd (.reserved 0x37)).wellFormed = false := by decide
theorem test_reservedIndex_edges :
    [0x0C, 0x0D, 0x0F, 0x10, 0x15, 0x16, 0x17, 0x18, 0x19, 0x1F, 0x20, 0x37, 0x38, 0x3F].map reservedIndex =
      [false, true, true, false, false, true, true, false, true, true, false, false, true, true] := by decide

/-! ### Decoding: words of the spec (R61's layout, R62's map, the programs of spec/95 part 3) -/

/-- `wr CMD, 0x03` (R61); we = 1, addr = 000000, wdata = 3. -/
theorem test_decode_wr_cmd : decodeTableWord 40 0x4000000003 = some (.wr .cmd 3) := by decide
/-- `wr IMG_WIDTH, 20` (R153). -/
theorem test_decode_wr_imgWidth : decodeTableWord 40 0x4500000014 = some (.wr .imgWidth 20) := by decide
/-- `wr PAL1, 0xA81000` (spec/95 P1). -/
theorem test_decode_wr_pal : decodeTableWord 40 0x5200A81000 = some (.wr (.pal 1) 0xA81000) := by decide
/-- we = 1, addr = 111111, every data bit set: a reserved register, still a write. -/
theorem test_decode_wr_last : decodeTableWord 40 0x7FFFFFFFFF = some (.wr (.reserved 0x3F) 0xFFFFFFFF) := by decide
/-- `rd STATUS` (R61), `rd PERM` (spec/95 P1). -/
theorem test_decode_rd :
    decodeTableWord 40 0x0100000000 = some (.rd .status) ∧ decodeTableWord 40 0x1500000000 = some (.rd .perm) := by
  decide
/-- A read's wdata is ignored (R61). -/
theorem test_decode_rd_ignores_data : decodeTableWord 40 0x37FFFFFFFF = some (.rd (.plane1 7)) := by decide
/-- The command words of R62. -/
theorem test_decode_commands :
    [0, 1, 2, 3, 4].map (decodeTableWord 32) =
      [some .nop, some .normalize, some .encodeTile, some .assemble, some .clear] := by decide
/-- Reserved: 0x05 to 0xFF, and any bit of 31..8 (R63; spec/95 V84, V85). -/
theorem test_decode_reserved :
    decodeCmd8 5 = .error (.reservedCommand 5) ∧ decodeCmd8 0xFF = .error (.reservedCommand 0xFF) ∧
      decodeCmd8 0x103 = .error (.reservedCommand 0x103) := by decide
/-- Bit 39 is no bit of a BUS39 word (R61), and no format has 48 bits or 33 to 38 (R71). -/
theorem test_decode_lengths :
    decodeListing 40 0x8000000000 = .error (.tooWide 0x8000000000) ∧ decodeListing 48 0 = .error (.notALength 48) ∧
      decodeListing 33 0 = .error (.notALength 33) ∧ decodeListing 38 0 = .error (.notALength 38) ∧
      decodeListing 39 0 = .ok (.rd .cmd) := by decide
/-- The column bus39 of spec/opcode_table.json. -/
theorem test_transaction_commands :
    [Instr.nop, .normalize, .encodeTile, .assemble, .clear].map transaction =
      [0x4000000000, 0x4000000001, 0x4000000002, 0x4000000003, 0x4000000004] := by decide
/-- A row's word placed after reset runs as the first step: NORMALIZE then sets PERM_VALID (spec/95 V10). -/
theorem test_placed_normalize :
    (after (step (State.reset.withFetchWord 32 1))).map (fun t => t.readReg .status) = some 0x800 := by decide
/-- A placed transaction: `wr WIDTH_MULTIPLE, 0x00012345` (spec/95 V83). -/
theorem test_placed_wr :
    (after (step (State.reset.withFetchWord 40 0x4300012345))).map (fun t => t.readReg .widthMultiple) =
      some 0x2345 := by decide

/-! ### WR and RD (spec/95 V82, V83, V85, V91) -/

theorem test_wr_stores_defined_bits :
    (after (exec (.wr .palCtrl 0xFF) State.reset)).map (fun t => t.readReg .palCtrl) = some 0x77 ∧
      (after (exec (.wr .tileShape 0xFFFF) State.reset)).map (fun t => t.readReg .tileShape) = some 0x1F1F ∧
      (after (exec (.wr (.pal 0) 0x80FFFFFF) State.reset)).map (fun t => t.readReg (.pal 0)) = some 0xFFFFFF := by
  decide
theorem test_wr_cmd_raises_illegal :
    (after (exec (.wr .cmd 0x103) State.reset)).map (fun t => (t.readReg .status, t.readReg .errInfo)) =
      some (0x44, 0x103) := by decide
theorem test_rd_reset_values :
    [Reg.status, .tileSize, .tileShape, .widthMultiple, .cmd, .reserved 0x0D, .reserved 0x3F].map
      (fun r => (after (exec (.rd r) State.reset)).bind (fun t => t.port.rdata)) =
        [some 0, some 8, some 0x808, some 1, some 0, some 0, some 0] := by decide
theorem test_rd_outData :
    [0#32, 8#32, 16#32].map (fun a => State.readReg { finished with output := { finished.output with outAddr := a } }
      .outData) = [0xFF, 0, 0] := by decide

/-! ### The commands -/

/-- spec/95 V87. -/
theorem test_nop_keeps_error : (after (exec .nop failed)).map (fun t => t.readReg .status) = some 0x24 := by decide
/-- spec/95 V2: white, the brightest, is transparent and comes first. -/
theorem test_normalize_pins_transparent :
    (after (exec .normalize (palette 4 true 0 0xFFFFFF 0xFF0000 0x000000 0x00FF00))).map
      (fun t => (t.readReg .perm, t.readReg .status)) = some (0x4D8, 0x800) := by decide
/-- spec/95 V17: the palette's length is checked first. -/
theorem test_normalize_overflow :
    (after (exec .normalize (palette 7 true 3 0 0 0 0))).map
      (fun t => (t.readReg .status, t.readReg .errInfo, t.port.event.map Event.code)) = some (0x24, 0, some 4) := by
  decide
/-- spec/95 V23, row 2. -/
theorem test_encode_ring :
    (after (exec .encodeTile
      { State.reset with te := { State.reset.te with tileRow := { State.reset.te.tileRow with e2 := 0x6FF9 } } })).map
      (fun t => (t.readReg (.plane0 2), t.readReg (.plane1 2), t.readReg .status)) = some (0xBD, 0x7E, 0x1000) := by
  decide
/-- spec/95 V26: seven columns. -/
theorem test_encode_shape :
    (after (exec .encodeTile
      { State.reset with te := { State.reset.te with tileShape := { rows := 8, cols := 7 } } })).map
      (fun t => t.readReg .status) = some 0x14 := by decide
/-- spec/95 V60, R120's example: 20 by 8 gives two tiles and a margin warning. -/
theorem test_assemble_starts :
    (after (exec .assemble (idle 20 8 1 0))).map
      (fun t => (t.seq.tilesX, t.seq.tilesY, t.seq.nTiles, t.readReg .status, t.port.event.map Event.code)) =
        some (2, 1, 2, 0x101, some 1) := by decide
/-- spec/95 V29: the first tile step appends A and asks for (0, 0). -/
theorem test_tile_step :
    (after (step (scanning 16 8 1 0))).map
      (fun t => (t.output.bytes, t.readReg .tileCount, t.port.qreq)) =
        some (List.replicate 8 0xFF ++ List.replicate 8 0, 1, some { x0 := 0, y0 := 0 }) := by decide
/-- spec/95 V88: out of ERROR. -/
theorem test_clear_error :
    (after (exec .clear failed)).map (fun t => (t.readReg .status, t.readReg .errInfo)) = some (0, 0) := by decide
/-- spec/95 V77: the canonical row 3, 1, 0, 2, 3, 1, 0, 2 in two planes. -/
theorem test_remapped_tile :
    tileBytes .lowThenHigh
      { solid 0 with
        pal := { e0 := 0xFFFFFF, e1 := 0xFF0000, e2 := 0x000000, e3 := 0x00FF00 }
        idx := Eight.ofFn (fun _ => { e0 := 0, e1 := 1, e2 := 2, e3 := 3, e4 := 0, e5 := 1, e6 := 2, e7 := 3 }) } =
      List.replicate 8 0xCC ++ List.replicate 8 0x99 := by decide
/-- R72's `setpal` and `readout`, the words of spec/95 P1. -/
theorem test_notation :
    (setPal 4 (some 1) [0x0078F8, 0xA81000, 0xF8B800, 0x000000]).map transaction =
      [0x5000000034, 0x51000078F8, 0x5200A81000, 0x5300F8B800, 0x5400000000] ∧
    readOut 2 = [.wr .outAddr 0, .rd .outData, .wr .outAddr 1, .rd .outData] := by decide

/-! ### Witnesses: concrete states and operands that meet the hypotheses of the statements -/

theorem inv_reset : Inv State.reset := by
  constructor <;> first | decide | exact ⟨by decide, by decide, by decide, by decide⟩
theorem inv_scanning : Inv (scanning 16 8 1 0) := by
  constructor <;> first | decide | exact ⟨by decide, by decide, by decide, by decide⟩
theorem inv_scanning_limit : Inv (scanning 16 8 1 16) := by
  constructor <;> first | decide | exact ⟨by decide, by decide, by decide, by decide⟩
theorem inv_padding : Inv (padding 1 0) := by
  constructor <;> first | decide | exact ⟨by decide, by decide, by decide, by decide⟩

theorem witness_resetInput : (withMoves [.reset] (scanning 16 8 1 0)).env.inputs = .reset :: [] := by decide
theorem witness_decodeUndoesEncode :
    ∀ i ∈ [Instr.wr (.reserved 0x3F) 0xFFFFFFFF, .rd .outData, .nop, .normalize, .encodeTile, .assemble, .clear],
      i.wellFormed = true := by decide
theorem witness_encodeUndoesDecode :
    (0x7FFFFFFFFF#39).getLsbD 38 = true ∧ (0x3FFFFFFFFF#39).getLsbD 38 = false := by decide
theorem witness_stepRuns :
    (withMoves [.send (.cmd8 3)] State.reset).env.inputs = .send (.cmd8 3) :: [] ∧ decode (.cmd8 3) = .ok .assemble ∧
      Instr.assemble.wellFormed = true := by decide
theorem witness_stepRuns_reserved :
    (withMoves [.send (.cmd8 5)] State.reset).env.inputs = .send (.cmd8 5) :: [] ∧
      decode (.cmd8 5) = .error (.reservedCommand 5) := by decide
theorem witness_placedWord : decodeTableWord 40 0x0100000000 = some (.rd .status) := by decide
theorem witness_sequencer :
    (scanning 16 8 1 0).env.inputs = [] ∧ (withMoves [.yield] (scanning 16 8 1 0)).env.inputs = .yield :: [] ∧
      finished.busy = false := by decide
theorem witness_writeStores :
    State.reset.busy = false ∧ (∀ r ∈ [Reg.outAddr, .palCtrl, .tileRow 7, .perm, .reserved 0x3F], r ≠ .cmd) ∧
      writable .outAddr = true ∧ writable .perm = false := by decide
theorem witness_writesWhileBusy : (scanning 16 8 1 0).busy = true ∧ (padding 1 0).busy = true := by decide
theorem witness_illegalCommand :
    4 < (5#32).toNat ∧ 4 < (0xFFFFFFFF#32).toNat ∧ State.reset.seq.phase = .idle ∧ finished.seq.phase = .done ∧
      (scanning 16 8 1 0).seq.phase = .scan ∧ (padding 1 0).seq.phase = .pad ∧ failed.seq.phase = .error := by decide
theorem witness_outputWindow :
    (after (step (withMoves [.send (.bus39 0x4B00000004)] State.reset))).map (fun t => t.output.outAddr) = some 4 ∧
      State.reset.output.outAddr ≠ 4 := by decide
theorem witness_clear :
    finished.busy = false ∧ failed.busy = false ∧ (scanning 16 8 1 0).busy = true ∧ failed.seq.phase = .error ∧
      (after (step (withMoves [.send (.bus39 0x4000000004)] failed))).map (fun t => t.seq.phase) = some .idle := by decide
theorem witness_clear_idle : Inv State.reset ∧ State.reset.seq.phase = .idle := ⟨inv_reset, by decide⟩
theorem witness_normalOrder :
    (0 ≤ 4 ∧ ∀ ti : Index, (none : Option Index) = some ti → ti.toNat < 0) ∧
      (4 ≤ 4 ∧ ∀ ti : Index, some 3#2 = some ti → ti.toNat < 4) ∧ 4 < 5 ∧ (2 ≤ 4 ∧ 2 ≤ (2#2).toNat) := by decide
theorem witness_normalizeOrders :
    normalizePalette 4 { e0 := 0xFFFFFF, e1 := 0xFF0000, e2 := 0x000000, e3 := 0x00FF00 } none = .ok [2, 1, 3, 0] ∧
      normalizePalette 2 { e0 := 0xFFFFFF, e1 := 0xFF0000, e2 := 0, e3 := 0 } (some 0) = .ok [0, 1] ∧
      luma 0xFF0000 < luma 0xFFFFFF := by decide
theorem witness_cmap :
    normalizePalette 4 { e0 := 0xFFFFFF, e1 := 0xFF0000, e2 := 0x000000, e3 := 0x00FF00 } none = .ok [2, 1, 3, 0] ∧
      (3#2).toNat < [2#2, 1, 3, 0].length := by decide
theorem witness_normalizeWrites :
    (palette 4 true 3 1 2 3 4).seq.phase = .idle ∧ (palette 4 true 3 1 2 3 4).pn.palCtrl.palLen.toNat ≤ 4 ∧
      (palette 4 true 3 1 2 3 4).pn.palCtrl.transpIdx.toNat < (palette 4 true 3 1 2 3 4).pn.palCtrl.palLen.toNat := by
  decide
theorem witness_normalizeRaises :
    (palette 5 false 0 0 0 0 0).seq.phase = .idle ∧ 4 < (palette 5 false 0 0 0 0 0).pn.palCtrl.palLen.toNat ∧
      (palette 2 true 2 0 0 0 0).seq.phase = .idle ∧ (palette 2 true 2 0 0 0 0).pn.palCtrl.palLen.toNat ≤ 4 ∧
      (palette 2 true 2 0 0 0 0).pn.palCtrl.transpEn = true ∧
      (palette 2 true 2 0 0 0 0).pn.palCtrl.palLen.toNat ≤ (palette 2 true 2 0 0 0 0).pn.palCtrl.transpIdx.toNat := by
  decide
theorem witness_encodeTile :
    finished.seq.phase = .done ∧ finished.te.tileShape.rows.toNat = 8 ∧ finished.te.tileShape.cols.toNat = 8 := by
  decide
theorem witness_encodeTileRaises :
    State.reset.seq.phase = .idle ∧ ¬ ((8#5).toNat = 8 ∧ (7#5).toNat = 8) ∧ ¬ ((9#5).toNat = 8 ∧ (8#5).toNat = 8) := by
  decide
theorem witness_errorDrops : failed.seq.phase = .error := by decide
theorem witness_assembleStarts : (idle 20 8 0 16).seq.phase = .idle ∧ finished.seq.phase = .done := by decide
theorem witness_scanOrders :
    (8191 ≤ 8191 ∧ 67092480 < 8191 * 8191) ∧ ((1 : Nat) = 1 ∨ (5 : Nat) = 1) ∧ (2 ≤ 2 ∧ 2 ≤ 2) := by decide

/-- A call on one region whose response is `q`. -/
def answered (q : QRsp) : State :=
  { scanning 8 8 1 0 with env := { inputs := [], answers := [({ x0 := 0, y0 := 0 }, q)] } }

theorem witness_badResponse :
    (answered (solid 0)).seq.phase = .scan ∧ (answered (solid 0)).seq.tileCount.toNat < (answered (solid 0)).seq.nTiles.toNat ∧
      (∀ q ∈ [{ solid 0 with palLen := 5 }, { solid 0 with rows := 7 }, { solid 0 with palLen := 2, transp := some 2 },
          { solid 2 with palLen := 2 }, { solid 0 with palLen := 0 }], (answered q).env.answer (answered q).request = q) ∧
      4 < ({ solid 0 with palLen := 5 } : QRsp).palLen.toNat ∧ ¬ (7#5).toNat = 8 ∧
      ({ solid 0 with palLen := 2 } : QRsp).palLen.toNat ≤ (2#2).toNat ∧
      ({ solid 2 with palLen := 2 } : QRsp).palLen.toNat ≤ (((solid 2).idx.get 0).get 0).toNat := by decide
theorem witness_goodResponse :
    Inv (scanning 16 8 1 16) ∧ (scanning 16 8 1 16).seq.phase = .scan ∧
      (scanning 16 8 1 16).seq.tileCount.toNat < (scanning 16 8 1 16).seq.nTiles.toNat ∧
      MeetsContract ((scanning 16 8 1 16).env.answer (scanning 16 8 1 16).request) ∧
      (scanning 16 8 1 16).output.byteCount.toNat + 16 ≤ (scanning 16 8 1 16).latch.limit.toNat := by
  refine ⟨inv_scanning_limit, by decide, by decide, ⟨by decide, by decide, by decide, by decide⟩, by decide⟩
theorem witness_appendTile :
    paddingTile.length = 16 ∧ Memory.wf (scanning 16 8 1 15).output.out ∧
      (scanning 16 8 1 15).output.byteCount.toNat + 16 < 2 ^ 32 ∧ 0 < (scanning 16 8 1 15).latch.limit.toNat ∧
      (scanning 16 8 1 15).latch.limit.toNat < (scanning 16 8 1 15).output.byteCount.toNat + 16 ∧
      (scanning 16 8 1 16).output.byteCount.toNat + 16 ≤ (scanning 16 8 1 16).latch.limit.toNat ∧
      (scanning 16 8 1 0).latch.limit.toNat = 0 := by decide
/-- The sum of R129 is exact where 32 bits would wrap: BYTE_COUNT 2 ^ 32 - 8 under the greatest limit is refused. -/
theorem witness_appendTile_exact :
    let s : State := { scanning 16 8 1 0xFFFFFFFF with
      output := { (scanning 16 8 1 0).output with byteCount := 0xFFFFFFF8 } }
    0 < s.latch.limit.toNat ∧ s.latch.limit.toNat < s.output.byteCount.toNat + 16 ∧
      ¬ (s.latch.limit.toNat < (s.output.byteCount + 16).toNat) := by decide
theorem witness_hardLimit :
    AppendDue (scanning 16 8 1 15) ∧ AppendDue (padding 1 31) ∧ 0 < (scanning 16 8 1 15).latch.limit.toNat ∧
      (scanning 16 8 1 15).latch.limit.toNat < (scanning 16 8 1 15).output.byteCount.toNat + 16 ∧
      0 < (padding 1 31).latch.limit.toNat ∧
      (padding 1 31).latch.limit.toNat < (padding 1 31).output.byteCount.toNat + 16 :=
  ⟨.inl (by decide), .inr (by decide), by decide, by decide, by decide, by decide⟩

/-- The 257th unit is due, 299 padding tiles wanted and 255 of them written: 4096 bytes, with no limit. -/
def atBank : State :=
  paddingTo 300 44 4096 0

theorem inv_atBank : Inv atBank.clearPort := by
  constructor <;> first | decide | exact ⟨by decide, by decide, by decide, by decide⟩

theorem witness_softLimit :
    atBank.clearPort.port.event = none ∧ AppendDue atBank.clearPort ∧ atBank.clearPort.latch.limit.toNat = 0 ∧
      atBank.clearPort.status.warnSoft = false ∧ 4096 < atBank.clearPort.output.byteCount.toNat + 16 ∧
      atBank.clearPort.sequence.port.event = some .softLimit ∧ Inv atBank.clearPort :=
  ⟨by decide, .inr (by decide), by decide, by decide, by decide, by decide, inv_atBank⟩
theorem witness_endOfScan :
    (scanning 7 7 3 0).seq.phase = .scan ∧ (scanning 7 7 3 0).seq.tileCount.toNat = (scanning 7 7 3 0).seq.nTiles.toNat ∧
      1 < (scanning 7 7 3 0).latch.mult.toNat ∧ (scanning 7 7 0 0).latch.mult.toNat ≤ 1 ∧
      ({ scanning 7 7 1 0 with latch := { (scanning 7 7 1 0).latch with legacy := true } } : State).latch.legacy = true ∧
      (scanning 7 7 1 0).output.byteCount.toNat < 4096 ∧ (scanning 7 7 1 0).output.byteCount.toNat % 16 = 0 ∧
      ¬ ((scanning 7 7 1 1).latch.limit.toNat = 0) := by decide
theorem witness_padStep :
    Inv (padding 1 0) ∧ (padding 1 0).seq.phase = .pad ∧ 0 < (padding 1 0).seq.padLeft.toNat ∧
      (padding 1 0).latch.limit.toNat = 0 :=
  ⟨inv_padding, by decide, by decide, by decide⟩
theorem witness_finishedCall :
    (padding 0 0).seq.phase = .pad ∧ (padding 0 0).seq.padLeft.toNat = 0 ∧ finished.seq.phase = .done ∧
      after (step finished) = some finished.clearPort := by decide
theorem witness_finishedCall_moves : ¬ NextStarts finished ∧ ¬ NextClears finished ∧ ¬ NextResets finished := by
  refine ⟨?_, ?_, ?_⟩
  · rintro (⟨e, rest, h, _⟩ | ⟨e, rest, h, _⟩) <;> cases h
  · rintro (⟨e, rest, h, _⟩ | ⟨e, rest, h, _⟩) <;> cases h
  · rintro ⟨rest, h⟩; cases h
theorem witness_callComputes :
    (idle 16 8 1 0).seq.phase = .idle ∧ (idle 16 8 1 0).status.errCode = none ∧ (idle 16 8 1 0).env.inputs = [] ∧
      (idle 16 8 0 0).config.latched.mult.toNat ≤ 1 := by decide
theorem witness_callsAreIndependent :
    (idle 8 8 1 0).seq.phase = .idle ∧ finished.seq.phase = .done ∧ (idle 8 8 1 0).env.inputs = [] ∧
      finished.env.inputs = [] ∧ (∀ r, (idle 8 8 1 0).env.answer r = finished.env.answer r) ∧
      (idle 8 8 1 0).config.latched = finished.config.latched :=
  ⟨by decide, by decide, by decide, by decide, fun _ => rfl, by decide⟩

/-- A call on an 8 by 8 image that ends in DONE: whether it was truncated, how many bytes it gave, how many tiles. -/
def smallCall (limit mult : Nat) : Option (Bool × Nat × Nat) :=
  match assembleCall (fun _ => solid 1)
      { scanOrder := .rowMajor, planeOrder := .lowThenHigh, legacy := false, mult := BitVec.ofNat 16 mult
        limit := BitVec.ofNat 32 limit, w := 8, h := 8 } with
  | .done r => some (r.trunc, r.out.length, r.tiles)
  | .error _ _ => none

/-- Truncated at limit 15, the exact fit at 16, the padding tile refused at 31 and fitting at 32. -/
theorem witness_truncation :
    smallCall 15 1 = some (true, 0, 0) ∧ smallCall 16 1 = some (false, 16, 1) ∧ smallCall 31 2 = some (true, 16, 1) ∧
      smallCall 32 2 = some (false, 32, 1) := by decide
/-- Done without truncation: padded to the multiple, and exactly the tiles with the multiple unset. -/
theorem witness_callDone : smallCall 0 3 = some (false, 48, 1) ∧ smallCall 0 0 = some (false, 16, 1) := by decide

/-- The latch of an empty walk with the legacy bit, at which the padding clause for it applies. -/
theorem witness_legacy :
    (match assembleCall (fun _ => solid 1)
        { scanOrder := .rowMajor, planeOrder := .lowThenHigh, legacy := true, mult := 1, limit := 0, w := 7, h := 7 } with
      | .done r => r.trunc == false && r.out.length == 4096
      | .error _ _ => false) = true := by decide +kernel
theorem witness_stepKeeps :
    Inv (scanning 16 8 1 0) ∧ (after (step (scanning 16 8 1 0))).isSome = true :=
  ⟨inv_scanning, by decide⟩
theorem witness_errorIsSticky :
    failed.seq.phase = .error ∧ (after (step failed)).isSome = true ∧
      (after (step (withMoves [.send (.cmd8 4)] failed))).map (fun t => t.seq.phase) = some .idle ∧
      (after (step (withMoves [.reset] failed))).map (fun t => t.seq.phase) = some .idle := by decide
/-- Each event in a step: margin, soft limit, truncation, fatal. -/
theorem witness_events :
    (after (step (withMoves [.send (.cmd8 3)] (idle 20 8 1 0)))).map (fun t => t.port.event) = some (some .margin) ∧
      (after (step atBank)).map (fun t => t.port.event) = some (some .softLimit) ∧
      (after (step (padding 1 31))).map (fun t => t.port.event) = some (some .truncation) ∧
      (after (step (withMoves [.send (.cmd8 5)] State.reset))).map (fun t => t.port.event) = some (some .fatal) := by
  decide
theorem witness_writtenBytes :
    Inv (padding 1 0) ∧ (padding 1 0).busy = true ∧ (after (step (padding 1 0))).isSome = true ∧
      ¬ NextResets (padding 1 0) :=
  ⟨inv_padding, by decide, by decide, by rintro ⟨rest, h⟩; cases h⟩
theorem witness_onlyAssemble :
    (withMoves [.send (.cmd8 3)] (idle 16 8 1 0)).busy = false ∧
      (after (step (withMoves [.send (.cmd8 3)] (idle 16 8 1 0)))).map State.busy = some true := by decide
theorem witness_hostCannotDisturb :
    (withMoves [.send (.bus39 0x4500000063)] (scanning 16 8 1 0)).busy = true ∧
      received (.bus39 0x4500000063) = .wr .imgWidth 99 ∧ received (.bus39 0x0100000000) = .rd .status := by decide
theorem witness_requests :
    Inv (scanning 16 8 1 0) ∧
      (after (step (scanning 16 8 1 0))).map (fun t => t.port.qreq) = some (some { x0 := 0, y0 := 0 }) :=
  ⟨inv_scanning, by decide⟩
theorem witness_tilesUntilPadding :
    Inv (scanning 16 8 1 0) ∧ (after (step (scanning 16 8 1 0))).isSome = true ∧
      (scanning 16 8 1 0).output.byteCount.toNat = 16 * (scanning 16 8 1 0).seq.tileCount.toNat ∧
      Inv (padding 1 0) ∧ (padding 1 0).output.byteCount.toNat = 16 * (padding 1 0).seq.tileCount.toNat ∧
      (after (step (padding 1 0))).map (fun t => t.seq.padLeft) = some 0 ∧
      (after (step State.reset)).map (fun t => t.output.byteCount) = some 0 :=
  ⟨inv_scanning, by decide, by decide, inv_padding, by decide, by decide, by decide⟩
/-- The machine's answer to a number of steps after ASSEMBLE. -/
def called (n : Nat) (s : State) : Option State :=
  (after (exec .assemble s)).bind fun t => after (Host.Core.run core n t)

/-- The call on an 8 by 8 image with the other plane order. -/
def otherOrder : State :=
  { idle 8 8 2 0 with config := { (idle 8 8 2 0).config with cfg := 2 } }

theorem witness_doneCall :
    (idle 8 8 2 0).seq.phase = .idle ∧ (idle 8 8 2 0).env.inputs = [] ∧
      (called 4 (idle 8 8 2 0)).map (fun u => (u.seq.phase, u.status.trunc)) = some (.done, false) ∧
      1 < (idle 8 8 2 0).config.latched.mult.toNat ∧
      (called 3 (idle 8 8 1 0)).map (fun u => (u.seq.phase, u.status.trunc)) = some (.done, false) ∧
      (called 1 (idle 8 8 1 15)).map (fun u => (u.seq.phase, u.status.trunc)) = some (.done, true) ∧
      (called 3 (idle 8 8 1 16)).map (fun u => (u.seq.phase, u.status.trunc)) = some (.done, false) := by decide
theorem witness_doneCall_orders :
    (idle 8 8 2 0).seq.phase = .idle ∧ otherOrder.seq.phase = .idle ∧ (idle 8 8 2 0).env.inputs = [] ∧
      otherOrder.env.inputs = [] ∧ (∀ r, (idle 8 8 2 0).env.answer r = otherOrder.env.answer r) ∧
      (idle 8 8 2 0).config.latched.planeOrder = .lowThenHigh ∧
      otherOrder.config.latched = { (idle 8 8 2 0).config.latched with planeOrder := .highThenLow } ∧
      (called 4 (idle 8 8 2 0)).map (fun u => u.output.bytes.take 8) = some (List.replicate 8 0xFF) ∧
      (called 4 otherOrder).map (fun u => u.output.bytes.take 16) =
        some (List.replicate 8 0 ++ List.replicate 8 0xFF) :=
  ⟨by decide, by decide, by decide, by decide, fun _ => rfl, by decide, by decide, by decide, by decide⟩
theorem witness_image :
    (withMoves [.image listed] State.reset).env.inputs = .image listed :: [] ∧
      (withMoves [.image listed] State.reset).busy = false ∧
      (withMoves [.image listed] (scanning 16 8 1 0)).busy = true := by decide
theorem witness_notation :
    State.reset.busy = false ∧ [0x000000#24, 0x555555, 0xAAAAAA, 0xFFFFFF].length ≤ 4 ∧ (1 < 2 ∧ 2 ≤ 2 ^ 32) := by decide

end Sys2Proof.Tests
end

/-! ## What a step can do

One inversion rule for an instruction and one for a step: everything either can answer, with its guard, in terms of the
named operations of the model. -/

namespace Sys2Proof.Machine

/-- What an instruction can do to the state `s`, by the instruction (R150 to R156): a dropped one does `nothing`. -/
inductive ExecEffect (s : State) : Instr → State → Prop
  | nothing (i : Instr) : ExecEffect s i s
  | read (r : Reg) : ExecEffect s (.rd r) { s with port.rdata := some (s.readReg r) }
  | write (r : Reg) (v : Word) (idle : s.busy = false) (reg : r ≠ .cmd) : ExecEffect s (.wr r v) (s.writeReg r v)
  | clear {i : Instr} (instr : i = .clear ∨ i = .wr .cmd 4) (idle : s.busy = false) : ExecEffect s i s.clearCall
  | normalize {i : Instr} (instr : i = .normalize ∨ i = .wr .cmd 1) (accepted : s.acceptsCommand = true) :
      ExecEffect s i s.performNormalize
  | encodeTile {i : Instr} (instr : i = .encodeTile ∨ i = .wr .cmd 2) (accepted : s.acceptsCommand = true) :
      ExecEffect s i s.performEncodeTile
  | start {i : Instr} (instr : i = .assemble ∨ i = .wr .cmd 3) (accepted : s.acceptsCommand = true) :
      ExecEffect s i s.startCall
  | illegal (v : Word) (reserved : 4 < v.toNat) (accepted : s.acceptsCommand = true) :
      ExecEffect s (.wr .cmd v) (s.raise .illegalCommand v)

/-- A value written to CMD does what its dispatch says (R150). -/
theorem dispatch_effect (v : Word) (s : State) : ExecEffect s (.wr .cmd v) (s.dispatch v) := by
  rcases s.dispatch_cases v with ⟨h, -⟩ | ⟨h, hb, rfl⟩ | ⟨ha, ⟨rfl, h⟩ | ⟨rfl, h⟩ | ⟨rfl, h⟩ | ⟨hv, h⟩⟩ <;> rw [h]
  · exact .nothing _
  · exact .clear (.inr rfl) hb
  · exact .normalize (.inr rfl) ha
  · exact .encodeTile (.inr rfl) ha
  · exact .start (.inr rfl) ha
  · exact .illegal v hv ha

/-- `WR` does nothing while BUSY, dispatches a write to CMD and stores any other (R152, R153). -/
theorem execWr_effect {r : Reg} {v : Word} {s t : State} (h : execWr r v s = .next t) : ExecEffect s (.wr r v) t := by
  cases Host.Outcome.next.inj h
  by_cases hb : s.busy = true
  · rw [if_pos hb]; exact .nothing _
  rw [if_neg hb]
  by_cases hr : r = .cmd
  · subst hr
    rw [if_pos rfl]; exact dispatch_effect v s
  · rw [if_neg hr]; exact .write r v (by simpa using hb) hr

/-- An effect that a guard may drop is nothing or the effect under its guard. -/
theorem ExecEffect.ite {c : Bool} {s t : State} {i : Instr} (h : c = true → ExecEffect s i t) :
    ExecEffect s i (if c then t else s) := by
  cases c with
  | false => exact .nothing i
  | true => exact h rfl

/-- Everything an instruction can do. -/
theorem exec_effect {i : Instr} {s t : State} (h : exec i s = .next t) : ExecEffect s i t := by
  cases i with
  | wr r v => exact execWr_effect h
  | rd r => cases Host.Outcome.next.inj h; exact .read r
  | nop => cases Host.Outcome.next.inj h; exact .nothing _
  | normalize => cases Host.Outcome.next.inj h; exact .ite (.normalize (.inl rfl))
  | encodeTile => cases Host.Outcome.next.inj h; exact .ite (.encodeTile (.inl rfl))
  | assemble => cases Host.Outcome.next.inj h; exact .ite (.start (.inl rfl))
  | clear =>
    cases Host.Outcome.next.inj h
    exact .ite fun ha => .clear (.inl rfl) (by simpa [State.acceptsClear_eq_not_busy] using ha)

/-- The state on which a step's action works: the outputs withdrawn and the host's next move taken from its list. -/
def State.taken (s : State) : State :=
  s.clearPort.setInputs s.env.inputs.tail

@[simp] theorem State.taken_config (s : State) : s.taken.config = s.config := rfl
@[simp] theorem State.taken_pn (s : State) : s.taken.pn = s.pn := rfl
@[simp] theorem State.taken_te (s : State) : s.taken.te = s.te := rfl
@[simp] theorem State.taken_status (s : State) : s.taken.status = s.status := rfl
@[simp] theorem State.taken_seq (s : State) : s.taken.seq = s.seq := rfl
@[simp] theorem State.taken_output (s : State) : s.taken.output = s.output := rfl
@[simp] theorem State.taken_latch (s : State) : s.taken.latch = s.latch := rfl
@[simp] theorem State.taken_env (s : State) : s.taken.env = { s.env with inputs := s.env.inputs.tail } := rfl
@[simp] theorem State.taken_port (s : State) : s.taken.port = { rdata := none, event := none, qreq := none } := rfl
@[simp] theorem State.taken_busy (s : State) : s.taken.busy = s.busy := rfl
@[simp] theorem State.taken_acceptsCommand (s : State) : s.taken.acceptsCommand = s.acceptsCommand := rfl

/-- A new image is placed only between calls (R197). -/
theorem placeImage_next {answers : List (QReq × QRsp)} {s t : State} (h : s.placeImage answers = .next t) :
    s.busy = false ∧ t = { s with env.answers := answers } := by
  unfold State.placeImage at h
  cases hb : s.busy <;> rw [hb] at h
  · exact ⟨rfl, (Host.Outcome.next.inj h).symm⟩
  · cases h

/-- What a step can do (R51): the sequencer's turn, a transmitted instruction, the reset input, a new image. -/
inductive StepEffect (s : State) : State → Prop
  | turn (moves : s.env.inputs = [] ∨ ∃ rest, s.env.inputs = .yield :: rest) : StepEffect s s.taken.sequence
  | instr (i : Instr) (t : State) (moves : NextIs s i) (effect : ExecEffect s.taken i t) : StepEffect s t
  | reset (moves : NextResets s) : StepEffect s s.taken.applyReset
  | image (answers : List (QReq × QRsp)) (moves : ∃ rest, s.env.inputs = .image answers :: rest)
      (idle : s.busy = false) : StepEffect s { s.taken with env.answers := answers }

/-- Everything a step that answers a next state can do. -/
theorem step_effect {s t : State} (h : step s = .next t) : StepEffect s t := by
  rcases step_cases h with ⟨hm, rfl⟩ | ⟨m, rest, hm, h⟩
  · have hu : s.taken = s.clearPort := by
      simp only [State.taken, hm, List.tail_nil]
      exact congrArg (fun l => s.clearPort.setInputs l) hm.symm
    rw [← hu]
    exact .turn (.inl hm)
  · have hu : s.clearPort.setInputs rest = s.taken := by rw [State.taken, hm, List.tail_cons]
    rw [hu] at h
    cases m with
    | send e => exact .instr (received e) t ⟨e, rest, hm, rfl⟩ (exec_effect h)
    | yield => cases Host.Outcome.next.inj h; exact .turn (.inr ⟨rest, hm⟩)
    | reset => cases Host.Outcome.next.inj h; exact .reset ⟨rest, hm⟩
    | image answers =>
      obtain ⟨hb, rfl⟩ := placeImage_next h
      exact .image answers ⟨rest, hm⟩ hb

end Sys2Proof.Machine

/-! ## AppendTile

What the two answers of AppendTile say of the state they carry (R129). -/

namespace Sys2Proof.Machine

/-- The refusal of AppendTile: the hard limit leaves no room, and only TRUNC and the event change (R131). -/
theorem State.appendTile_truncated {b : List Byte} {s t : State} (h : s.appendTile b = .truncated t) :
    0 < s.latch.limit.toNat ∧ s.latch.limit.toNat < s.output.byteCount.toNat + 16 ∧
      t = State.emit .truncation { s with status.trunc := true } := by
  rcases s.appendTile_cases b with ⟨hl, hx, he⟩ | ⟨-, -, he⟩ | ⟨-, -, -, he⟩ | ⟨-, -, he⟩ <;> rw [he] at h
  · exact ⟨hl, hx, (AppendResult.truncated.inj h).symm⟩
  · cases h
  · cases h
  · cases h

/-- The state AppendTile appends to: the one it was given, or, with no hard limit, that with the soft-limit warning
given (R130). -/
def SoftWarned (s u : State) : Prop :=
  u = s ∨ (s.latch.limit.toNat = 0 ∧ u = State.emit .softLimit { s with status.warnSoft := true })

/-- The success of AppendTile: the bytes are appended, the soft-limit warning given before them or not, and a hard limit
has room for them (R129, R130). -/
theorem State.appendTile_ok {b : List Byte} {s t : State} (h : s.appendTile b = .ok t) :
    (0 < s.latch.limit.toNat → s.output.byteCount.toNat + 16 ≤ s.latch.limit.toNat) ∧
      ∃ u, SoftWarned s u ∧ t = u.outAppend b := by
  rcases s.appendTile_cases b with ⟨-, -, he⟩ | ⟨-, hx, he⟩ | ⟨hl, -, -, he⟩ | ⟨hl, -, he⟩ <;> rw [he] at h
  · cases h
  · exact ⟨fun _ => hx, s, .inl rfl, (AppendResult.ok.inj h).symm⟩
  · exact ⟨fun hp => absurd hl hp.ne', _, .inr ⟨hl, rfl⟩, (AppendResult.ok.inj h).symm⟩
  · exact ⟨fun hp => absurd hl hp.ne', s, .inl rfl, (AppendResult.ok.inj h).symm⟩

/-- The soft-limit warning leaves the sequencing state, the output, the latch and the environment. -/
theorem SoftWarned.frame {s u : State} (h : SoftWarned s u) :
    u.seq = s.seq ∧ u.output = s.output ∧ u.latch = s.latch ∧ u.env = s.env := by
  obtain rfl | ⟨-, rfl⟩ := h
  · exact ⟨rfl, rfl, rfl, rfl⟩
  · exact ⟨rfl, rfl, rfl, rfl⟩

/-- The tile step's tile appended and counted, as `takeResponse` leaves the state (R127). -/
def State.countTile (b : List Byte) (s : State) : State :=
  { s.outAppend b with seq.tileCount := s.seq.tileCount + 1 }

/-- The pad step's tile appended and taken off the padding to come, as `padStep` leaves the state (R134). -/
def State.countPad (b : List Byte) (s : State) : State :=
  { s.outAppend b with seq.padLeft := s.seq.padLeft - 1 }

@[simp] theorem State.countTile_seq (b : List Byte) (s : State) :
    (s.countTile b).seq = { s.seq with tileCount := s.seq.tileCount + 1 } := rfl
@[simp] theorem State.countTile_output (b : List Byte) (s : State) :
    (s.countTile b).output = (s.outAppend b).output := rfl
@[simp] theorem State.countTile_latch (b : List Byte) (s : State) : (s.countTile b).latch = s.latch := rfl
@[simp] theorem State.countTile_env (b : List Byte) (s : State) : (s.countTile b).env = s.env := rfl
@[simp] theorem State.countTile_status (b : List Byte) (s : State) : (s.countTile b).status = s.status := rfl
@[simp] theorem State.countTile_port (b : List Byte) (s : State) : (s.countTile b).port = s.port := rfl

@[simp] theorem State.countPad_seq (b : List Byte) (s : State) :
    (s.countPad b).seq = { s.seq with padLeft := s.seq.padLeft - 1 } := rfl
@[simp] theorem State.countPad_output (b : List Byte) (s : State) :
    (s.countPad b).output = (s.outAppend b).output := rfl
@[simp] theorem State.countPad_latch (b : List Byte) (s : State) : (s.countPad b).latch = s.latch := rfl
@[simp] theorem State.countPad_env (b : List Byte) (s : State) : (s.countPad b).env = s.env := rfl
@[simp] theorem State.countPad_status (b : List Byte) (s : State) : (s.countPad b).status = s.status := rfl
@[simp] theorem State.countPad_port (b : List Byte) (s : State) : (s.countPad b).port = s.port := rfl

/-- The state of a tile step with its request put out (R100). -/
def State.requested (s : State) : State :=
  { s with port.qreq := some s.request }

/-- Everything a tile step can do (R125 to R131): raise what the answer breaks, end the scan at the hard limit, or
append and count the answer's tile. -/
theorem State.tileStep_effect (s : State) :
    (∃ e, responseError (s.env.answer s.request) = some e ∧ s.tileStep = s.requested.raise e s.seq.tileCount) ∨
    (responseError (s.env.answer s.request) = none ∧ 0 < s.latch.limit.toNat ∧
      s.latch.limit.toNat < s.output.byteCount.toNat + 16 ∧
      s.tileStep = (State.emit .truncation { s.requested with status.trunc := true }).endCall) ∨
    (responseError (s.env.answer s.request) = none ∧
      (0 < s.latch.limit.toNat → s.output.byteCount.toNat + 16 ≤ s.latch.limit.toNat) ∧
      ∃ u, SoftWarned s.requested u ∧
        s.tileStep = u.countTile (tileBytes s.latch.planeOrder (s.env.answer s.request))) := by
  rcases State.takeResponse_cases (s.env.answer s.request) s.requested with ⟨e, hr, h⟩ | ⟨hr, t, ht, h⟩ | ⟨hr, t, ht, h⟩
  · exact .inl ⟨e, hr, h⟩
  · obtain ⟨hl, hx, rfl⟩ := State.appendTile_truncated ht
    exact .inr (.inl ⟨hr, hl, hx, h⟩)
  · obtain ⟨hroom, u, hu, rfl⟩ := State.appendTile_ok ht
    exact .inr (.inr ⟨hr, hroom, u, hu, h⟩)

/-- Everything a pad step can do (R134): end the call at the hard limit, or append a padding tile. -/
theorem State.padStep_effect (s : State) :
    (0 < s.latch.limit.toNat ∧ s.latch.limit.toNat < s.output.byteCount.toNat + 16 ∧
      s.padStep = (State.emit .truncation { s with status.trunc := true }).endCall) ∨
    ((0 < s.latch.limit.toNat → s.output.byteCount.toNat + 16 ≤ s.latch.limit.toNat) ∧
      ∃ u, SoftWarned s u ∧ s.padStep = u.countPad paddingTile) := by
  rcases s.padStep_cases with ⟨t, ht, h⟩ | ⟨t, ht, h⟩
  · obtain ⟨hl, hx, rfl⟩ := State.appendTile_truncated ht
    exact .inl ⟨hl, hx, h⟩
  · obtain ⟨hroom, u, hu, rfl⟩ := State.appendTile_ok ht
    exact .inr ⟨hroom, u, hu, h⟩

end Sys2Proof.Machine

/-! ## The invariants of R35 under the named operations -/

namespace Sys2Proof

open Sys2Proof.Machine

/-- Two states agree on what a call reads and writes of its own: all that the invariants speak of. The host's registers,
the order bits of NORMALIZE and ENCODE_TILE, OUT_ADDR, the environment and the port are free. -/
structure SameCall (s t : State) : Prop where
  seq : t.seq = s.seq
  latch : t.latch = s.latch
  out : t.output.out = s.output.out
  byteCount : t.output.byteCount = s.output.byteCount
  status : ∃ p q, t.status = { s.status with permValid := p, planeValid := q }

theorem SameCall.taken (s : State) : SameCall s s.taken := ⟨rfl, rfl, rfl, rfl, _, _, rfl⟩

theorem SameCall.writeReg (s : State) (r : Reg) (v : Word) : SameCall s (s.writeReg r v) :=
  ⟨by simp, by simp, by simp, by simp, _, _, s.writeReg_status r v⟩

/-- The invariants hold of a state as soon as they hold of one that agrees with it on the call. -/
theorem Inv.congr {s t : State} (h : Inv s) (e : SameCall s t) : Inv t := by
  obtain ⟨hseq, hlatch, hout, hcount, p, q, hstatus⟩ := e
  obtain ⟨config, pn, te, status, seq, ⟨out, byteCount, outAddr⟩, latch, env, port⟩ := t
  cases hseq; cases hlatch; cases hout; cases hcount; cases hstatus
  exact ⟨⟨h.output.canonical, h.output.inside, h.output.wholeTiles, h.output.bounded⟩, h.scanning, h.padding,
    h.finished, h.counted, h.truncLimit, h.softLimit, h.withinLimit, h.validDone, h.errorCode, h.multiple, h.geometry,
    h.fresh⟩

/-- An empty output buffer is in order. -/
theorem OutputInv.empty {o : Output} (hout : o.out = []) (hcount : o.byteCount = 0) : OutputInv o :=
  ⟨by rw [hout]; exact ⟨.nil, by simp⟩, by simp [hout], by simp [hcount], by simp [hcount]⟩

/-- The invariants hold in IDLE with nothing of a call left (R24). -/
theorem Inv.of_fresh {s : State} (hp : s.seq.phase = .idle) (hout : s.output.out = [])
    (hcount : s.output.byteCount = 0) (htile : s.seq.tileCount = 0) (hpad : s.seq.padLeft = 0)
    (hstatus : ∃ p q, s.status = { State.reset.status with permValid := p, planeValid := q })
    (hmult : 0 < s.latch.mult.toNat) : Inv s := by
  obtain ⟨p, q, hstatus⟩ := hstatus
  have hcounted : s.output.byteCount.toNat = 16 * s.seq.tileCount.toNat := by simp [hcount, htile]
  exact
    { output := .empty hout hcount
      scanning := by simp [hp]
      padding := by simp [hp]
      finished := by simp [hp]
      counted := .inl hcounted
      truncLimit := by simp [hstatus, State.reset]
      softLimit := by simp [hstatus, State.reset]
      withinLimit := by simp [hcount]
      validDone := by simp [hstatus, State.reset]
      errorCode := by simp [hstatus, hp, State.reset]
      multiple := hmult
      geometry := by simp [State.busy, hp]
      fresh := fun _ => ⟨hout, hcount, htile, hpad, by simp [hstatus, State.reset]⟩ }

theorem Inv.reset : Inv State.reset :=
  .of_fresh rfl rfl rfl rfl rfl ⟨_, _, rfl⟩ (by decide)

/-- CLEAR keeps the invariants (R156). -/
theorem Inv.clearCall {s : State} (h : Inv s) : Inv s.clearCall :=
  .of_fresh rfl rfl rfl rfl rfl ⟨_, _, rfl⟩ h.multiple

/-- The reset input gives a state that meets the invariants, whatever it was before (R190). -/
theorem Inv.applyReset (s : State) : Inv s.applyReset :=
  Inv.reset.congr ⟨rfl, rfl, rfl, rfl, _, _, rfl⟩

/-- Fatal-error entry keeps the invariants (R171). -/
theorem Inv.raise {s : State} (h : Inv s) (kind : ErrorKind) (info : Word) : Inv (s.raise kind info) where
  output := h.output
  scanning := by simp
  padding := by simp
  finished := by simp
  counted := h.counted.imp_right fun ⟨hpad, hlt, _, _⟩ => ⟨hpad, hlt, by simp, by simp⟩
  truncLimit := h.truncLimit
  softLimit := h.softLimit
  withinLimit := h.withinLimit
  validDone := by simp
  errorCode := by simp
  multiple := h.multiple
  geometry := by simp [State.busy]
  fresh := by simp

/-! ### The start -/

/-- Both dimensions of a grid of tiles are below 2 ^ 13, so their product is below 2 ^ 26 (R121). -/
theorem grid_bound (w h : BitVec 16) : w.toNat / 8 ≤ 8191 ∧ h.toNat / 8 ≤ 8191 ∧
    w.toNat / 8 * (h.toNat / 8) ≤ 8191 * 8191 := by
  have hw : w.toNat / 8 ≤ 8191 := by omega
  have hh : h.toNat / 8 ≤ 8191 := by omega
  exact ⟨hw, hh, Nat.mul_le_mul hw hh⟩

theorem columns_toNat (l : Latch) : l.columns.toNat = l.w.toNat / 8 := by
  simp only [Latch.columns, BitVec.toNat_ofNat]; omega

theorem tileRows_toNat (l : Latch) : l.tileRows.toNat = l.h.toNat / 8 := by
  simp only [Latch.tileRows, BitVec.toNat_ofNat]; omega

/-- The multiple a start latches is not 0 (R30). -/
theorem latched_mult_pos (c : ConfigRegs) : 0 < c.latched.mult.toNat := by
  simp only [ConfigRegs.latched]
  split
  · decide
  · rename_i h
    exact Nat.pos_of_ne_zero fun h0 => h (BitVec.eq_of_toNat_eq h0)

/-- Between calls but in ERROR no error is recorded (R35 (f)). -/
theorem Inv.no_error {s : State} (h : Inv s) (hp : s.seq.phase ≠ .error) : s.status.errCode = none := by
  by_contra hne
  exact hp (h.errorCode.1 hne)

/-- A start gives a state that meets the invariants (R120, R121). -/
theorem Inv.startCall {s : State} (h : Inv s) (hp : s.seq.phase ≠ .error) : Inv s.startCall where
  output := .empty (by simp) (by simp)
  scanning := by simp
  padding := by simp
  finished := by simp
  counted := by simp
  truncLimit := by simp
  softLimit := by simp
  withinLimit := by simp
  validDone := by simp
  errorCode := by simp [h.no_error hp]
  multiple := by simpa using latched_mult_pos s.config
  geometry := fun _ => by
    have hbound := (grid_bound s.config.latched.w s.config.latched.h).2.2
    simp only [State.startCall_seq, State.startCall_latch, columns_toNat, tileRows_toNat, BitVec.toNat_ofNat, true_and]
    omega
  fresh := by simp

/-! ### The call's steps -/

/-- A call ends with the invariants kept, once its output is a cut scan's or padded so far (R127, R134, R135). -/
theorem Inv.endCall {s : State} (h : Inv s) (hp : s.seq.phase ≠ .error)
    (hf : (s.seq.tileCount.toNat < s.seq.nTiles.toNat ∧ s.output.byteCount.toNat = 16 * s.seq.tileCount.toNat) ∨
      PaddedSoFar s) : Inv s.endCall where
  output := h.output
  scanning := by simp
  padding := by simp
  finished := fun _ => hf
  counted := h.counted.imp_right fun ⟨hpad, hlt, _, _⟩ => ⟨hpad, hlt, by simp, by simp⟩
  truncLimit := h.truncLimit
  softLimit := h.softLimit
  withinLimit := h.withinLimit
  validDone := by simp
  errorCode := by simp [h.no_error hp]
  multiple := h.multiple
  geometry := by simp [State.busy]
  fresh := by simp

/-- The refusal of AppendTile keeps the invariants while a call runs (R131). -/
theorem Inv.truncated {s : State} (h : Inv s) (hp : s.seq.phase ≠ .idle) (hl : 0 < s.latch.limit.toNat) :
    Inv (State.emit .truncation { s with status.trunc := true }) :=
  { h with truncLimit := fun _ => hl, fresh := fun hi => absurd hi hp }

/-- The soft-limit warning keeps the invariants while a call runs (R130). -/
theorem Inv.softWarned {s u : State} (h : Inv s) (hp : s.seq.phase ≠ .idle) (hu : SoftWarned s u) : Inv u := by
  obtain rfl | ⟨hl, rfl⟩ := hu
  · exact h
  · exact { h with softLimit := fun _ => hl, fresh := fun hi => absurd hi hp }

/-- Sixteen bytes appended below the bound of R26 leave the output buffer in order (R42). -/
theorem OutputInv.append {s : State} (h : OutputInv s.output) {b : List Byte} (hb : b.length = 16)
    (hlt : s.output.byteCount.toNat + 16 < 2 ^ 31) : OutputInv (s.outAppend b).output := by
  have hcount := State.outAppend_byteCount (b := b) (s := s) (by omega)
  rw [hb] at hcount
  refine ⟨Memory.wf_writeList h.canonical _ b, fun c hc => ?_, ?_, by omega⟩
  · rw [hcount]
    rcases Memory.offset_writeList hc with hold | ⟨-, hnew⟩
    · have := h.inside c hold
      omega
    · omega
  · have := h.wholeTiles
    omega

/-- While a call runs there are fewer than 2 ^ 26 tiles (R121). -/
theorem Inv.nTiles_le {s : State} (h : Inv s) (hb : s.busy = true) : s.seq.nTiles.toNat ≤ 8191 * 8191 := by
  obtain ⟨hx, hy, hn⟩ := h.geometry hb
  rw [hn, hx, hy]
  exact (grid_bound _ _).2.2

/-- The counters after a tile is appended and counted: no wrap. -/
theorem Inv.countTile_counts {s : State} (h : Inv s) (hp : s.seq.phase = .scan)
    (hlt : s.seq.tileCount.toNat < s.seq.nTiles.toNat) {b : List Byte} (hb : b.length = 16) :
    (s.countTile b).output.byteCount.toNat = s.output.byteCount.toNat + 16 ∧
      (s.countTile b).seq.tileCount.toNat = s.seq.tileCount.toNat + 1 := by
  have hn := h.nTiles_le (by simp [State.busy, hp])
  have hcount := (h.scanning hp).2
  constructor
  · rw [← hb]
    exact State.outAppend_byteCount (by omega)
  · show (s.seq.tileCount + 1).toNat = s.seq.tileCount.toNat + 1
    bv_omega

/-- A tile appended and counted keeps the invariants (R127). -/
theorem Inv.countTile {s : State} (h : Inv s) (hp : s.seq.phase = .scan)
    (hlt : s.seq.tileCount.toNat < s.seq.nTiles.toNat) {b : List Byte} (hb : b.length = 16)
    (hroom : 0 < s.latch.limit.toNat → s.output.byteCount.toNat + 16 ≤ s.latch.limit.toNat) :
    Inv (s.countTile b) := by
  have hn := h.nTiles_le (by simp [State.busy, hp])
  have hcount := (h.scanning hp).2
  obtain ⟨hbytes, htiles⟩ := h.countTile_counts hp hlt hb
  have hcounted : (s.countTile b).output.byteCount.toNat = 16 * (s.countTile b).seq.tileCount.toNat := by omega
  exact
    { output := h.output.append hb (by omega)
      scanning := fun _ => ⟨by rw [htiles]; exact hlt, hcounted⟩
      padding := by simp [hp]
      finished := by simp [hp]
      counted := .inl hcounted
      truncLimit := h.truncLimit
      softLimit := h.softLimit
      withinLimit := fun hl => by rw [hbytes]; exact hroom hl
      validDone := h.validDone
      errorCode := h.errorCode
      multiple := h.multiple
      geometry := h.geometry
      fresh := by simp [hp] }

/-- The counters after a padding tile is appended: no wrap. -/
theorem Inv.countPad_counts {s : State} (h : Inv s) (hp : s.seq.phase = .pad) (hleft : 0 < s.seq.padLeft.toNat)
    {b : List Byte} (hb : b.length = 16) :
    (s.countPad b).output.byteCount.toNat = s.output.byteCount.toNat + 16 ∧
      (s.countPad b).seq.padLeft.toNat + 1 = s.seq.padLeft.toNat := by
  have hbound := (h.padding hp).2
  constructor
  · rw [← hb]
    exact State.outAppend_byteCount (by omega)
  · show (s.seq.padLeft - 1).toNat + 1 = s.seq.padLeft.toNat
    bv_omega

/-- A padding tile appended keeps the invariants (R134). -/
theorem Inv.countPad {s : State} (h : Inv s) (hp : s.seq.phase = .pad) (hleft : 0 < s.seq.padLeft.toNat)
    {b : List Byte} (hb : b.length = 16)
    (hroom : 0 < s.latch.limit.toNat → s.output.byteCount.toNat + 16 ≤ s.latch.limit.toNat) :
    Inv (s.countPad b) := by
  obtain ⟨⟨hall, hle, hcount⟩, hbound⟩ := h.padding hp
  obtain ⟨hbytes, hpads⟩ := h.countPad_counts hp hleft hb
  have hwanted : paddingWanted (s.countPad b) = paddingWanted s := rfl
  have htiles : (s.countPad b).seq.tileCount = s.seq.tileCount := rfl
  have hpadded : PaddedSoFar (s.countPad b) := by
    refine ⟨hall, ?_, ?_⟩
    · rw [hwanted]; omega
    · rw [hwanted, hbytes, hcount, htiles]; omega
  exact
    { output := h.output.append hb (by omega)
      scanning := by simp [hp]
      padding := fun _ => ⟨hpadded, by omega⟩
      finished := by simp [hp]
      counted := .inr ⟨hpadded, by rw [hwanted]; omega, by simp [hp], by simp [hp]⟩
      truncLimit := h.truncLimit
      softLimit := h.softLimit
      withinLimit := fun hl => by rw [hbytes]; exact hroom hl
      validDone := h.validDone
      errorCode := h.errorCode
      multiple := h.multiple
      geometry := h.geometry
      fresh := by simp [hp] }

/-- No more padding is wanted than 16 bits count (R132, R133). -/
theorem padWanted_le (l : Latch) (tiles bytes : Nat) : padWanted l tiles bytes ≤ 65535 := by
  unfold padWanted
  split
  · have hm := l.mult.isLt
    have := Nat.div_mul_le_self (tiles + l.mult.toNat - 1) l.mult.toNat
    omega
  · split <;> omega

/-- The end of the scan keeps the invariants: all the padding wanted is to come (R132). -/
theorem Inv.endOfScan {s : State} (h : Inv s) (hp : s.seq.phase = .scan)
    (hall : s.seq.tileCount.toNat = s.seq.nTiles.toNat) : Inv s.endOfScan := by
  have hn := h.nTiles_le (by simp [State.busy, hp])
  have hcount := (h.scanning hp).2
  have hle := padWanted_le s.latch s.seq.tileCount.toNat s.output.byteCount.toNat
  have hleft : s.endOfScan.seq.padLeft.toNat = padWanted s.latch s.seq.tileCount.toNat s.output.byteCount.toNat := by
    simp only [State.endOfScan_seq, BitVec.toNat_ofNat]
    omega
  have hwanted : paddingWanted s.endOfScan = s.endOfScan.seq.padLeft.toNat := by
    rw [hleft, hcount]; rfl
  have hpadded : PaddedSoFar s.endOfScan := ⟨hall, hwanted.ge, by rw [hwanted, Nat.sub_self]; exact hcount⟩
  exact
    { output := h.output
      scanning := by simp
      padding := fun _ => ⟨hpadded, by rw [hleft, State.endOfScan_output]; omega⟩
      finished := by simp
      counted := .inl hcount
      truncLimit := h.truncLimit
      softLimit := h.softLimit
      withinLimit := h.withinLimit
      validDone := fun hv => absurd (h.validDone hv) (by simp [hp])
      errorCode := by simp [h.no_error (by simp [hp])]
      multiple := h.multiple
      geometry := fun _ => h.geometry (by simp [State.busy, hp])
      fresh := by simp }

theorem SameCall.requested (s : State) : SameCall s s.requested := ⟨rfl, rfl, rfl, rfl, _, _, rfl⟩

/-- The tile step keeps the invariants (R125 to R127). -/
theorem Inv.tileStep {s : State} (h : Inv s) (hp : s.seq.phase = .scan)
    (hlt : s.seq.tileCount.toNat < s.seq.nTiles.toNat) : Inv s.tileStep := by
  have hreq : Inv s.requested := h.congr (.requested s)
  have hidle : s.seq.phase ≠ .idle := by simp [hp]
  rcases s.tileStep_effect with ⟨e, -, he⟩ | ⟨-, hl, -, he⟩ | ⟨-, hroom, u, hu, he⟩ <;> rw [he]
  · exact hreq.raise _ _
  · exact (hreq.truncated hidle hl).endCall (hp ▸ nofun) (.inl ⟨hlt, (h.scanning hp).2⟩)
  · obtain ⟨hseq, hout, hlatch, -⟩ := hu.frame
    refine (hreq.softWarned hidle hu).countTile (by rw [hseq]; exact hp) (by rw [hseq]; exact hlt)
      (length_tileBytes _ _) ?_
    rw [hlatch, hout]
    exact hroom

/-- The pad step keeps the invariants (R134). -/
theorem Inv.padStep {s : State} (h : Inv s) (hp : s.seq.phase = .pad) (hleft : 0 < s.seq.padLeft.toNat) :
    Inv s.padStep := by
  have hidle : s.seq.phase ≠ .idle := by simp [hp]
  rcases s.padStep_effect with ⟨hl, -, he⟩ | ⟨hroom, u, hu, he⟩ <;> rw [he]
  · exact (h.truncated hidle hl).endCall (by simp [hp]) (.inr (h.padding hp).1)
  · obtain ⟨hseq, hout, hlatch, -⟩ := hu.frame
    refine (h.softWarned hidle hu).countPad (by rw [hseq]; exact hp) (by rw [hseq]; exact hleft)
      length_paddingTile ?_
    rw [hlatch, hout]
    exact hroom

/-- The sequencer's turn keeps the invariants (R136). -/
theorem Inv.sequence {s : State} (h : Inv s) : Inv s.sequence := by
  rcases s.sequence_cases with ⟨he, -⟩ | ⟨hp, hlt, he⟩ | ⟨hp, hall, he⟩ | ⟨hp, hleft, he⟩ | ⟨hp, -, he⟩ <;> rw [he]
  · exact h
  · exact h.tileStep hp hlt
  · exact h.endOfScan hp hall
  · exact h.padStep hp hleft
  · exact h.endCall (by simp [hp]) (.inr (h.padding hp).1)

/-! ### The host's moves -/

/-- NORMALIZE keeps the invariants (R87). -/
theorem Inv.performNormalize {s : State} (h : Inv s) : Inv s.performNormalize := by
  rcases s.performNormalize_cases with ⟨e, -, he⟩ | ⟨-, he⟩ <;> rw [he]
  · exact (h.congr (t := { s with status.permValid := false }) ⟨rfl, rfl, rfl, rfl, _, _, rfl⟩).raise e 0
  · exact h.congr ⟨rfl, rfl, rfl, rfl, _, _, rfl⟩

/-- ENCODE_TILE keeps the invariants (R113). -/
theorem Inv.performEncodeTile {s : State} (h : Inv s) : Inv s.performEncodeTile := by
  rcases s.performEncodeTile_cases with ⟨-, he⟩ | ⟨-, he⟩ <;> rw [he]
  · exact (h.congr (t := { s with status.planeValid := false }) ⟨rfl, rfl, rfl, rfl, _, _, rfl⟩).raise .shape 0
  · exact h.congr ⟨rfl, rfl, rfl, rfl, _, _, rfl⟩

/-- A command is accepted outside ERROR only (R151). -/
theorem phase_ne_error_of_accepts {s : State} (h : s.acceptsCommand = true) : s.seq.phase ≠ .error := by
  intro he
  simp [State.acceptsCommand, he] at h

/-- Every instruction keeps the invariants. -/
theorem Inv.exec {s t : State} {i : Instr} (h : Inv s) (e : ExecEffect s i t) : Inv t := by
  cases e with
  | nothing => exact h
  | read => exact h.congr ⟨rfl, rfl, rfl, rfl, _, _, rfl⟩
  | write r v => exact h.congr (.writeReg s r v)
  | clear => exact h.clearCall
  | normalize => exact h.performNormalize
  | encodeTile => exact h.performEncodeTile
  | start _ ha => exact h.startCall (phase_ne_error_of_accepts ha)
  | illegal v => exact h.raise .illegalCommand v

/-- Every step keeps the invariants. -/
theorem Inv.step {s t : State} (h : Inv s) (hs : Machine.step s = .next t) : Inv t := by
  have hu : Inv s.taken := h.congr (.taken s)
  cases step_effect hs with
  | turn => exact hu.sequence
  | instr i _ _ he => exact hu.exec he
  | reset => exact .applyReset _
  | image => exact hu.congr ⟨rfl, rfl, rfl, rfl, _, _, rfl⟩

end Sys2Proof

/-- Settles O48: nothing of a call is left in the reset state. -/
theorem resetMeetsTheInvariant : Obligations.ResetMeetsTheInvariant :=
  Sys2Proof.Inv.reset

/-- Settles O49, by the inversion of a step: each named operation keeps the invariants. -/
theorem stepKeepsTheInvariant : Obligations.StepKeepsTheInvariant :=
  fun _ _ => Sys2Proof.Inv.step

/-! ## The host's side of the state is out of the sequencer's reach (R33, R195) -/

namespace Sys2Proof.Machine

/-- What a running call neither reads nor writes: the host's registers, the read offset, the two order bits of the
commands. -/
structure HostSide where
  config : ConfigRegs
  pn : PnRegs
  te : TeRegs
  outAddr : Word
  permValid : Bool
  planeValid : Bool

/-- The host's side of a state. -/
def State.hostSide (s : State) : HostSide :=
  ⟨s.config, s.pn, s.te, s.output.outAddr, s.status.permValid, s.status.planeValid⟩

/-- The state with another host's side. -/
def State.setHostSide (x : HostSide) (s : State) : State :=
  { s with
    config := x.config
    pn := x.pn
    te := x.te
    output.outAddr := x.outAddr
    status.permValid := x.permValid
    status.planeValid := x.planeValid }

@[simp] theorem State.hostSide_setHostSide (s : State) (x : HostSide) : (s.setHostSide x).hostSide = x := rfl

@[simp] theorem State.setHostSide_seq (x : HostSide) (s : State) : (s.setHostSide x).seq = s.seq := rfl

@[simp] theorem State.setHostSide_latch (x : HostSide) (s : State) : (s.setHostSide x).latch = s.latch := rfl

@[simp] theorem State.setHostSide_hostSide (s : State) : s.setHostSide s.hostSide = s := rfl

/-- The answer of AppendTile with the host's side of its state replaced. -/
def AppendResult.setHostSide (x : HostSide) : AppendResult → AppendResult
  | .ok s => .ok (s.setHostSide x)
  | .truncated s => .truncated (s.setHostSide x)

theorem State.appendTile_setHostSide (b : List Byte) (x : HostSide) (s : State) :
    (s.setHostSide x).appendTile b = (s.appendTile b).setHostSide x := by
  simp only [State.appendTile, apply_ite (AppendResult.setHostSide x)]
  rfl

theorem State.takeResponse_setHostSide (q : QRsp) (x : HostSide) (s : State) :
    (s.setHostSide x).takeResponse q = (s.takeResponse q).setHostSide x := by
  unfold State.takeResponse
  rw [s.setHostSide_latch, s.appendTile_setHostSide]
  cases responseError q with
  | some e => rfl
  | none => cases s.appendTile (tileBytes s.latch.planeOrder q) <;> rfl

theorem State.tileStep_setHostSide (x : HostSide) (s : State) :
    (s.setHostSide x).tileStep = s.tileStep.setHostSide x :=
  State.takeResponse_setHostSide _ x { s with port.qreq := some s.request }

theorem State.padStep_setHostSide (x : HostSide) (s : State) :
    (s.setHostSide x).padStep = s.padStep.setHostSide x := by
  unfold State.padStep
  rw [s.appendTile_setHostSide]
  cases s.appendTile paddingTile <;> rfl

/-- The sequencer's turn neither reads nor writes the host's side. -/
theorem State.sequence_setHostSide (x : HostSide) (s : State) :
    (s.setHostSide x).sequence = s.sequence.setHostSide x := by
  unfold State.sequence
  rw [s.setHostSide_seq]
  cases s.seq.phase with
  | idle => rfl
  | done => rfl
  | error => rfl
  | scan =>
    simp only [apply_ite (State.setHostSide x), s.tileStep_setHostSide]
    rfl
  | pad =>
    simp only [apply_ite (State.setHostSide x), s.padStep_setHostSide]
    rfl

/-- The sequencer's turn leaves the host's side. -/
@[simp] theorem State.sequence_hostSide (s : State) : s.sequence.hostSide = s.hostSide :=
  have h : s.sequence = s.sequence.setHostSide s.hostSide := s.sequence_setHostSide s.hostSide
  (congrArg State.hostSide h).trans (s.sequence.hostSide_setHostSide s.hostSide)

/-- The sequencer's turn leaves the latch and the environment, which it reads (R30, R101). -/
theorem State.sequence_frame (s : State) : s.sequence.latch = s.latch ∧ s.sequence.env = s.env := by
  rcases s.sequence_cases with ⟨he, -⟩ | ⟨-, -, he⟩ | ⟨-, -, he⟩ | ⟨-, -, he⟩ | ⟨-, -, he⟩ <;> rw [he]
  · exact ⟨rfl, rfl⟩
  · rcases s.tileStep_effect with ⟨e, -, he⟩ | ⟨-, -, -, he⟩ | ⟨-, -, u, hu, he⟩ <;> rw [he]
    · exact ⟨rfl, rfl⟩
    · exact ⟨rfl, rfl⟩
    · exact hu.frame.2.2
  · exact ⟨rfl, rfl⟩
  · rcases s.padStep_effect with ⟨-, -, he⟩ | ⟨-, u, hu, he⟩ <;> rw [he]
    · exact ⟨rfl, rfl⟩
    · rw [u.countPad_latch, u.countPad_env]
      exact hu.frame.2.2
  · exact ⟨rfl, rfl⟩

@[simp] theorem State.sequence_config (s : State) : s.sequence.config = s.config :=
  congrArg HostSide.config s.sequence_hostSide

@[simp] theorem State.sequence_pn (s : State) : s.sequence.pn = s.pn :=
  congrArg HostSide.pn s.sequence_hostSide

@[simp] theorem State.sequence_te (s : State) : s.sequence.te = s.te :=
  congrArg HostSide.te s.sequence_hostSide

@[simp] theorem State.sequence_outAddr (s : State) : s.sequence.output.outAddr = s.output.outAddr :=
  congrArg HostSide.outAddr s.sequence_hostSide

@[simp] theorem State.sequence_permValid (s : State) : s.sequence.status.permValid = s.status.permValid :=
  congrArg HostSide.permValid s.sequence_hostSide

@[simp] theorem State.sequence_planeValid (s : State) : s.sequence.status.planeValid = s.status.planeValid :=
  congrArg HostSide.planeValid s.sequence_hostSide

/-- The sequencer's turn on a state with other configuration, PN and TE registers is the same turn (R33, R195). -/
theorem State.sequence_hostRegs (s : State) (config : ConfigRegs) (pn : PnRegs) (te : TeRegs) :
    State.sequence { s with config := config, pn := pn, te := te } =
      { s.sequence with config := config, pn := pn, te := te } := by
  have h : State.sequence { s with config := config, pn := pn, te := te } =
      s.sequence.setHostSide { s.hostSide with config := config, pn := pn, te := te } :=
    s.sequence_setHostSide { s.hostSide with config := config, pn := pn, te := te }
  rw [h, ← s.sequence_hostSide]
  rfl

end Sys2Proof.Machine

/-- Settles O53: replacing the host's side commutes with the sequencer's turn. -/
theorem callUsesOnlyItsOwnState : Obligations.CallUsesOnlyItsOwnState := fun s =>
  ⟨s.sequence_config, s.sequence_pn, s.sequence_te, s.sequence_frame.1, s.sequence_frame.2, s.sequence_outAddr,
    s.sequence_permValid, s.sequence_planeValid, s.sequence_hostRegs⟩

/-! ## The output window (R28) -/

namespace Sys2Proof.Machine

/-- OUT_DATA reads the byte of the stream at OUT_ADDR, if there is one. -/
theorem State.readReg_outData (s : State) :
    s.readReg .outData =
      if s.output.outAddr.toNat < s.output.byteCount.toNat
        then (s.output.bytes.getD s.output.outAddr.toNat 0).zeroExtend 32 else 0 := by
  change s.output.window.zeroExtend 32 = _
  unfold Output.window
  split
  · rename_i hlt
    exact congrArg (BitVec.zeroExtend 32) (Output.bytes_getD s.output hlt).symm
  · rfl

/-- A write of any register but OUT_ADDR leaves OUT_ADDR. -/
theorem State.writeReg_outAddr {r : Reg} (hr : r ≠ .outAddr) (s : State) (v : Word) :
    (s.writeReg r v).output.outAddr = s.output.outAddr := by
  cases r with
  | outAddr => exact absurd rfl hr
  | _ => rfl

/-- Of the instructions only a write of OUT_ADDR changes OUT_ADDR. -/
theorem ExecEffect.outAddr {s t : State} {i : Instr} (e : ExecEffect s i t) :
    t.output.outAddr = s.output.outAddr ∨ ∃ v, i = .wr .outAddr v ∧ t.output.outAddr = v := by
  cases e with
  | nothing => exact .inl rfl
  | read => exact .inl rfl
  | write r v =>
    by_cases hr : r = .outAddr
    · subst hr
      exact .inr ⟨v, rfl, rfl⟩
    · exact .inl (State.writeReg_outAddr hr s v)
  | clear => exact .inl rfl
  | normalize => exact .inl (by rw [s.performNormalize_frame.1])
  | encodeTile => exact .inl (by rw [s.performEncodeTile_frame.1])
  | start => exact .inl (by simp)
  | illegal => exact .inl rfl

end Sys2Proof.Machine

open Sys2Proof Sys2Proof.Machine in
/-- Settles O17: the window is a read of the stream, and of all a step can do only reset and a write of OUT_ADDR change
OUT_ADDR. -/
theorem outputWindowReadsTheBuffer : Obligations.OutputWindowReadsTheBuffer := by
  refine ⟨fun s => ⟨s.readReg_outData, rfl⟩, fun s t hs hne => ?_⟩
  cases step_effect hs with
  | turn => exact absurd s.taken.sequence_outAddr hne
  | instr i _ hi he =>
    obtain hsame | ⟨v, rfl, hv⟩ := he.outAddr
    · exact absurd hsame hne
    · exact .inr ⟨v, hi, hv⟩
  | reset hr => exact .inl ⟨hr, rfl⟩
  | image => exact absurd rfl hne

/-! ## The output is the counted tiles until a padding tile is appended (R35 (g)) -/

namespace Sys2Proof

open Sys2Proof.Machine

/-- The output is as long as the tiles counted. -/
def TilesOnly (s : State) : Prop :=
  s.output.byteCount.toNat = 16 * s.seq.tileCount.toNat

/-- What a turn of the sequencer that breaks `TilesOnly` does: one padding tile is appended. -/
def AppendsPadding (s t : State) : Prop :=
  s.seq.phase = .pad ∧ t.seq.padLeft.toNat + 1 = s.seq.padLeft.toNat ∧ t.output.bytes = s.output.bytes ++ paddingTile

theorem TilesOnly.congr {s t : State} (h : TilesOnly s) (hb : t.output.byteCount = s.output.byteCount)
    (ht : t.seq.tileCount = s.seq.tileCount) : TilesOnly t := by
  unfold TilesOnly
  rw [hb, ht]
  exact h

theorem TilesOnly.of_empty {s : State} (hb : s.output.byteCount = 0) (ht : s.seq.tileCount = 0) : TilesOnly s := by
  simp [TilesOnly, hb, ht]

/-- A start leaves nothing written and nothing counted (R120). -/
theorem TilesOnly.startCall (s : State) : TilesOnly s.startCall :=
  .of_empty (by simp) (by simp)

/-- The tile step writes and counts its tile, or neither (R127). -/
theorem TilesOnly.tileStep {s : State} (h : TilesOnly s) (hinv : Inv s) (hp : s.seq.phase = .scan)
    (hlt : s.seq.tileCount.toNat < s.seq.nTiles.toNat) : TilesOnly s.tileStep := by
  rcases s.tileStep_effect with ⟨e, -, he⟩ | ⟨-, -, -, he⟩ | ⟨-, -, u, hu, he⟩ <;> rw [he]
  · exact h
  · exact h
  · obtain ⟨hseq, hout, -, -⟩ := hu.frame
    have hu' : Inv u := (hinv.congr (.requested s)).softWarned (show s.seq.phase ≠ .idle by simp [hp]) hu
    have hu'' : TilesOnly u := TilesOnly.congr h (congrArg Output.byteCount hout) (congrArg Sequencing.tileCount hseq)
    obtain ⟨hbytes, htiles⟩ := hu'.countTile_counts (by rw [hseq]; exact hp) (by rw [hseq]; exact hlt)
      (length_tileBytes s.latch.planeOrder (s.env.answer s.request))
    unfold TilesOnly at hu'' ⊢
    omega

/-- The pad step appends a padding tile or leaves the output as it is (R134). -/
theorem TilesOnly.padStep {s : State} (h : TilesOnly s) (hinv : Inv s) (hp : s.seq.phase = .pad)
    (hleft : 0 < s.seq.padLeft.toNat) : TilesOnly s.padStep ∨ AppendsPadding s s.padStep := by
  rcases s.padStep_effect with ⟨-, -, he⟩ | ⟨-, u, hu, he⟩ <;> rw [he]
  · exact .inl h
  · obtain ⟨hseq, hout, -, -⟩ := hu.frame
    have hu' : Inv u := hinv.softWarned (by simp [hp]) hu
    rw [← hseq] at hp hleft
    have hbound := (hu'.padding hp).2
    obtain ⟨-, hpads⟩ := hu'.countPad_counts hp hleft length_paddingTile
    have hbytes : (u.countPad paddingTile).output.bytes = u.output.bytes ++ paddingTile :=
      State.outAppend_bytes hu'.output.canonical (by rw [length_paddingTile]; omega)
    rw [hseq] at hp hpads
    rw [hout] at hbytes
    exact .inr ⟨hp, hpads, hbytes⟩

/-- Of the sequencer's turns only the pad step makes the output longer than the tiles counted (R136). -/
theorem TilesOnly.sequence {s : State} (h : TilesOnly s) (hinv : Inv s) :
    TilesOnly s.sequence ∨ AppendsPadding s s.sequence := by
  rcases s.sequence_cases with ⟨he, -⟩ | ⟨hp, hlt, he⟩ | ⟨-, -, he⟩ | ⟨hp, hleft, he⟩ | ⟨-, -, he⟩ <;> rw [he]
  · exact .inl h
  · exact .inl (h.tileStep hinv hp hlt)
  · exact .inl h
  · exact h.padStep hinv hp hleft
  · exact .inl h

/-- Every instruction leaves the output as long as the tiles counted. -/
theorem TilesOnly.exec {s t : State} {i : Instr} (h : TilesOnly s) (e : ExecEffect s i t) : TilesOnly t := by
  cases e with
  | nothing => exact h
  | read => exact h
  | write r v => exact h.congr (s.writeReg_byteCount r v) (by rw [s.writeReg_seq])
  | clear => exact .of_empty rfl rfl
  | normalize =>
    obtain ⟨hout, -, -, -, -, ⟨hseq, -⟩ | ⟨_, hseq, -⟩⟩ := s.performNormalize_frame <;>
      exact h.congr (by rw [hout]) (by rw [hseq])
  | encodeTile =>
    obtain ⟨hout, -, -, -, -, ⟨hseq, -⟩ | ⟨hseq, -⟩⟩ := s.performEncodeTile_frame <;>
      exact h.congr (by rw [hout]) (by rw [hseq])
  | start => exact .startCall s
  | illegal => exact h

/-- Of all a step can do only the appending of a padding tile makes the output longer than the tiles counted. -/
theorem TilesOnly.step {s t : State} (h : TilesOnly s) (hinv : Inv s) (hs : Machine.step s = .next t) :
    TilesOnly t ∨ AppendsPadding s t := by
  have hu : TilesOnly s.taken := h
  cases step_effect hs with
  | turn => exact hu.sequence (hinv.congr (.taken s))
  | instr i _ _ he => exact .inl (hu.exec he)
  | reset => exact .inl (.of_empty rfl rfl)
  | image => exact .inl hu

/-- An empty output has no tile counted: any padding tile would be sixteen bytes (R35 (g)). -/
theorem Inv.tilesOnly_of_empty {s : State} (h : Inv s) (he : s.output.byteCount = 0) : TilesOnly s := by
  rcases h.counted with htiles | ⟨⟨-, -, hbytes⟩, hlt, -, -⟩
  · exact htiles
  · have hzero : s.output.byteCount.toNat = 0 := by rw [he]; rfl
    omega

end Sys2Proof

/-- Settles O58: reset and start leave an empty output, and every step keeps `TilesOnly` or appends a padding tile. -/
theorem outputIsTheTilesUntilPadding : Obligations.OutputIsTheTilesUntilPadding :=
  ⟨rfl, Sys2Proof.TilesOnly.startCall, fun _ _ hinv hs =>
    ⟨fun h => Sys2Proof.TilesOnly.step h hinv hs, fun he => (hinv.step hs).tilesOnly_of_empty he⟩⟩

/-! ## Decoding a transaction and encoding it again (R11, R61) -/

namespace Sys2Proof

/-- Every index names a register of R11, and that register has this index. -/
theorem ofIndex_spec (i : BitVec 6) : (Reg.ofIndex i).wellFormed = true ∧ (Reg.ofIndex i).index = i := by
  revert i
  decide

/-- The transaction built from a word's `we` and index has the word's upper seven bits. -/
theorem busWord_fields (w : BitVec 39) (data : Word) :
    busWord (w.getLsbD 38) (Reg.ofIndex (w.extractLsb' 32 6)) data = w.extractLsb' 32 7 ++ data := by
  have hfields : BitVec.ofBool (w.getLsbD 38) ++ w.extractLsb' 32 6 = w.extractLsb' 32 7 := by
    ext i hi
    rw [BitVec.getElem_append]
    split
    · simp
    · obtain rfl : i = 6 := by omega
      simp
  rw [busWord, (ofIndex_spec _).2, ← hfields]
  exact (BitVec.append_assoc ..).symm

/-- A word is its upper seven bits and its data. -/
theorem append_fields (w : BitVec 39) : w.extractLsb' 32 7 ++ w.extractLsb' 0 32 = w := by
  exact (BitVec.extractLsb'_append_extractLsb'_eq_extractLsb' (len₁ := 32) rfl).trans BitVec.extractLsb'_eq_self

end Sys2Proof

open Sys2Proof in
/-- Settles O4: the three fields of a word are read and put back unchanged. -/
theorem encodeUndoesDecode : Obligations.EncodeUndoesDecode := by
  intro w
  unfold decodeBus39
  cases hw : w.getLsbD 38 with
  | true =>
    refine ⟨(ofIndex_spec _).1, fun _ => congrArg Encoded.bus39 ?_, nofun⟩
    rw [← hw, busWord_fields, append_fields]
  | false =>
    refine ⟨(ofIndex_spec _).1, nofun, fun _ => congrArg Encoded.bus39 ?_⟩
    rw [← hw]
    exact busWord_fields w 0

/-! ## The registers after reset (R37) -/

/-- Settles O1, register by register. -/
theorem resetLeavesTheStatedValues : Obligations.ResetLeavesTheStatedValues := by
  refine ⟨fun r => ?_, rfl, rfl, rfl, rfl, rfl, rfl, rfl⟩
  cases r with
  | pal i => fin_cases i <;> rfl
  | tileRow i => fin_cases i <;> rfl
  | plane0 i => fin_cases i <;> rfl
  | plane1 i => fin_cases i <;> rfl
  | _ => rfl

/-! ## STATUS (R19) -/

namespace Sys2Proof.Machine

/-- Every bit of STATUS. -/
theorem statusWord_getLsbD (s : State) (k : Nat) :
    s.statusWord.getLsbD k =
      if k = 0 then s.busy else if k = 1 then s.isDone else if k = 2 then s.isError
      else if k = 3 then s.status.outValid
      else if k < 8 then (errCodeField s.status.errCode).getLsbD (k - 4)
      else if k = 8 then s.status.warnMargin else if k = 9 then s.status.warnSoft
      else if k = 10 then s.status.trunc else if k = 11 then s.status.permValid
      else if k = 12 then s.status.planeValid else false := by
  unfold State.statusWord
  iterate 10 rw [BitVec.getLsbD_append]
  by_cases h : k < 13
  · interval_cases k <;> simp
  · rw [if_neg h, BitVec.getLsbD_zero]
    iterate 10 rw [if_neg (by omega)]

/-- ERR_CODE stands in STATUS's bits 7..4. -/
theorem statusWord_errCode (s : State) : s.statusWord.extractLsb' 4 4 = errCodeField s.status.errCode := by
  ext i hi
  rw [BitVec.getElem_extractLsb', statusWord_getLsbD]
  iterate 4 rw [if_neg (by omega)]
  rw [if_pos (by omega), Nat.add_sub_cancel_left, BitVec.getLsbD_eq_getElem]

/-- STATUS's bits above 12 are reserved. -/
theorem statusWord_reserved (s : State) {k : Nat} (hk : 13 ≤ k) : s.statusWord.getLsbD k = false := by
  rw [statusWord_getLsbD]
  iterate 10 rw [if_neg (by omega)]

theorem busy_iff (s : State) : s.busy = true ↔ s.seq.phase = .scan ∨ s.seq.phase = .pad := by
  simp [State.busy]

theorem isDone_iff (s : State) : s.isDone = true ↔ s.seq.phase = .done := by
  simp [State.isDone]

theorem isError_iff (s : State) : s.isError = true ↔ s.seq.phase = .error := by
  simp [State.isError]

end Sys2Proof.Machine

open Sys2Proof Sys2Proof.Machine in
/-- Settles O16: each stated bit is a case of `statusWord_getLsbD`. -/
theorem statusHoldsTheStatedFields : Obligations.StatusHoldsTheStatedFields := by
  intro s
  have bit : ∀ k, (s.readReg .status).getLsbD k = _ := statusWord_getLsbD s
  refine ⟨?_, ?_, ?_, bit 3, ?_, bit 8, bit 9, bit 10, bit 11, bit 12, fun k => statusWord_reserved s⟩
  · rw [bit 0]; exact busy_iff s
  · rw [bit 1]; exact isDone_iff s
  · rw [bit 2]; exact isError_iff s
  · refine (statusWord_errCode s).trans ?_
    cases s.status.errCode with
    | none => rfl
    | some e => cases e <;> rfl


/-! ## Registers written and read again (R34) -/

namespace Sys2Proof.Machine

/-- The word with the lowest `n` bits set. -/
abbrev lowBits (n : Nat) : Word := (BitVec.allOnes n).setWidth 32

/-- A word with nothing at bit `n` and above loses nothing to the mask of the bits below. -/
theorem and_not_lowBits {x : Word} {n : Nat} (h : ∀ k, n ≤ k → x.getLsbD k = false) : x &&& ~~~(lowBits n) = 0 := by
  ext i hi
  have hx := h i
  simp only [BitVec.getLsbD_eq_getElem hi] at hx
  simpa using fun hb => Nat.lt_of_not_le fun hle => by simp [hx hle] at hb

/-- A field of `n` bits read as a register holds nothing above them. -/
theorem zeroExtend_and_not_lowBits {n : Nat} (x : BitVec n) : x.zeroExtend 32 &&& ~~~(lowBits n) = 0 :=
  and_not_lowBits fun k hk => by simp [BitVec.getLsbD_of_ge x k hk]

/-- The lowest `n` bits of a value stored and read again. -/
theorem zeroExtend_extract (v : Word) (n : Nat) : (v.extractLsb' 0 n).zeroExtend 32 = v &&& lowBits n := by
  ext i hi
  simp [hi, Bool.and_comm]

/-- PAL_CTRL stores its six defined bits (R13). -/
theorem palCtrl_toWord_ofWord (v : Word) : (PalCtrl.ofWord v).toWord = v &&& 0x77#32 := by
  apply BitVec.eq_of_getLsbD_eq
  intro i hi
  simp only [PalCtrl.toWord, PalCtrl.ofWord]
  iterate 4 rw [BitVec.getLsbD_append]
  interval_cases i <;> simp

/-- TILE_SHAPE stores its ten defined bits (R15). -/
theorem tileShape_toWord_ofWord (v : Word) : (TileShape.ofWord v).toWord = v &&& 0x1F1F#32 := by
  apply BitVec.eq_of_getLsbD_eq
  intro i hi
  simp only [TileShape.toWord, TileShape.ofWord]
  iterate 3 rw [BitVec.getLsbD_append]
  interval_cases i <;> simp

/-- PAL_CTRL holds its six defined bits only (R13). -/
theorem palCtrl_undefined (p : PalCtrl) : p.toWord &&& ~~~0x77#32 = 0 := by
  apply BitVec.eq_of_getLsbD_eq
  intro i hi
  rw [PalCtrl.toWord, BitVec.getLsbD_and]
  iterate 4 rw [BitVec.getLsbD_append]
  interval_cases i <;> simp

/-- TILE_SHAPE holds its ten defined bits only (R15). -/
theorem tileShape_undefined (t : TileShape) : t.toWord &&& ~~~0x1F1F#32 = 0 := by
  apply BitVec.eq_of_getLsbD_eq
  intro i hi
  rw [TileShape.toWord, BitVec.getLsbD_and]
  iterate 3 rw [BitVec.getLsbD_append]
  interval_cases i <;> simp

/-- A full word has no undefined bit. -/
theorem and_not_allBits (x : Word) : x &&& ~~~0xFFFFFFFF#32 = 0 :=
  and_not_lowBits (n := 32) fun k hk => BitVec.getLsbD_of_ge x k hk

/-- The bits of a register that are not defined read 0 (R34). -/
theorem State.readReg_undefined (s : State) (r : Reg) : s.readReg r &&& ~~~(definedBits r) = 0 := by
  cases r with
  | cmd | reserved _ => exact BitVec.zero_and
  | status => exact and_not_lowBits fun k => statusWord_reserved s
  | palCtrl => exact palCtrl_undefined _
  | tileShape => exact tileShape_undefined _
  | byteLimit | tileSize | tileCount | byteCount | errInfo | outAddr => exact and_not_allBits _
  | cfg | widthMultiple | imgWidth | imgHeight | outData | pal _ | perm | tileRow _ | plane0 _ | plane1 _ =>
    exact zeroExtend_and_not_lowBits _

/-- A register that is not read/write ignores a write (R34). -/
theorem State.writeReg_of_not_writable {r : Reg} (h : writable r = false) (s : State) (v : Word) :
    s.writeReg r v = s := by
  cases r with
  | cmd | status | tileSize | tileCount | byteCount | errInfo | outData | perm | plane0 _ | plane1 _ | reserved _ => rfl
  | _ => cases h

/-- A read/write register reads the defined bits of the value written to it (R34). -/
theorem State.readReg_writeReg_same {r : Reg} (h : writable r = true) (s : State) (v : Word) :
    (s.writeReg r v).readReg r = v &&& definedBits r := by
  cases r with
  | cfg | widthMultiple | imgWidth | imgHeight => exact zeroExtend_extract v _
  | byteLimit | outAddr => exact BitVec.and_allOnes.symm
  | palCtrl => exact palCtrl_toWord_ofWord v
  | tileShape => exact tileShape_toWord_ofWord v
  | pal i =>
    simp only [State.readReg, State.writeReg, Four.get_set, if_pos]
    exact zeroExtend_extract v 24
  | tileRow i =>
    simp only [State.readReg, State.writeReg, Eight.get_set, if_pos]
    exact zeroExtend_extract v 16
  | _ => cases h

/-- A write leaves the value of every other register, but of OUT_DATA where OUT_ADDR is written (R28, R34). -/
theorem State.readReg_writeReg_other {r r' : Reg} (hne : r' ≠ r) (hout : ¬ (r = .outAddr ∧ r' = .outData)) (s : State)
    (v : Word) : (s.writeReg r v).readReg r' = s.readReg r' := by
  cases r' with
  | cmd | tileSize | reserved _ => rfl
  | status => exact State.statusWord_congr (s.writeReg_status r v) (by rw [s.writeReg_seq])
  | tileCount => exact congrArg Sequencing.tileCount (s.writeReg_seq r v)
  | byteCount => exact s.writeReg_byteCount r v
  | errInfo => exact congrArg StatusRegs.errInfo (s.writeReg_status r v)
  | perm => simp only [State.readReg, State.writeReg_perm]
  | plane0 _ => simp only [State.readReg, State.writeReg_plane0]
  | plane1 _ => simp only [State.readReg, State.writeReg_plane1]
  | outAddr => exact State.writeReg_outAddr hne.symm s v
  | outData =>
    have haddr : (s.writeReg r v).output.outAddr = s.output.outAddr :=
      State.writeReg_outAddr (fun h => hout ⟨h, rfl⟩) s v
    simp only [State.readReg, Output.window, haddr, State.writeReg_byteCount, State.writeReg_out]
  | cfg | widthMultiple | byteLimit | imgWidth | imgHeight | palCtrl | tileShape =>
    cases r <;> simp [State.readReg, State.writeReg] at hne ⊢
  | pal i =>
    cases r with
    | pal j =>
      have : i ≠ j := fun h => hne (by rw [h])
      simp only [State.readReg, State.writeReg, Four.get_set, if_neg this]
    | _ => rfl
  | tileRow i =>
    cases r with
    | tileRow j =>
      have : i ≠ j := fun h => hne (by rw [h])
      simp only [State.readReg, State.writeReg, Eight.get_set, if_neg this]
    | _ => rfl

/-- `WR` of a register but CMD stores it while no call runs (R153). -/
theorem exec_wr_eq_writeReg {s : State} {r : Reg} (hb : s.busy = false) (hr : r ≠ .cmd) (v : Word) :
    exec (.wr r v) s = .next (s.writeReg r v) := by
  change execWr r v s = _
  rw [execWr, if_neg (by simp [hb]), if_neg hr]

end Sys2Proof.Machine

open Sys2Proof Sys2Proof.Machine in
/-- Settles O11: the register written, the other registers, the undefined bits, each by its own rule. -/
theorem writeStoresTheDefinedBits : Obligations.WriteStoresTheDefinedBits := by
  intro s r v
  refine ⟨fun hb hr => ⟨s.writeReg r v, exec_wr_eq_writeReg hb hr v, ?_, fun r' hne hout => ?_, ?_⟩, s.readReg_undefined r⟩
  · cases hw : writable r with
    | true => exact State.readReg_writeReg_same hw s v
    | false => rw [State.writeReg_of_not_writable hw]; rfl
  · exact State.readReg_writeReg_other hne hout s v
  · simp

/-! ## A transmitted word runs as the instruction it stands for (R51) -/

namespace Sys2Proof.Machine

/-- A word that decodes is received as what it decodes to. -/
theorem received_of_decode_ok {e : Encoded} {i : Instr} (h : decode e = .ok i) : received e = i := by
  cases e with
  | bus39 w => exact Except.ok.inj h
  | cmd8 v =>
    have hv : decodeCmd8 v = .ok i := h
    simp only [received, hv]

/-- A value written to CMD is refused by the decoder under its own name only (R63). -/
theorem decodeCmd8_error {v w : Word} (h : decodeCmd8 v = .error (.reservedCommand w)) : w = v := by
  unfold decodeCmd8 at h
  split at h <;> cases h
  rfl

/-- A reserved command word is received as the write of it to CMD (R63). -/
theorem received_of_reservedCommand {e : Encoded} {v : Word} (h : decode e = .error (.reservedCommand v)) :
    received e = .wr .cmd v := by
  cases e with
  | bus39 w => cases h
  | cmd8 w =>
    have hw : decodeCmd8 w = .error (.reservedCommand v) := h
    obtain rfl := decodeCmd8_error hw
    simp only [received, hw]

/-- The step of a transmission is the instruction received. -/
theorem step_send {s : State} {e : Encoded} {rest : List HostMove} (h : s.env.inputs = .send e :: rest) :
    step s = exec (received e) (s.clearPort.setInputs rest) := by
  simp only [step, h]
  rfl

end Sys2Proof.Machine

open Sys2Proof Sys2Proof.Machine in
/-- Settles O7: a transmission runs the instruction received, which is what the decoder says. -/
theorem stepRunsTheDecodedInstruction : Obligations.StepRunsTheDecodedInstruction := by
  intro s e rest hm
  refine ⟨fun i hi _ => ?_, fun v hv => ?_⟩
  · rw [step_send hm, received_of_decode_ok hi]
  · rw [step_send hm, received_of_reservedCommand hv]

/-! ## What a running call has written stays (R43) -/

namespace Sys2Proof.Machine

/-- A command is accepted between calls only (R151). -/
theorem State.not_busy_of_accepts (s : State) (h : s.acceptsCommand = true) : s.busy = false := by
  rw [State.acceptsCommand_eq_not_busy_not_error] at h
  cases hb : s.busy <;> simp [hb] at h ⊢

/-- While a call runs an instruction changes nothing but the value a read puts out (R152). -/
theorem ExecEffect.of_busy {s t : State} {i : Instr} (e : ExecEffect s i t) (hb : s.busy = true) :
    t = s ∨ ∃ r, i = .rd r ∧ t = { s with port.rdata := some (s.readReg r) } := by
  have busy_not_idle : ∀ {p : Prop}, s.busy = false → p := fun h => by simp [hb] at h
  cases e with
  | nothing => exact .inl rfl
  | read r => exact .inr ⟨r, rfl, rfl⟩
  | write _ _ idle | clear _ idle => exact busy_not_idle idle
  | normalize _ ha | encodeTile _ ha | start _ ha | illegal _ _ ha => exact busy_not_idle (s.not_busy_of_accepts ha)

end Sys2Proof.Machine

namespace Sys2Proof

open Sys2Proof.Machine

/-- The bytes of `s` below its BYTE_COUNT stand in `t` as they were, and neither counter is lower. -/
structure KeepsWritten (s t : State) : Prop where
  bytes : ∀ a, a < s.output.byteCount.toNat → t.output.out.read a = s.output.out.read a
  byteCount : s.output.byteCount.toNat ≤ t.output.byteCount.toNat
  tileCount : s.seq.tileCount.toNat ≤ t.seq.tileCount.toNat

theorem KeepsWritten.of_eq {s t : State} (hout : t.output = s.output) (htile : t.seq.tileCount = s.seq.tileCount) :
    KeepsWritten s t :=
  ⟨fun _ _ => by rw [hout], by rw [hout], by rw [htile]⟩

theorem KeepsWritten.trans {s t u : State} (h : KeepsWritten s t) (h' : KeepsWritten t u) : KeepsWritten s u :=
  ⟨fun a ha => (h'.bytes a (ha.trans_le h.byteCount)).trans (h.bytes a ha), h.byteCount.trans h'.byteCount,
    h.tileCount.trans h'.tileCount⟩

/-- A tile appended writes at BYTE_COUNT and above only (R42). -/
theorem KeepsWritten.append {s t : State} (h : Memory.wf s.output.out) {b : List Byte}
    (hout : t.output = (s.outAppend b).output) (hbytes : t.output.byteCount.toNat = s.output.byteCount.toNat + 16)
    (htiles : s.seq.tileCount.toNat ≤ t.seq.tileCount.toNat) : KeepsWritten s t where
  bytes a ha := by rw [hout, State.outAppend_output, Memory.read_writeList h, if_neg (by omega)]
  byteCount := by omega
  tileCount := htiles

/-- The tile step appends behind what is written, or appends nothing (R127). -/
theorem KeepsWritten.tileStep {s : State} (h : Inv s) (hp : s.seq.phase = .scan)
    (hlt : s.seq.tileCount.toNat < s.seq.nTiles.toNat) : KeepsWritten s s.tileStep := by
  rcases s.tileStep_effect with ⟨e, -, he⟩ | ⟨-, -, -, he⟩ | ⟨-, -, u, hu, he⟩ <;> rw [he]
  · exact .of_eq rfl rfl
  · exact .of_eq rfl rfl
  · obtain ⟨hseq, hout, -, -⟩ := hu.frame
    have hu' : Inv u := (h.congr (.requested s)).softWarned (show s.seq.phase ≠ .idle by simp [hp]) hu
    obtain ⟨hbytes, htiles⟩ := hu'.countTile_counts (by rw [hseq]; exact hp) (by rw [hseq]; exact hlt)
      (length_tileBytes s.latch.planeOrder (s.env.answer s.request))
    have hsu : KeepsWritten s u := .of_eq hout (congrArg Sequencing.tileCount hseq)
    exact hsu.trans
      (.append hu'.output.canonical (u.countTile_output _) hbytes (Nat.le.intro htiles.symm))

/-- The pad step appends behind what is written, or appends nothing (R134). -/
theorem KeepsWritten.padStep {s : State} (h : Inv s) (hp : s.seq.phase = .pad) (hleft : 0 < s.seq.padLeft.toNat) :
    KeepsWritten s s.padStep := by
  rcases s.padStep_effect with ⟨-, -, he⟩ | ⟨-, u, hu, he⟩ <;> rw [he]
  · exact .of_eq rfl rfl
  · obtain ⟨hseq, hout, -, -⟩ := hu.frame
    have hu' : Inv u := h.softWarned (by simp [hp]) hu
    obtain ⟨hbytes, -⟩ := hu'.countPad_counts (by rw [hseq]; exact hp) (by rw [hseq]; exact hleft) length_paddingTile
    have hsu : KeepsWritten s u := .of_eq hout (congrArg Sequencing.tileCount hseq)
    exact hsu.trans
      (.append hu'.output.canonical (u.countPad_output _) hbytes le_rfl)

/-- The sequencer's turn keeps what is written (R136). -/
theorem KeepsWritten.sequence {s : State} (h : Inv s) : KeepsWritten s s.sequence := by
  rcases s.sequence_cases with ⟨he, -⟩ | ⟨hp, hlt, he⟩ | ⟨-, -, he⟩ | ⟨hp, hleft, he⟩ | ⟨-, -, he⟩ <;> rw [he]
  · exact .of_eq rfl rfl
  · exact .tileStep h hp hlt
  · exact .of_eq rfl rfl
  · exact .padStep h hp hleft
  · exact .of_eq rfl rfl

/-- Every instruction keeps what a running call has written (R152). -/
theorem KeepsWritten.exec {s t : State} {i : Instr} (e : ExecEffect s i t) (hb : s.busy = true) :
    KeepsWritten s t := by
  obtain rfl | ⟨r, -, rfl⟩ := e.of_busy hb
  · exact .of_eq rfl rfl
  · exact .of_eq rfl rfl

end Sys2Proof

open Sys2Proof Sys2Proof.Machine in
/-- Settles O52: a running call's turns append behind the written bytes, an instruction changes nothing, and no new image
is placed. -/
theorem writtenBytesStay : Obligations.WrittenBytesStay := by
  intro s t hinv hb hs hreset
  have hkeeps : KeepsWritten s.taken t := by
    cases step_effect hs with
    | turn => exact .sequence (hinv.congr (.taken s))
    | instr i _ _ he => exact .exec he hb
    | reset hr => exact absurd hr hreset
    | image _ _ idle => exact .of_eq rfl rfl
  exact ⟨hkeeps.bytes, hkeeps.byteCount, hkeeps.tileCount⟩

/-! ## Decoding what was encoded (R61, R62) -/

namespace Sys2Proof

/-- A well-formed register is the one its index names (R11). -/
theorem ofIndex_index {r : Reg} (h : r.wellFormed = true) : Reg.ofIndex r.index = r := by
  cases r with
  | pal i => fin_cases i <;> rfl
  | tileRow i => fin_cases i <;> rfl
  | plane0 i => fin_cases i <;> rfl
  | plane1 i => fin_cases i <;> rfl
  | reserved i =>
    have hall : ∀ i : BitVec 6, reservedIndex i = true → Reg.ofIndex i = .reserved i := by decide
    exact hall i h
  | _ => rfl

/-- The data field of a transaction (R61). -/
theorem busWord_data (we : Bool) (r : Reg) (v : Word) : (busWord we r v).extractLsb' 0 32 = v := by
  ext i hi
  rw [BitVec.getElem_extractLsb', busWord, BitVec.getLsbD_append, if_pos (by omega), BitVec.getLsbD_append,
    if_pos (by omega), Nat.zero_add, BitVec.getLsbD_eq_getElem hi]

/-- The index field of a transaction (R61). -/
theorem busWord_index (we : Bool) (r : Reg) (v : Word) : (busWord we r v).extractLsb' 32 6 = r.index := by
  ext i hi
  rw [BitVec.getElem_extractLsb', busWord, BitVec.getLsbD_append, if_pos (by omega), BitVec.getLsbD_append,
    if_neg (by omega), Nat.add_sub_cancel_left, BitVec.getLsbD_eq_getElem hi]

/-- A transaction built for a register that R11 names decodes to the access it was built for (R61). -/
theorem decodeBus39_busWord {r : Reg} (h : r.wellFormed = true) (we : Bool) (v : Word) :
    decodeBus39 (busWord we r v) = if we then .wr r v else .rd r := by
  rw [decodeBus39, Laws.Direction.we_busWord, busWord_index, busWord_data, ofIndex_index h]

theorem decodeBus39_transaction_wr {r : Reg} (h : r.wellFormed = true) (v : Word) :
    decodeBus39 (transaction (.wr r v)) = .wr r v :=
  decodeBus39_busWord h true v

theorem decodeBus39_transaction_rd {r : Reg} (h : r.wellFormed = true) :
    decodeBus39 (transaction (.rd r)) = .rd r :=
  decodeBus39_busWord h false 0

end Sys2Proof

open Sys2Proof in
/-- Settles O3: a transaction's fields are read back one by one; the five command words are read back from the map. -/
theorem decodeUndoesEncode : Obligations.DecodeUndoesEncode := by
  intro i hi
  cases i with
  | wr r v => exact ⟨congrArg Except.ok (decodeBus39_transaction_wr hi v), decodeBus39_transaction_wr hi v⟩
  | rd r => exact ⟨congrArg Except.ok (decodeBus39_transaction_rd hi), decodeBus39_transaction_rd hi⟩
  | nop | normalize | encodeTile | assemble | clear =>
    exact ⟨rfl, decodeBus39_busWord (r := .cmd) rfl true _⟩

/-! ## The command words and the words of listings (R62, R71) -/

open Sys2Proof in
/-- Settles O5: a value is one of the five words of R62 or runs past every row of the map. -/
theorem onlyFiveCommandWords : Obligations.OnlyFiveCommandWords := by
  intro v
  by_cases h0 : v = 0
  · subst h0; rfl
  by_cases h1 : v = 1
  · subst h1; rfl
  by_cases h2 : v = 2
  · subst h2; rfl
  by_cases h3 : v = 3
  · subst h3; rfl
  by_cases h4 : v = 4
  · subst h4; rfl
  rw [if_neg h0, if_neg h1, if_neg h2, if_neg h3, if_neg h4]
  unfold decodeCmd8
  split
  · exact absurd (BitVec.eq_of_toNat_eq ‹_›) h0
  · exact absurd (BitVec.eq_of_toNat_eq ‹_›) h1
  · exact absurd (BitVec.eq_of_toNat_eq ‹_›) h2
  · exact absurd (BitVec.eq_of_toNat_eq ‹_›) h3
  · exact absurd (BitVec.eq_of_toNat_eq ‹_›) h4
  · rfl

/-- Settles O6, word by word. -/
theorem listedWordsDecode : Obligations.ListedWordsDecode := by
  refine ⟨?_, ?_, ?_, ?_, ?_, ?_, ?_, ?_, ?_, ?_, ?_, ?_⟩ <;> decide

namespace Sys2Proof

/-- A listing word that decodes at all decodes in the form its length chooses (log 16). -/
theorem decode_listing {nbits w : Nat} {i : Instr} (h : decodeTableWord nbits w = some i) :
    decode (listing nbits w) = .ok i := by
  have hl : decodeListing nbits w = .ok i := by
    unfold decodeTableWord at h
    cases hd : decodeListing nbits w with
    | error e => rw [hd] at h; cases h
    | ok j => rw [hd] at h; cases h; rfl
  unfold decodeListing at hl
  split at hl
  · cases hl
  · split at hl <;> split at hl
    · cases hl
    · exact hl
    · cases hl
    · exact hl

end Sys2Proof

open Sys2Proof Sys2Proof.Machine in
/-- Settles O8: the placed word is the move taken, and taking it leaves the moves that were there. -/
theorem placedWordRunsNext : Obligations.PlacedWordRunsNext := by
  intro s nbits w i h
  have hstep : step (s.withFetchWord nbits w) = exec (received (listing nbits w)) s.clearPort := step_send rfl
  rw [hstep, received_of_decode_ok (decode_listing h)]

/-! ## The planes of a tile, bit by bit (R65 to R67, R111) -/

namespace Sys2Proof.Machine

/-- The pixel of column `c` stands in bit 7 - c of its row's plane byte (R111). -/
theorem planeByte_getLsbD (bit : Nat) (row : Eight Index) (c : Fin 8) :
    (planeByte bit row).getLsbD (7 - c.val) = (row.get c).getLsbD bit := by
  fin_cases c <;> simp [planeByte, Eight.toList, Eight.get]

/-- The pixel of column `c` is the two bits of its row word from 2 (7 - c) on (R16). -/
theorem rowPixels_get (w : BitVec 16) (c : Fin 8) : (rowPixels w).get c = w.extractLsb' (2 * (7 - c.val)) 2 := by
  fin_cases c <;> rfl

/-- A plane byte of a row word is its even bits or its odd bits (R65). -/
theorem planeByte_rowPixels {bit j : Nat} (hbit : bit < 2) (hj : j < 8) (w : BitVec 16) :
    (planeByte bit (rowPixels w)).getLsbD j = w.getLsbD (2 * j + bit) := by
  have h := planeByte_getLsbD bit (rowPixels w) ⟨7 - j, by omega⟩
  have hsub : 7 - (7 - j) = j := by omega
  rw [rowPixels_get, hsub] at h
  rw [h, BitVec.getLsbD_extractLsb', decide_eq_true hbit, Bool.true_and]

/-- The same as registers read them: the row word and either plane's byte widened to 32 bits (R16, R17, R65). -/
theorem planeByte_register {bit j : Nat} (hbit : bit < 2) (hj : j < 8) (w : BitVec 16) :
    ((planeByte bit (rowPixels w)).zeroExtend 32).getLsbD j = (w.zeroExtend 32).getLsbD (2 * j + bit) := by
  rw [BitVec.getLsbD_setWidth, BitVec.getLsbD_setWidth,
    planeByte_rowPixels hbit hj, decide_eq_true (by omega), decide_eq_true (by omega)]

/-- Bit 7 - c of plane0's row is bit 0 of the pixel of column `c` (R66, R111). -/
theorem encodePlanes_plane0 (grid : Eight (Eight Index)) (r c : Fin 8) :
    ((encodePlanes grid).1.get r).getLsbD (7 - c.val) = ((grid.get r).get c).getLsbD 0 := by
  rw [encodePlanes, Eight.get_map]
  exact planeByte_getLsbD 0 _ c

/-- Bit 7 - c of plane1's row is bit 1 of the pixel of column `c` (R66, R111). -/
theorem encodePlanes_plane1 (grid : Eight (Eight Index)) (r c : Fin 8) :
    ((encodePlanes grid).2.get r).getLsbD (7 - c.val) = ((grid.get r).get c).getLsbD 1 := by
  rw [encodePlanes, Eight.get_map]
  exact planeByte_getLsbD 1 _ c

/-- Bytes 0 to 7 of a tile are the rows of the plane that comes first (R66). -/
theorem getD_append_first (a b : Eight Byte) (r : Fin 8) : (a.toList ++ b.toList).getD (0 + r.val) 0 = a.get r := by
  fin_cases r <;> rfl

/-- Bytes 8 to 15 of a tile are the rows of the plane that comes second (R66). -/
theorem getD_append_second (a b : Eight Byte) (r : Fin 8) : (a.toList ++ b.toList).getD (8 + r.val) 0 = b.get r := by
  fin_cases r <;> rfl

/-- ENCODE_TILE on a grid of the right shape, between calls (R113). -/
theorem exec_encodeTile_of_shape {s : State} (ha : s.acceptsCommand = true)
    (hrows : s.te.tileShape.rows = 8) (hcols : s.te.tileShape.cols = 8) :
    exec .encodeTile s = .next
      { s with
        te.plane0 := (encodePlanes s.te.grid).1
        te.plane1 := (encodePlanes s.te.grid).2
        status.planeValid := true } := by
  rcases s.performEncodeTile_cases with ⟨hbad, -⟩ | ⟨-, he⟩
  · simp [shapeOk, hrows, hcols] at hbad
  · exact congrArg Host.Outcome.next ((if_pos ha).trans he)

end Sys2Proof.Machine

open Sys2Proof Sys2Proof.Machine in
/-- Settles O27: a plane byte's bit is a bit of the row word, and the same bit is a bit of the row's pixel. -/
theorem encodeTileDeinterleaves : Obligations.EncodeTileDeinterleaves := by
  intro s hp hrows hcols
  have ha : s.acceptsCommand = true := by simpa [State.acceptsCommand] using hp
  refine ⟨_, exec_encodeTile_of_shape ha (BitVec.eq_of_toNat_eq hrows) (BitVec.eq_of_toNat_eq hcols),
    fun r j hj => ?_, fun r c => ⟨encodePlanes_plane0 _ r c, encodePlanes_plane1 _ r c⟩,
    rfl, rfl, rfl, rfl, rfl, rfl, rfl, rfl, rfl, rfl⟩
  simp only [State.readReg, encodePlanes, TeRegs.grid, Eight.get_map]
  exact ⟨planeByte_register (bit := 0) (by decide) hj _, planeByte_register (bit := 1) (by decide) hj _⟩

open Sys2Proof Sys2Proof.Machine in
/-- Settles O30: the plane that comes first is bytes 0 to 7, the other bytes 8 to 15. -/
theorem streamLayoutOfATile : Obligations.StreamLayoutOfATile := by
  intro grid order
  cases order with
  | lowThenHigh =>
    refine ⟨rfl, fun r c => ⟨?_, ?_⟩⟩
    · rw [← encodePlanes_plane0]; exact congrArg (BitVec.getLsbD · _) (getD_append_first _ _ r)
    · rw [← encodePlanes_plane1]; exact congrArg (BitVec.getLsbD · _) (getD_append_second _ _ r)
  | highThenLow =>
    refine ⟨rfl, fun r c => ⟨?_, ?_⟩⟩
    · rw [← encodePlanes_plane0]; exact congrArg (BitVec.getLsbD · _) (getD_append_second _ _ r)
    · rw [← encodePlanes_plane1]; exact congrArg (BitVec.getLsbD · _) (getD_append_first _ _ r)

/-! ## Transactions the host sends one after the other (R72) -/

namespace Sys2Proof.Machine

/-- The writes as the instructions that perform them. -/
def writesOf (ws : List (Reg × Word)) : List Instr :=
  ws.map fun w => .wr w.1 w.2

/-- What one transmitted write that is stored does: the outputs of the action before are withdrawn, then the register
takes the value. -/
def State.store (s : State) (w : Reg × Word) : State :=
  s.clearPort.writeReg w.1 w.2

/-- A write leaves the moves the host still has to make. -/
theorem State.withProgram_writeReg (p : List Instr) (r : Reg) (v : Word) (s : State) :
    (s.withProgram p).writeReg r v = (s.writeReg r v).withProgram p := by
  cases r <;> rfl

/-- The step of a program's leading instruction runs it, the rest of the program left to come. -/
theorem step_withProgram {i : Instr} (hi : decodeBus39 (transaction i) = i) (p : List Instr) (s : State) :
    step (s.withProgram (i :: p)) = exec i (s.clearPort.withProgram p) := by
  have hr : received (.bus39 (transaction i)) = i := hi
  rw [step_send (s := s.withProgram (i :: p)) rfl, hr]
  rfl

/-- The first step of a run. -/
theorem run_succ {s t : State} (h : step s = .next t) (k : Nat) :
    Host.Core.run core (k + 1) s = Host.Core.run core k t := by
  have hcore : core.step s = .next t := h
  simp only [Host.Core.run, hcore]

/-- A leading write is stored, if no call runs (R153). -/
theorem run_write {r : Reg} (hr : r.wellFormed = true) (hcmd : r ≠ .cmd) (v : Word) (p : List Instr) {s : State}
    (hb : s.busy = false) (k : Nat) :
    Host.Core.run core (k + 1) (s.withProgram (.wr r v :: p)) =
      Host.Core.run core k ((s.store (r, v)).withProgram p) := by
  refine run_succ ?_ k
  have hb' : (s.clearPort.withProgram p).busy = false := hb
  rw [step_withProgram (decodeBus39_transaction_wr hr v), exec_wr_eq_writeReg hb' hcmd, State.withProgram_writeReg]
  rfl

/-- A stored write starts and ends no call. -/
theorem State.store_busy (s : State) (w : Reg × Word) : (s.store w).busy = s.busy := by
  simp [State.busy, State.store]

/-- Stored writes run one after the other. -/
theorem run_writes {ws : List (Reg × Word)} (hws : ∀ w ∈ ws, w.1.wellFormed = true ∧ w.1 ≠ .cmd) {s : State}
    (hb : s.busy = false) :
    Host.Core.run core ws.length (s.withProgram (writesOf ws)) = .next (ws.foldl State.store s) := by
  induction ws generalizing s with
  | nil => rfl
  | cons w ws ih =>
    obtain ⟨hwf, hcmd⟩ := hws w (by simp)
    refine (run_write hwf hcmd w.2 (writesOf ws) hb ws.length).trans ?_
    exact ih (fun w' hw' => hws w' (by simp [hw'])) ((s.store_busy w).trans hb)

/-- A field of `n` bits sent in a word is stored as it was. -/
theorem extract_zeroExtend {n : Nat} (h : n ≤ 32) (x : BitVec n) : (x.zeroExtend 32).extractLsb' 0 n = x := by
  ext i hi
  simp [hi, show i < 32 by omega]

/-! ### `setpal` -/

/-- The state with another palette, the outputs of the action before withdrawn. -/
def State.setPalette (s : State) (v : Four Color) : State :=
  { s.clearPort with pn.pal := v }

/-- The palette with each colour of a list put in its entry, from entry 0 on. -/
def setColors (v : Four Color) (colors : List Color) : Four Color :=
  ([0, 1, 2, 3].zip colors).foldl (fun v x => v.set x.1 x.2) v

/-- An entry no colour is given for stays as it was. -/
theorem setColors_get (v : Four Color) (colors : List Color) (i : Fin 4) :
    (setColors v colors).get i = colors.getD i.val (v.get i) := by
  match colors with
  | [] | [_] | [_, _] | [_, _, _] | _ :: _ :: _ :: _ :: _ => fin_cases i <;> rfl

/-- The writes `setpal` makes of its colours. -/
def colorWrites (colors : List Color) : List (Reg × Word) :=
  ([0, 1, 2, 3].zip colors).map fun x => (.pal x.1, x.2.zeroExtend 32)

/-- The colours' writes change the palette only. -/
theorem foldl_colorWrites (colors : List Color) (s : State) :
    (colorWrites colors).foldl State.store s.clearPort = s.setPalette (setColors s.pn.pal colors) := by
  have hstore : ∀ (v : Four Color) (x : Fin 4 × Color),
      (s.setPalette v).store (.pal x.1, x.2.zeroExtend 32) = s.setPalette (v.set x.1 x.2) := fun v x =>
    congrArg (fun c => s.setPalette (v.set x.1 c)) (extract_zeroExtend (by decide) x.2)
  rw [colorWrites, List.foldl_map]
  exact List.foldl_hom s.setPalette hstore

/-- The value `setpal` writes to PAL_CTRL (R13). -/
def palCtrlWord (n : BitVec 3) (t : Option Index) : Word :=
  n.zeroExtend 32 ||| (match t with
    | some ti => 0x10 ||| (ti.zeroExtend 32 <<< (5 : Nat))
    | none => 0)

/-- The program of `setpal` is a list of writes. -/
theorem setPal_eq (n : BitVec 3) (t : Option Index) (colors : List Color) :
    setPal n t colors = writesOf ((.palCtrl, palCtrlWord n t) :: colorWrites colors) := by
  rw [writesOf, List.map_cons, colorWrites, List.map_map, List.map_zip_eq_zipWith]
  rfl

/-- PAL_CTRL takes the length and the transparent entry `setpal` gives (R13, R72). -/
theorem ofWord_palCtrlWord (n : BitVec 3) (t : Option Index) :
    PalCtrl.ofWord (palCtrlWord n t) = { palLen := n, transpEn := t.isSome, transpIdx := t.getD 0 } := by
  revert n t
  decide

/-- `setpal` while no call runs (R72). -/
theorem run_setPal {s : State} (hb : s.busy = false) (n : BitVec 3) (t : Option Index) {colors : List Color}
    (hl : colors.length ≤ 4) :
    Host.Core.run core (colors.length + 1) (s.withProgram (setPal n t colors)) = .next
      { s.setPalette (setColors s.pn.pal colors) with
        pn.palCtrl := { palLen := n, transpEn := t.isSome, transpIdx := t.getD 0 } } := by
  have hlen : ((.palCtrl, palCtrlWord n t) :: colorWrites colors).length = colors.length + 1 := by
    simp [colorWrites, hl]
  have hws : ∀ w ∈ (.palCtrl, palCtrlWord n t) :: colorWrites colors, w.1.wellFormed = true ∧ w.1 ≠ .cmd := by
    rw [colorWrites, List.forall_mem_cons, List.forall_mem_map]
    exact ⟨⟨rfl, nofun⟩, fun _ _ => ⟨rfl, nofun⟩⟩
  rw [← hlen, setPal_eq, ← ofWord_palCtrlWord]
  exact (run_writes hws hb).trans
    (congrArg Host.Outcome.next (foldl_colorWrites colors (s.store (.palCtrl, palCtrlWord n t))))

/-! ### `settile` -/

/-- The state with other row words, the outputs of the action before withdrawn. -/
def State.setRows (s : State) (v : Eight (BitVec 16)) : State :=
  { s.clearPort with te.tileRow := v }

/-- The writes `settile` makes. -/
def rowWrites (rows : Eight (BitVec 16)) : List (Reg × Word) :=
  ([0, 1, 2, 3, 4, 5, 6, 7].zip rows.toList).map fun x => (.tileRow x.1, x.2.zeroExtend 32)

/-- The program of `settile` is a list of writes. -/
theorem setTile_eq (rows : Eight (BitVec 16)) : setTile rows = writesOf (rowWrites rows) := by
  rw [writesOf, rowWrites, List.map_map, List.map_zip_eq_zipWith]
  rfl

/-- Eight entries put one after the other leave nothing of the old ones. -/
theorem foldl_set_rows (v rows : Eight (BitVec 16)) :
    ([0, 1, 2, 3, 4, 5, 6, 7].zip rows.toList).foldl (fun v x => v.set x.1 x.2) v = rows := by
  simp [Eight.toList, Eight.set]

/-- The eight rows' writes change the row words only. -/
theorem foldl_rowWrites (rows : Eight (BitVec 16)) (s : State) :
    (rowWrites rows).foldl State.store s = s.setRows rows := by
  have hstore : ∀ (v : Eight (BitVec 16)) (x : Fin 8 × BitVec 16),
      (s.setRows v).store (.tileRow x.1, x.2.zeroExtend 32) = s.setRows (v.set x.1 x.2) := fun v x =>
    congrArg (fun w => s.setRows (v.set x.1 w)) (extract_zeroExtend (by decide) x.2)
  change (rowWrites rows).foldl State.store (s.setRows s.te.tileRow) = _
  rw [rowWrites, List.foldl_map]
  exact (List.foldl_hom s.setRows hstore).trans (congrArg s.setRows (foldl_set_rows s.te.tileRow rows))

/-- `settile` while no call runs (R72). -/
theorem run_setTile {s : State} (hb : s.busy = false) (rows : Eight (BitVec 16)) :
    Host.Core.run core 8 (s.withProgram (setTile rows)) = .next (s.setRows rows) := by
  have hws : ∀ w ∈ rowWrites rows, w.1.wellFormed = true ∧ w.1 ≠ .cmd := by
    rw [rowWrites, List.forall_mem_map]
    exact fun _ _ => ⟨rfl, nofun⟩
  rw [setTile_eq, ← foldl_rowWrites]
  exact run_writes hws hb

/-! ### `readout` -/

/-- What `readout` does for one offset: OUT_ADDR takes it, then OUT_DATA is read (R28, R72). -/
def State.readAt (a : Word) (s : State) : State :=
  { s with
    output.outAddr := a
    port := { rdata := some ((s.writeReg .outAddr a).readReg .outData), event := none, qreq := none } }

/-- The transactions of `readout` for a list of offsets. -/
def readsAt (as : List Nat) : List Instr :=
  as.flatMap fun a => [.wr .outAddr (BitVec.ofNat 32 a), .rd .outData]

/-- The two transactions of one offset. -/
theorem run_readsAt_cons {s : State} (hb : s.busy = false) (a : Nat) (p : List Instr) (k : Nat) :
    Host.Core.run core (k + 2) (s.withProgram (.wr .outAddr (BitVec.ofNat 32 a) :: .rd .outData :: p)) =
      Host.Core.run core k ((s.readAt (BitVec.ofNat 32 a)).withProgram p) := by
  rw [run_write rfl (by decide) _ _ hb]
  refine run_succ ?_ k
  rw [step_withProgram (decodeBus39_transaction_rd rfl)]
  rfl

/-- Offsets read one after the other leave what the last one leaves. -/
theorem run_readsAt (as : List Nat) (a : Nat) (p : List Instr) {s : State} (hb : s.busy = false) :
    Host.Core.run core (2 * as.length + 2) (s.withProgram (readsAt (as ++ [a]) ++ p)) =
      .next ((s.readAt (BitVec.ofNat 32 a)).withProgram p) := by
  induction as generalizing s with
  | nil => exact run_readsAt_cons hb a p 0
  | cons b as ih =>
    have hcons : readsAt (b :: as ++ [a]) ++ p =
        .wr .outAddr (BitVec.ofNat 32 b) :: .rd .outData :: (readsAt (as ++ [a]) ++ p) := rfl
    have hlen : 2 * (b :: as).length + 2 = 2 * as.length + 2 + 2 := by rw [List.length_cons]; omega
    rw [hcons, hlen, run_readsAt_cons hb]
    exact ih (s := s.readAt (BitVec.ofNat 32 b)) hb

/-- `readout n` reads the offsets below `a`, then `a`, then the rest. -/
theorem readOut_eq {a n : Nat} (h : a < n) : ∃ p, readOut n = readsAt (List.range a ++ [a]) ++ p := by
  obtain ⟨m, rfl⟩ := Nat.exists_eq_add_of_lt h
  refine ⟨readsAt ((List.range m).map (a + 1 + ·)), ?_⟩
  rw [readsAt, readsAt, ← List.flatMap_append, ← List.range_succ, ← List.range_add, Nat.add_right_comm]
  rfl

/-- The value read at an offset is the stream's byte there, 0 behind its end (R28). -/
theorem State.readAt_rdata (s : State) {a : Nat} (ha : a < 2 ^ 32) :
    (s.readAt (BitVec.ofNat 32 a)).port.rdata = some ((s.output.bytes.getD a 0).zeroExtend 32) := by
  have haddr : (BitVec.ofNat 32 a).toNat = a := by rw [BitVec.toNat_ofNat, Nat.mod_eq_of_lt ha]
  refine congrArg some ((State.readReg_outData _).trans ?_)
  change (if (BitVec.ofNat 32 a).toNat < s.output.byteCount.toNat
    then (s.output.bytes.getD (BitVec.ofNat 32 a).toNat 0).zeroExtend 32 else 0) = _
  rw [haddr]
  split
  · rfl
  · rw [List.getD_eq_default _ _ (by rw [Output.length_bytes]; omega)]
    rfl

end Sys2Proof.Machine

open Sys2Proof Sys2Proof.Machine in
/-- Settles O18: each of the three programs is run transaction by transaction; BUSY is bit 0 of STATUS. -/
theorem hostNotationDoesWhatItSays : Obligations.HostNotationDoesWhatItSays := by
  intro s
  refine ⟨congrArg (!·) (statusWord_getLsbD s 0), fun hb => ⟨fun n t colors hl => ?_, fun rows => ?_,
    fun n a ha hn => ?_⟩⟩
  · exact ⟨_, run_setPal hb n t hl, rfl, setColors_get _ _, rfl, rfl, rfl, rfl, rfl, rfl, rfl, rfl⟩
  · exact ⟨_, run_setTile hb rows, rfl, rfl, rfl, rfl, rfl, rfl, rfl, rfl⟩
  · obtain ⟨p, hp⟩ := readOut_eq ha
    have hrun := run_readsAt (List.range a) a p hb
    rw [List.length_range, ← hp] at hrun
    exact ⟨_, hrun, s.readAt_rdata (ha.trans_le hn), rfl, rfl, rfl, rfl, rfl, rfl, rfl⟩

/-! ## Brightness (R81) -/

namespace Sys2Proof.Machine

/-- The three channels of a colour are the bytes it is put together from (R70). -/
theorem luma_append (r g b : BitVec 8) : luma (r ++ g ++ b) = 299 * r.toNat + 587 * g.toNat + 114 * b.toNat := by
  have hr : (r ++ g ++ b).extractLsb' 16 8 = r :=
    (BitVec.extractLsb'_append_eq_of_le (by decide)).trans BitVec.extractLsb'_append_eq_left
  have hg : (r ++ g ++ b).extractLsb' 8 8 = g :=
    (BitVec.extractLsb'_append_eq_of_le (by decide)).trans BitVec.extractLsb'_append_eq_right
  have hb : (r ++ g ++ b).extractLsb' 0 8 = b := BitVec.extractLsb'_append_eq_right
  rw [luma, hr, hg, hb]

/-- No colour is brighter than white. -/
theorem luma_le (c : Color) : luma c ≤ 255000 := by
  have hr := (c.extractLsb' 16 8).isLt
  have hg := (c.extractLsb' 8 8).isLt
  have hb := (c.extractLsb' 0 8).isLt
  unfold luma
  omega

/-- The source's brightness is a thousandth of the integer one. -/
theorem sourceBrightness_eq (c : Color) : sourceBrightness c = luma c / 1000 := by
  rw [sourceBrightness, luma]
  push_cast
  ring

end Sys2Proof.Machine

open Sys2Proof Sys2Proof.Machine in
/-- Settles O21: scaling by a thousand keeps the order and the ties. -/
theorem lumaIsTheWeightedSum : Obligations.LumaIsTheWeightedSum := by
  refine ⟨luma_append, rfl, rfl, fun c => ⟨luma_le c, (luma_le c).trans_lt (by decide)⟩, fun c d => ⟨?_, ?_⟩⟩
  · rw [sourceBrightness_eq, sourceBrightness_eq, div_lt_div_iff_of_pos_right (by norm_num), Nat.cast_lt]
  · rw [sourceBrightness_eq, sourceBrightness_eq, div_left_inj' (by norm_num), Nat.cast_inj]

/-! ## The order of a normalised palette (R82, R83) -/

namespace Sys2Proof

open Sys2Proof.Machine

/-- The model's comparison decides the key order of R82. -/
theorem keyLt_iff (pal : Four Color) (i j : Index) : keyLt pal i j = true ↔ KeyLess pal i j := by
  simp [keyLt, KeyLess]

theorem KeyLess.trans {pal : Four Color} {i j k : Index} (h : KeyLess pal i j) (h' : KeyLess pal j k) :
    KeyLess pal i k := by
  unfold KeyLess at *
  omega

theorem KeyLess.asymm {pal : Four Color} {i j : Index} (h : KeyLess pal i j) : ¬ KeyLess pal j i := by
  unfold KeyLess at *
  omega

/-- Of two positions one has the smaller key (R82). -/
theorem KeyLess.of_ne {pal : Four Color} {i j : Index} (hne : i ≠ j) (h : ¬ KeyLess pal i j) : KeyLess pal j i := by
  have hpos : i.toNat ≠ j.toNat := fun e => hne (BitVec.eq_of_toNat_eq e)
  unfold KeyLess at *
  omega

/-- The model's insertion is the library's. -/
theorem insertByKey_eq (pal : Four Color) (i : Index) (l : List Index) :
    insertByKey pal i l = l.orderedInsert (fun i j => keyLt pal i j = true) i := by
  induction l with
  | nil => rfl
  | cons j l ih => rw [insertByKey, List.orderedInsert_cons, ih]

/-- The model's sort is the library's insertion sort. -/
theorem sortByKey_eq (pal : Four Color) (l : List Index) :
    sortByKey pal l = l.insertionSort (fun i j => keyLt pal i j = true) := by
  induction l with
  | nil => rfl
  | cons i l ih => rw [sortByKey, insertByKey_eq, ih, List.insertionSort_cons]

theorem sortByKey_perm (pal : Four Color) (l : List Index) : (sortByKey pal l).Perm l := by
  rw [sortByKey_eq]
  exact List.perm_insertionSort _ l

theorem mem_insertByKey {pal : Four Color} {i k : Index} {l : List Index} :
    k ∈ insertByKey pal i l ↔ k = i ∨ k ∈ l := by
  rw [insertByKey_eq, List.mem_orderedInsert]

/-- A new position put into a rising list leaves it rising. -/
theorem insertByKey_pairwise {pal : Four Color} {i : Index} {l : List Index} (hl : l.Pairwise (KeyLess pal))
    (hi : i ∉ l) : (insertByKey pal i l).Pairwise (KeyLess pal) := by
  induction l with
  | nil => exact List.pairwise_singleton _ i
  | cons j l ih =>
    obtain ⟨hne, hi⟩ := not_or.mp (mt List.mem_cons.mpr hi)
    obtain ⟨hj, hrest⟩ := List.pairwise_cons.mp hl
    rw [insertByKey]
    split
    case isTrue hlt =>
      have hij := (keyLt_iff pal i j).mp hlt
      exact List.pairwise_cons.mpr ⟨List.forall_mem_cons.mpr ⟨hij, fun k hk => hij.trans (hj k hk)⟩, hl⟩
    case isFalse hlt =>
      have hji := KeyLess.of_ne hne (mt (keyLt_iff pal i j).mpr hlt)
      refine List.pairwise_cons.mpr ⟨fun k hk => ?_, ih hrest hi⟩
      rcases mem_insertByKey.mp hk with rfl | hk
      · exact hji
      · exact hj k hk

/-- Sorting distinct positions leaves their keys rising (R82). -/
theorem sortByKey_pairwise (pal : Four Color) {l : List Index} (hl : l.Nodup) :
    (sortByKey pal l).Pairwise (KeyLess pal) := by
  induction l with
  | nil => exact .nil
  | cons i l ih =>
    obtain ⟨hi, hl⟩ := List.nodup_cons.mp hl
    exact insertByKey_pairwise (ih hl) (mt (sortByKey_perm pal l).mem_iff.mp hi)

theorem positions_nodup (n : Nat) : (positions n).Nodup :=
  List.Nodup.sublist (List.take_sublist n _) (by decide)

theorem mem_positions {n : Nat} (hn : n ≤ 4) (i : Index) : i ∈ positions n ↔ i.toNat < n := by
  have hall : ∀ n ≤ 4, ∀ i : Index, i ∈ positions n ↔ i.toNat < n := by decide
  exact hall n hn i

theorem length_positions {n : Nat} (hn : n ≤ 4) : (positions n).length = n :=
  List.length_take_of_le hn

/-- What `permutation` builds is the order R83 asks for. -/
theorem permutation_isNormalOrder {n : Nat} (hn : n ≤ 4) (pal : Four Color) {t : Option Index}
    (ht : ∀ ti, t = some ti → ti.toNat < n) : IsNormalOrder n pal t (permutation n pal t) := by
  cases t with
  | none =>
    have hperm := sortByKey_perm pal (positions n)
    exact
      { once := hperm.nodup_iff.mpr (positions_nodup n)
        exactly := fun i => hperm.mem_iff.trans (mem_positions hn i)
        plain := fun _ => sortByKey_pairwise pal (positions_nodup n)
        pinned := nofun }
  | some ti =>
    have hnodup : ((positions n).filter (· != ti)).Nodup := (positions_nodup n).filter _
    have hmem : ∀ i, i ∈ sortByKey pal ((positions n).filter (· != ti)) ↔ i.toNat < n ∧ i ≠ ti := fun i => by
      rw [(sortByKey_perm pal _).mem_iff, List.mem_filter, mem_positions hn, bne_iff_ne]
    have hti := ht ti rfl
    exact
      { once := List.nodup_cons.mpr ⟨by simp [hmem], (sortByKey_perm pal _).nodup_iff.mpr hnodup⟩
        exactly := fun i => by
          rw [permutation, List.mem_cons, hmem]
          by_cases hi : i = ti <;> simp [hi, hti]
        plain := nofun
        pinned := fun _ h => Option.some.inj h ▸ ⟨_, rfl, sortByKey_pairwise pal hnodup⟩ }

/-- `i` comes before `j` in a normalised palette: it is the transparent position, or `j` is not and `i` has the smaller
key (R83). -/
def Precedes (pal : Four Color) (t : Option Index) (i j : Index) : Prop :=
  t = some i ∨ t ≠ some j ∧ KeyLess pal i j

/-- Of two distinct positions at most one comes before the other. -/
theorem Precedes.antisymm {pal : Four Color} {t : Option Index} {i j : Index} (h : Precedes pal t i j)
    (h' : Precedes pal t j i) : i = j := by
  rcases h with h | ⟨hj, h⟩ <;> rcases h' with h' | ⟨hi, h'⟩
  · exact Option.some.inj (h.symm.trans h')
  · exact absurd h hi
  · exact absurd h' hj
  · exact absurd h' h.asymm

/-- Pinned or plain, a normal order goes by `Precedes`. -/
theorem IsNormalOrder.pairwise {n : Nat} {pal : Four Color} {t : Option Index} {perm : List Index}
    (h : IsNormalOrder n pal t perm) : perm.Pairwise (Precedes pal t) := by
  cases t with
  | none => exact (h.plain rfl).imp fun hk => .inr ⟨nofun, hk⟩
  | some ti =>
    obtain ⟨rest, rfl, hrest⟩ := h.pinned ti rfl
    have hti : ti ∉ rest := (List.nodup_cons.mp h.once).1
    refine List.pairwise_cons.mpr ⟨fun _ _ => .inl rfl, hrest.imp_of_mem fun _ hj hk => .inr ⟨?_, hk⟩⟩
    exact fun e => hti (Option.some.inj e ▸ hj)

/-- There is no other order R83 allows. -/
theorem IsNormalOrder.unique {n : Nat} {pal : Four Color} {t : Option Index} {perm other : List Index}
    (h : IsNormalOrder n pal t perm) (h' : IsNormalOrder n pal t other) : other = perm := by
  have hperm : other.Perm perm :=
    (List.perm_ext_iff_of_nodup h'.once h.once).mpr fun i => (h'.exactly i).trans (h.exactly i).symm
  exact hperm.eq_of_pairwise (fun _ _ _ _ => Precedes.antisymm) h'.pairwise h.pairwise

/-- A normal order has as many positions as the palette has entries. -/
theorem IsNormalOrder.length_eq {n : Nat} {pal : Four Color} {t : Option Index} {perm : List Index}
    (h : IsNormalOrder n pal t perm) (hn : n ≤ 4) : perm.length = n := by
  have hperm : perm.Perm (positions n) :=
    (List.perm_ext_iff_of_nodup h.once (positions_nodup n)).mpr fun i => (h.exactly i).trans (mem_positions hn i).symm
  exact hperm.length_eq.trans (length_positions hn)

/-- A normal order reads the palette's first `n` colours only (R85 (b)). -/
theorem IsNormalOrder.congr {n : Nat} {pal pal' : Four Color} {t : Option Index} {perm : List Index}
    (h : IsNormalOrder n pal t perm) (hpal : ∀ i : Index, i.toNat < n → pal'.at i = pal.at i) :
    IsNormalOrder n pal' t perm := by
  have hkey : ∀ i ∈ perm, ∀ j ∈ perm, KeyLess pal i j → KeyLess pal' i j := fun i hi j hj hk => by
    rw [KeyLess, hpal i ((h.exactly i).mp hi), hpal j ((h.exactly j).mp hj)]
    exact hk
  refine ⟨h.once, h.exactly, fun ht => (h.plain ht).imp_of_mem fun hi hj => hkey _ hi _ hj, fun ti ht => ?_⟩
  obtain ⟨rest, rfl, hrest⟩ := h.pinned ti ht
  exact ⟨rest, rfl, hrest.imp_of_mem fun hi hj =>
    hkey _ (List.mem_cons_of_mem ti hi) _ (List.mem_cons_of_mem ti hj)⟩

/-- The model's check of the transparent position is R84 (b). -/
theorem transpOutside_iff (n : Nat) (t : Option Index) :
    transpOutside n t = true ↔ ∃ ti, t = some ti ∧ n ≤ ti.toNat := by
  cases t <;> simp [transpOutside]

theorem normalizeError_of_overflow {n : Nat} (hn : 4 < n) (t : Option Index) :
    normalizeError n t = some .paletteOverflow :=
  if_pos hn

theorem normalizeError_of_outside {n : Nat} (hn : n ≤ 4) {t : Option Index} (ht : ∃ ti, t = some ti ∧ n ≤ ti.toNat) :
    normalizeError n t = some .contract := by
  rw [normalizeError, if_neg (by omega), if_pos ((transpOutside_iff n t).mpr ht)]

/-- The preconditions of R83: at most four entries, the transparent position one of them. -/
theorem normalizeError_eq_none (n : Nat) (t : Option Index) :
    normalizeError n t = none ↔ n ≤ 4 ∧ ∀ ti, t = some ti → ti.toNat < n := by
  have hinside : ¬ transpOutside n t = true ↔ ∀ ti, t = some ti → ti.toNat < n := by
    simp [transpOutside_iff]
  rw [← hinside, ← Nat.not_lt, normalizeError]
  by_cases hn : 4 < n
  · simp [hn]
  · cases transpOutside n t <;> simp [hn]

theorem normalizePalette_error {n : Nat} {pal : Four Color} {t : Option Index} {e : ErrorKind}
    (h : normalizeError n t = some e) : normalizePalette n pal t = .error e := by
  rw [normalizePalette, h]

/-- What `normalize` gives is the normal order, and its preconditions hold (R83). -/
theorem normalizePalette_eq_ok {n : Nat} {pal : Four Color} {t : Option Index} {perm : List Index} :
    normalizePalette n pal t = .ok perm ↔ normalizeError n t = none ∧ IsNormalOrder n pal t perm := by
  cases he : normalizeError n t with
  | some e => simp [normalizePalette_error he]
  | none =>
    obtain ⟨hn, ht⟩ := (normalizeError_eq_none n t).mp he
    have horder := permutation_isNormalOrder hn pal ht
    rw [normalizePalette, he]
    exact ⟨fun h => ⟨rfl, Except.ok.inj h ▸ horder⟩, fun h => congrArg Except.ok (h.2.unique horder)⟩

/-- In a list that goes by a relation, a member comes before another one that does not go before it. -/
theorem idxOf_lt_idxOf {α : Type} [DecidableEq α] {r : α → α → Prop} {l : List α} (hl : l.Pairwise r) {i j : α}
    (hi : i ∈ l) (hj : j ∈ l) (hne : i ≠ j) (hji : ¬ r j i) : l.idxOf i < l.idxOf j := by
  by_contra hle
  have hlt : l.idxOf j < l.idxOf i :=
    lt_of_le_of_ne (Nat.le_of_not_lt hle) fun e => hne ((List.idxOf_inj hj).mp e).symm
  have hr := List.pairwise_iff_getElem.mp hl _ _ (List.idxOf_lt_length_iff.mpr hj) (List.idxOf_lt_length_iff.mpr hi) hlt
  rw [List.getElem_idxOf, List.getElem_idxOf] at hr
  exact hji hr

/-- A list of at most four distinct positions and its inverse (R86). -/
theorem cmap_eq_iff {perm : List Index} (hnodup : perm.Nodup) (hlen : perm.length ≤ 4) {o : Index} (ho : o ∈ perm)
    (c : Index) : cmap perm o = c ↔ perm[c.toNat]? = some o := by
  have hlt : perm.idxOf o < perm.length := List.idxOf_lt_length_iff.mpr ho
  have hcmap : (cmap perm o).toNat = perm.idxOf o := Nat.mod_eq_of_lt (hlt.trans_le hlen)
  rw [← BitVec.toNat_inj, hcmap]
  constructor
  · intro h
    rw [← h, List.getElem?_idxOf ho]
  · intro h
    obtain ⟨hc, rfl⟩ := List.getElem?_eq_some_iff.mp h
    exact hnodup.idxOf_getElem c.toNat hc

end Sys2Proof

open Sys2Proof Sys2Proof.Machine in
/-- Settles O22: the insertion sort gives a normal order, and two normal orders are the same list. -/
theorem normalOrderIsUnique : Obligations.NormalOrderIsUnique := by
  refine fun n pal t => ⟨fun hn => normalizePalette_error (normalizeError_of_overflow hn t),
    fun hn ht => normalizePalette_error (normalizeError_of_outside hn ht), fun hn ht => ?_⟩
  have horder := permutation_isNormalOrder hn pal ht
  exact ⟨_, normalizePalette_eq_ok.mpr ⟨(normalizeError_eq_none n t).mpr ⟨hn, ht⟩, horder⟩, horder,
    fun _ => horder.unique⟩

open Sys2Proof Sys2Proof.Machine in
/-- Settles O23: each property is read off the normal order, (b) by its uniqueness. -/
theorem normalizeOrdersByBrightness : Obligations.NormalizeOrdersByBrightness := by
  intro n pal t perm h
  obtain ⟨hok, horder⟩ := normalizePalette_eq_ok.mp h
  have hn := ((normalizeError_eq_none n t).mp hok).1
  refine ⟨⟨horder.length_eq hn, horder.once, horder.exactly⟩,
    fun pal' hpal => normalizePalette_eq_ok.mpr ⟨hok, horder.congr hpal⟩, fun ti ht => ?_,
    fun i j hi hj _ htj hlt => ?_, fun ht d hd i hi => ?_⟩
  · obtain ⟨rest, rfl, -⟩ := horder.pinned ti ht
    rfl
  · have hkey : KeyLess pal i j := .inl hlt
    have hne : i ≠ j := fun e => hkey.asymm (e ▸ hkey)
    refine idxOf_lt_idxOf horder.pairwise hi hj hne ?_
    rintro (h | ⟨-, h⟩)
    · exact htj h
    · exact hkey.asymm h
  · obtain ⟨rest, rfl⟩ := List.head?_eq_some_iff.mp hd
    have hfirst := (List.pairwise_cons.mp (horder.plain ht)).1
    rcases List.mem_cons.mp hi with rfl | hi
    · exact .inr ⟨rfl, le_rfl⟩
    · exact (hfirst i hi).imp_right fun h => ⟨h.1, h.2.le⟩

open Sys2Proof Sys2Proof.Machine in
/-- Settles O24: a normal order names each position once, so the place where it is found is the only one. -/
theorem cmapInvertsThePermutation : Obligations.CmapInvertsThePermutation := by
  intro n pal t perm h o c ho _
  obtain ⟨hok, horder⟩ := normalizePalette_eq_ok.mp h
  have hn := ((normalizeError_eq_none n t).mp hok).1
  have hlen := horder.length_eq hn
  exact cmap_eq_iff horder.once (hlen.trans_le hn) ((horder.exactly o).mpr (ho.trans_eq hlen)) c

/-! ## NORMALIZE (R69, R87) -/

namespace Sys2Proof.Machine

/-- Four slots of two bits, and a field above them, taken apart. -/
theorem extract_slots (n : BitVec 3) (a b c d : Index) :
    (n ++ (d ++ (c ++ (b ++ a)))).extractLsb' 0 2 = a ∧ (n ++ (d ++ (c ++ (b ++ a)))).extractLsb' 2 2 = b ∧
      (n ++ (d ++ (c ++ (b ++ a)))).extractLsb' 4 2 = c ∧ (n ++ (d ++ (c ++ (b ++ a)))).extractLsb' 6 2 = d := by
  have below {v w start : Nat} {x : BitVec v} {y : BitVec w} (h : start + 2 ≤ w) :
      (x ++ y).extractLsb' start 2 = y.extractLsb' start 2 := BitVec.extractLsb'_append_eq_of_add_le h
  refine ⟨?_, ?_, ?_, ?_⟩
  · rw [below (by decide), below (by decide), below (by decide), BitVec.extractLsb'_append_eq_right]
  · rw [below (by decide), below (by decide), below (by decide), BitVec.extractLsb'_append_eq_left]
  · rw [below (by decide), below (by decide), BitVec.extractLsb'_append_eq_left]
  · rw [below (by decide), BitVec.extractLsb'_append_eq_left]

/-- Slot `c` of PERM holds the order's entry `c`, 0 if it has none (R69). -/
theorem packPerm_slot (perm : List Index) (c : Fin 4) :
    ((packPerm perm).zeroExtend 32).extractLsb' (2 * c.val) 2 = perm.getD c.val 0 := by
  obtain ⟨h0, h1, h2, h3⟩ :=
    extract_slots (BitVec.ofNat 3 perm.length) (perm.getD 0 0) (perm.getD 1 0) (perm.getD 2 0) (perm.getD 3 0)
  rw [BitVec.zeroExtend_eq_setWidth, BitVec.extractLsb'_setWidth_of_le (by omega), packPerm]
  fin_cases c
  · exact h0
  · exact h1
  · exact h2
  · exact h3

/-- Bits 10..8 of PERM hold the order's length (R69). -/
theorem packPerm_length {perm : List Index} {n : BitVec 3} (h : perm.length = n.toNat) :
    ((packPerm perm).zeroExtend 32).extractLsb' 8 3 = n := by
  have hfield : (packPerm perm).extractLsb' 8 3 = BitVec.ofNat 3 perm.length := BitVec.extractLsb'_append_eq_left
  rw [BitVec.zeroExtend_eq_setWidth, BitVec.extractLsb'_setWidth_of_le (by decide), hfield, h, BitVec.ofNat_toNat,
    BitVec.setWidth_eq]

/-- A register reads 0 above its field. -/
theorem extract_zeroExtend_above {n : Nat} (x : BitVec n) (len : Nat) : (x.zeroExtend 32).extractLsb' n len = 0 := by
  ext i hi
  simp

theorem State.acceptsCommand_iff (s : State) : s.acceptsCommand = true ↔ s.seq.phase = .idle ∨ s.seq.phase = .done := by
  simp [State.acceptsCommand]

/-- NORMALIZE on a palette it cannot normalise, between calls (R87). -/
theorem exec_normalize_of_error {s : State} (ha : s.acceptsCommand = true) {kind : ErrorKind}
    (he : normalizeError s.pn.palCtrl.palLen.toNat s.pn.palCtrl.transp = some kind) :
    exec .normalize s = .next (State.raise kind 0 { s with status.permValid := false }) := by
  rcases s.performNormalize_cases with ⟨e, he', hs⟩ | ⟨hnone, -⟩
  · obtain rfl : kind = e := Option.some.inj (he.symm.trans he')
    exact congrArg Host.Outcome.next ((if_pos ha).trans hs)
  · exact absurd (hnone.symm.trans he) nofun

/-- NORMALIZE on a legal palette, between calls (R87). -/
theorem exec_normalize_of_ok {s : State} (ha : s.acceptsCommand = true)
    (hok : normalizeError s.pn.palCtrl.palLen.toNat s.pn.palCtrl.transp = none) :
    exec .normalize s = .next
      { s with
        pn.perm := packPerm (permutation s.pn.palCtrl.palLen.toNat s.pn.pal s.pn.palCtrl.transp)
        status.permValid := true } := by
  rcases s.performNormalize_cases with ⟨_, he, -⟩ | ⟨-, hs⟩
  · exact absurd (hok.symm.trans he) nofun
  · exact congrArg Host.Outcome.next ((if_pos ha).trans hs)

/-- The designated transparent position is TRANSP_IDX, if TRANSP_EN is 1 (R13). -/
theorem PalCtrl.transp_eq_some {p : PalCtrl} {ti : Index} :
    p.transp = some ti ↔ p.transpEn = true ∧ p.transpIdx = ti := by
  simp [PalCtrl.transp]

end Sys2Proof.Machine

open Sys2Proof Sys2Proof.Machine in
/-- Settles O25: the accepted NORMALIZE packs the one normal order. -/
theorem normalizeWritesThePermutation : Obligations.NormalizeWritesThePermutation := by
  intro s hp hn htransp
  have ht : ∀ ti, s.pn.palCtrl.transp = some ti → ti.toNat < s.pn.palCtrl.palLen.toNat := fun ti h => by
    obtain ⟨hen, rfl⟩ := PalCtrl.transp_eq_some.mp h
    exact htransp hen
  have horder := permutation_isNormalOrder hn s.pn.pal ht
  exact ⟨_, _, exec_normalize_of_ok (s.acceptsCommand_iff.mpr hp) ((normalizeError_eq_none _ _).mpr ⟨hn, ht⟩), horder,
    packPerm_slot _, packPerm_length (horder.length_eq hn), extract_zeroExtend_above _ _,
    rfl, rfl, rfl, rfl, rfl, rfl, rfl, rfl, rfl, rfl⟩

open Sys2Proof Sys2Proof.Machine in
/-- Settles O26: either broken precondition is the error NORMALIZE finds, and it enters ERROR with it. -/
theorem normalizeRaises : Obligations.NormalizeRaises := by
  intro s hp kind hkind
  have he : normalizeError s.pn.palCtrl.palLen.toNat s.pn.palCtrl.transp = some kind := by
    rcases hkind with ⟨hn, rfl⟩ | ⟨hn, hen, hidx, rfl⟩
    · exact normalizeError_of_overflow hn _
    · exact normalizeError_of_outside hn ⟨_, PalCtrl.transp_eq_some.mpr ⟨hen, rfl⟩, hidx⟩
  exact ⟨_, exec_normalize_of_error (s.acceptsCommand_iff.mpr hp) he, rfl, rfl, rfl, rfl, rfl, rfl, rfl, rfl, rfl⟩

/-! ## Requests to the quantizer (R100, R124) -/

namespace Sys2Proof.Machine

/-- A tile's coordinate fits the request's 16 bits (R121, R124). -/
theorem toNat_tileCoordinate {n : Nat} (h : n ≤ 8191) : (BitVec.ofNat 16 (8 * n)).toNat = 8 * n :=
  Nat.mod_eq_of_lt (by omega)

/-- In either scan order the k-th region visited is a tile of the grid (R124). -/
theorem tileOrigin_inGrid (order : ScanOrder) {tilesX tilesY k : Nat} (hk : k < tilesX * tilesY) :
    ∃ tx ty, tx < tilesX ∧ ty < tilesY ∧
      tileOrigin order tilesX tilesY k = { x0 := BitVec.ofNat 16 (8 * tx), y0 := BitVec.ofNat 16 (8 * ty) } := by
  have hpos : 0 < tilesX * tilesY := k.zero_le.trans_lt hk
  cases order with
  | rowMajor =>
    exact ⟨k % tilesX, k / tilesX, Nat.mod_lt k (Nat.pos_of_mul_pos_right hpos), Nat.div_lt_of_lt_mul hk, rfl⟩
  | columnMajor =>
    exact ⟨k / tilesY, k % tilesY, Nat.div_lt_of_lt_mul (hk.trans_eq (Nat.mul_comm _ _)),
      Nat.mod_lt k (Nat.pos_of_mul_pos_left hpos), rfl⟩

/-- The soft-limit warning puts out no request. -/
theorem SoftWarned.qreq {s u : State} (h : SoftWarned s u) : u.port.qreq = s.port.qreq := by
  obtain rfl | ⟨-, rfl⟩ := h <;> rfl

/-- A tile step puts out its request, whatever the answer (R100). -/
theorem State.tileStep_qreq (s : State) : s.tileStep.port.qreq = some s.request := by
  rcases s.tileStep_effect with ⟨e, -, he⟩ | ⟨-, -, -, he⟩ | ⟨-, -, u, hu, he⟩ <;> rw [he]
  · rfl
  · rfl
  · exact hu.qreq

/-- A pad step puts out no request (R134). -/
theorem State.padStep_qreq (s : State) : s.padStep.port.qreq = s.port.qreq := by
  rcases s.padStep_effect with ⟨-, -, he⟩ | ⟨-, u, hu, he⟩ <;> rw [he]
  · rfl
  · exact hu.qreq

/-- Of the sequencer's turns the tile step alone puts out a request (R100, R136). -/
theorem State.sequence_qreq (s : State) :
    s.sequence.port.qreq = s.port.qreq ∨
      (s.seq.phase = .scan ∧ s.seq.tileCount.toNat < s.seq.nTiles.toNat ∧
        s.sequence.port.qreq = some s.request) := by
  rcases s.sequence_cases with ⟨he, -⟩ | ⟨hp, hlt, he⟩ | ⟨-, -, he⟩ | ⟨-, -, he⟩ | ⟨-, -, he⟩ <;> rw [he]
  · exact .inl rfl
  · exact .inr ⟨hp, hlt, s.tileStep_qreq⟩
  · exact .inl rfl
  · exact .inl s.padStep_qreq
  · exact .inl rfl

/-- No instruction puts out a request (R100). -/
theorem ExecEffect.qreq {s t : State} {i : Instr} (e : ExecEffect s i t) : t.port.qreq = s.port.qreq := by
  cases e with
  | nothing => rfl
  | read => rfl
  | write => rw [State.writeReg_port]
  | clear => rfl
  | normalize =>
    obtain ⟨-, -, -, -, -, ⟨-, hport, -⟩ | ⟨_, -, hport, -⟩⟩ := s.performNormalize_frame <;> rw [hport]
  | encodeTile =>
    obtain ⟨-, -, -, -, -, ⟨-, hport, -⟩ | ⟨-, hport, -⟩⟩ := s.performEncodeTile_frame <;> rw [hport]
  | start => rw [State.startCall_port]; split <;> rfl
  | illegal => rfl

/-- A step that puts out a request is a tile step, and the request is its own (R100). -/
theorem step_qreq {s t : State} {r : QReq} (h : step s = .next t) (hr : t.port.qreq = some r) :
    s.seq.phase = .scan ∧ s.seq.tileCount.toNat < s.seq.nTiles.toNat ∧ r = s.request := by
  cases step_effect h with
  | turn =>
    rcases s.taken.sequence_qreq with hq | ⟨hp, hlt, hq⟩
    · exact absurd (hr.symm.trans hq) nofun
    · exact ⟨hp, hlt, Option.some.inj (hr.symm.trans hq)⟩
  | instr _ _ _ effect => exact absurd (hr.symm.trans effect.qreq) nofun
  | reset => cases hr
  | image => cases hr

end Sys2Proof.Machine

namespace Sys2Proof

open Sys2Proof.Machine

/-- The request of a running call's next tile is for a tile of the latched image's grid (R121, R124). -/
theorem Inv.request_inGrid {s : State} (h : Inv s) (hp : s.seq.phase = .scan)
    (hlt : s.seq.tileCount.toNat < s.seq.nTiles.toNat) :
    ∃ tx ty, tx < s.latch.w.toNat / 8 ∧ ty < s.latch.h.toNat / 8 ∧
      s.request.x0.toNat = 8 * tx ∧ s.request.y0.toNat = 8 * ty := by
  obtain ⟨hx, hy, hn⟩ := h.geometry ((busy_iff s).mpr (.inl hp))
  obtain ⟨tx, ty, htx, hty, hreq⟩ := tileOrigin_inGrid s.latch.scanOrder (hlt.trans_eq hn)
  obtain ⟨hw, hh, -⟩ := grid_bound s.latch.w s.latch.h
  rw [hx] at htx
  rw [hy] at hty
  refine ⟨tx, ty, htx, hty, ?_, ?_⟩ <;> rw [State.request, hreq]
  · exact toNat_tileCoordinate (htx.le.trans hw)
  · exact toNat_tileCoordinate (hty.le.trans hh)

end Sys2Proof

open Sys2Proof Sys2Proof.Machine in
/-- Settles O56: a step with a request is the tile step, and the region it visits is a tile of the grid. -/
theorem requestsAreForWholeTiles : Obligations.RequestsAreForWholeTiles := by
  intro s t r hinv hs hr
  obtain ⟨hp, hlt, rfl⟩ := step_qreq hs hr
  obtain ⟨tx, ty, htx, hty, hx, hy⟩ := hinv.request_inGrid hp hlt
  exact ⟨hp, hlt, ⟨tx, ty, htx, hty, hx, hy⟩, by omega, by omega⟩

/-! ## A response that meets the contract (R102, R125, R126) -/

namespace Sys2Proof.Machine

/-- Some entry passes a test exactly when the entry at some position does. -/
theorem any_toList_iff {α : Type} (v : Eight α) (p : α → Bool) : v.toList.any p = true ↔ ∃ i, p (v.get i) = true := by
  constructor
  · intro h
    obtain ⟨x, hx, hp⟩ := List.any_eq_true.mp h
    obtain ⟨n, hn, rfl⟩ := List.mem_iff_getElem.mp hx
    exact ⟨⟨n, hn⟩, by rwa [← Eight.getElem_toList]⟩
  · rintro ⟨i, hp⟩
    rw [← Eight.getElem_toList] at hp
    exact List.any_eq_true.mpr ⟨_, List.getElem_mem _, hp⟩

/-- The model's check of the pixels is R102 (d) broken. -/
theorem pixelOutside_iff (q : QRsp) :
    pixelOutside q = true ↔ ∃ r c : Fin 8, q.palLen.toNat ≤ ((q.idx.get r).get c).toNat := by
  simp only [pixelOutside, any_toList_iff, decide_eq_true_eq]

/-- A response that meets the contract passes every check (R102, R125). -/
theorem responseError_of_contract {q : QRsp} (h : MeetsContract q) : responseError q = none := by
  have hshape : ¬ (!shapeOk q.rows q.cols) = true := by simp [shapeOk, h.shape]
  have htransp : ¬ transpOutside q.palLen.toNat q.transp = true := fun ht => by
    obtain ⟨ti, hti, hle⟩ := (transpOutside_iff _ _).mp ht
    exact (h.transparent ti hti).not_ge hle
  have hpixels : ¬ pixelOutside q = true := fun hp => by
    obtain ⟨r, c, hle⟩ := (pixelOutside_iff q).mp hp
    exact (h.pixels r c).not_ge hle
  rw [responseError, if_neg h.length.not_gt, if_neg hshape, if_neg htransp, if_neg hpixels]

/-- A canonical index names, through the normal order, the pixel's original index (R86, R126). -/
theorem permutation_canonicalGrid {q : QRsp} (h : MeetsContract q) (r c : Fin 8) :
    (permutation q.palLen.toNat q.pal q.transp)[(((canonicalGrid q).get r).get c).toNat]? =
      some ((q.idx.get r).get c) := by
  have horder := permutation_isNormalOrder h.length q.pal h.transparent
  rw [canonicalGrid, Eight.get_map, Eight.get_map]
  exact (cmap_eq_iff horder.once ((horder.length_eq h.length).trans_le h.length)
    ((horder.exactly _).mpr (h.pixels r c)) _).mp rfl

/-- A pixel is its two bits. -/
theorem ofBool_append_ofBool (x : Index) : BitVec.ofBool (x.getLsbD 1) ++ BitVec.ofBool (x.getLsbD 0) = x := by
  revert x
  decide

/-- A pixel decoded from the planes of a grid is the grid's pixel (R114). -/
theorem decodePixel_encodePlanes (grid : Eight (Eight Index)) (r c : Fin 8) :
    decodePixel ((encodePlanes grid).1.get r) ((encodePlanes grid).2.get r) c = (grid.get r).get c := by
  rw [decodePixel, encodePlanes_plane0, encodePlanes_plane1, ofBool_append_ofBool]

/-! ## A tile appended where the limit has room (R127, R129, R130) -/

/-- The soft-limit warning is given with the next tile: no hard limit, no warning yet, and the tile goes past 4096
bytes (R130). -/
abbrev SoftLimitDue (s : State) : Prop :=
  s.latch.limit.toNat = 0 ∧ s.status.warnSoft = false ∧ 4096 < s.output.byteCount.toNat + 16

/-- The state with the soft-limit warning given if it is due (R130). -/
def State.warned (s : State) : State :=
  if SoftLimitDue s then State.emit .softLimit { s with status.warnSoft := true } else s

/-- Given or not, the warning leaves a state AppendTile appends to. -/
theorem SoftWarned.warned (s : State) : SoftWarned s s.warned := by
  unfold State.warned
  split
  · next h => exact .inr ⟨h.1, rfl⟩
  · exact .inl rfl

/-- The warning is WARN_SOFT and its event (R130). -/
theorem State.warned_status_port (s : State) :
    if SoftLimitDue s
      then s.warned.status = { s.status with warnSoft := true } ∧ s.warned.port = { s.port with event := some .softLimit }
      else s.warned.status = s.status ∧ s.warned.port = s.port := by
  unfold State.warned
  split <;> exact ⟨rfl, rfl⟩

/-- With room under the limit AppendTile appends, after the warning if that is due (R129, R130). -/
theorem State.appendTile_of_room {s : State} (b : List Byte)
    (hroom : s.latch.limit.toNat = 0 ∨ s.output.byteCount.toNat + 16 ≤ s.latch.limit.toNat) :
    s.appendTile b = .ok (s.warned.outAppend b) := by
  rcases s.appendTile_cases b with ⟨hl, hx, -⟩ | ⟨hl, -, he⟩ | ⟨hl, hw, hx, he⟩ | ⟨-, hw, he⟩
  · omega
  · rw [he, State.warned, if_neg fun h => hl.ne' h.1]
  · rw [he, State.warned, if_pos ⟨hl, hw, hx⟩]
  · rw [he, State.warned, if_neg]
    rintro ⟨-, hw', hx⟩
    rcases hw with hw | hx'
    · exact absurd (hw'.symm.trans hw) Bool.false_ne_true
    · exact hx'.not_gt hx

/-- With a tile due the sequencer's turn is the tile step (R136). -/
theorem State.sequence_of_scan {s : State} (hp : s.seq.phase = .scan)
    (hlt : s.seq.tileCount.toNat < s.seq.nTiles.toNat) : s.sequence = s.tileStep := by
  rw [State.sequence, hp]
  exact if_pos hlt

/-- The tile step on a good response with room under the limit appends and counts the tile (R126, R127). -/
theorem State.tileStep_of_contract {s : State} (hq : MeetsContract (s.env.answer s.request))
    (hroom : s.latch.limit.toNat = 0 ∨ s.output.byteCount.toNat + 16 ≤ s.latch.limit.toNat) :
    s.tileStep = s.requested.warned.countTile (tileBytes s.latch.planeOrder (s.env.answer s.request)) := by
  have happend := s.requested.appendTile_of_room (tileBytes s.latch.planeOrder (s.env.answer s.request)) hroom
  rcases s.requested.takeResponse_cases (s.env.answer s.request) with ⟨e, he, -⟩ | ⟨-, t, ht, -⟩ | ⟨-, t, ht, h⟩
  · exact absurd ((responseError_of_contract hq).symm.trans he) nofun
  · exact absurd (happend.symm.trans ht) nofun
  · obtain rfl := AppendResult.ok.inj (happend.symm.trans ht)
    exact h

end Sys2Proof.Machine

namespace Sys2Proof

open Sys2Proof.Machine

/-- A tile counted stands behind the stream (R42, R127). -/
theorem Inv.countTile_bytes {s : State} (h : Inv s) {b : List Byte} (hb : b.length = 16) :
    (s.countTile b).output.bytes = s.output.bytes ++ b := by
  have hbound := h.output.bounded
  exact State.outAppend_bytes h.output.canonical (by omega)

end Sys2Proof

open Sys2Proof Sys2Proof.Machine in
/-- Settles O35: the tile step appends the planes of the canonical grid, whose pixels the normal order takes back to the
answer's. -/
theorem goodResponseAppendsItsTile : Obligations.GoodResponseAppendsItsTile := by
  intro s hinv hp hlt hq hroom
  have hu := SoftWarned.warned s.requested
  obtain ⟨hseq, hout, -, -⟩ := hu.frame
  have hinv' : Inv s.requested.warned :=
    (hinv.congr (.requested s)).softWarned (show s.seq.phase ≠ .idle by simp [hp]) hu
  have hlength := length_tileBytes s.latch.planeOrder (s.env.answer s.request)
  have hcount := (hinv'.countTile_counts (by rwa [hseq]) (by rwa [hseq]) hlength).1
  have hbytes := hinv'.countTile_bytes hlength
  rw [hout] at hcount hbytes
  have hstep : s.sequence = _ := (State.sequence_of_scan hp hlt).trans (State.tileStep_of_contract hq hroom)
  refine ⟨_, (encodePlanes (canonicalGrid (s.env.answer s.request))).1,
    (encodePlanes (canonicalGrid (s.env.answer s.request))).2,
    permutation_isNormalOrder hq.length _ hq.transparent, fun r c => ?_, ?_, ?_, ?_, ?_,
    s.sequence_frame.1, s.sequence_config, s.sequence_pn, s.sequence_te, s.sequence_frame.2, s.sequence_outAddr⟩
  · rw [decodePixel_encodePlanes]
    exact permutation_canonicalGrid hq r c
  · rw [hstep]
    exact hbytes
  · rw [hstep]
    exact hcount
  · rw [hstep, State.countTile_seq, hseq]
    rfl
  · rw [hstep]
    exact s.requested.warned_status_port

/-! ## A tile of the wrong shape (R112, R113) -/

namespace Sys2Proof.Machine

/-- The shape check passes exactly the 8 by 8 tile (R112). -/
theorem shapeOk_iff (rows cols : BitVec 5) : shapeOk rows cols = true ↔ rows.toNat = 8 ∧ cols.toNat = 8 := by
  simp [shapeOk, BitVec.toNat_eq]

/-- ENCODE_TILE on a grid of another shape, between calls (R113). -/
theorem exec_encodeTile_of_wrong_shape {s : State} (ha : s.acceptsCommand = true)
    (hshape : ¬ (s.te.tileShape.rows.toNat = 8 ∧ s.te.tileShape.cols.toNat = 8)) :
    exec .encodeTile s = .next (State.raise .shape 0 { s with status.planeValid := false }) := by
  rcases s.performEncodeTile_cases with ⟨-, he⟩ | ⟨hok, -⟩
  · exact congrArg Host.Outcome.next ((if_pos ha).trans he)
  · exact absurd ((shapeOk_iff _ _).mp hok) hshape

end Sys2Proof.Machine

open Sys2Proof Sys2Proof.Machine in
/-- Settles O28: the shape check fails, and fatal-error entry leaves the planes as they are. -/
theorem encodeTileRaisesShapeError : Obligations.EncodeTileRaisesShapeError := by
  intro s hp hshape
  exact ⟨_, exec_encodeTile_of_wrong_shape (s.acceptsCommand_iff.mpr hp) hshape,
    rfl, rfl, rfl, rfl, rfl, rfl, rfl, rfl, rfl⟩

/-! ## Decoding a tile's planes (R114) -/

namespace Sys2Proof.Machine

/-- The pixel that `decode_tile` has at a row and a column (R114). -/
@[simp] theorem decodeTile_get (p0 p1 : Eight Byte) (r c : Fin 8) :
    ((decodeTile p0 p1).get r).get c = decodePixel (p0.get r) (p1.get r) c := by
  rw [decodeTile, Eight.get_ofFn, Eight.get_ofFn]

/-- Two bits side by side are the upper one shifted left, or the lower one. -/
theorem ofBool_append_eq_shift_or (high low : Bool) :
    BitVec.ofBool high ++ BitVec.ofBool low =
      (BitVec.ofBool high).zeroExtend 2 <<< 1 ||| (BitVec.ofBool low).zeroExtend 2 := by
  revert high low
  decide

/-- Two bits side by side, read back. -/
theorem ofBool_append_bits (high low : Bool) :
    (BitVec.ofBool high ++ BitVec.ofBool low).getLsbD 0 = low ∧
      (BitVec.ofBool high ++ BitVec.ofBool low).getLsbD 1 = high := by
  revert high low
  decide

/-- Bit 0 of a decoded pixel is plane0's bit (R114). -/
theorem decodePixel_bit0 (p0 p1 : Byte) (c : Fin 8) :
    (decodePixel p0 p1 c).getLsbD 0 = p0.getLsbD (7 - c.val) :=
  (ofBool_append_bits _ _).1

/-- Bit 1 of a decoded pixel is plane1's bit (R114). -/
theorem decodePixel_bit1 (p0 p1 : Byte) (c : Fin 8) :
    (decodePixel p0 p1 c).getLsbD 1 = p1.getLsbD (7 - c.val) :=
  (ofBool_append_bits _ _).2

/-- A byte is given by its bits as the columns of a tile number them, the left-most in bit 7 (R66). -/
theorem byte_ext_columns {x y : Byte} (h : ∀ c : Fin 8, x.getLsbD (7 - c.val) = y.getLsbD (7 - c.val)) : x = y := by
  refine BitVec.eq_of_getLsbD_eq fun i hi => ?_
  have hc := h ⟨7 - i, by omega⟩
  rwa [show 7 - (7 - i) = i by omega] at hc

/-- Decoding the encoding of a grid gives the grid (R114). -/
theorem decodeTile_encodePlanes (grid : Eight (Eight Index)) :
    decodeTile (encodePlanes grid).1 (encodePlanes grid).2 = grid :=
  Eight.ext_get fun r => Eight.ext_get fun c => by rw [decodeTile_get, decodePixel_encodePlanes]

/-- Encoding the decoding of two planes gives the planes (R114). -/
theorem encodePlanes_decodeTile (p0 p1 : Eight Byte) : encodePlanes (decodeTile p0 p1) = (p0, p1) := by
  refine Prod.ext (Eight.ext_get fun r => byte_ext_columns fun c => ?_)
    (Eight.ext_get fun r => byte_ext_columns fun c => ?_)
  · rw [encodePlanes_plane0, decodeTile_get, decodePixel_bit0]
  · rw [encodePlanes_plane1, decodeTile_get, decodePixel_bit1]

end Sys2Proof.Machine

open Sys2Proof Sys2Proof.Machine in
/-- Settles O29: pixel by pixel a decoded tile holds the planes' bits, so encoding and decoding undo each other. -/
theorem tileRoundTrip : Obligations.TileRoundTrip :=
  ⟨fun p0 p1 r c => (decodeTile_get p0 p1 r c).trans (ofBool_append_eq_shift_or _ _), decodeTile_encodePlanes,
    encodePlanes_decodeTile⟩

/-! ## The sequencer's turn (R136, R179) -/

namespace Sys2Proof.Machine

/-- With no call running the sequencer has no enabled step (R136, R179). -/
theorem State.sequence_of_not_busy {s : State} (hb : s.busy = false) : s.sequence = s := by
  have hphase : ¬ (s.seq.phase = .scan ∨ s.seq.phase = .pad) := fun h => by simp [(busy_iff s).mpr h] at hb
  rcases s.sequence_cases with ⟨he, -⟩ | ⟨hp, -⟩ | ⟨hp, -⟩ | ⟨hp, -⟩ | ⟨hp, -⟩
  · exact he
  · exact absurd (.inl hp) hphase
  · exact absurd (.inl hp) hphase
  · exact absurd (.inr hp) hphase
  · exact absurd (.inr hp) hphase

/-- With no host move left a step is the sequencer's turn. -/
theorem step_of_no_moves {s : State} (h : s.env.inputs = []) : step s = .next s.clearPort.sequence := by
  simp only [step, h]

/-- With a host move to come a step performs it. -/
theorem step_of_move {s : State} {m : HostMove} {rest : List HostMove} (h : s.env.inputs = m :: rest) :
    step s = (s.clearPort.setInputs rest).perform m := by
  simp only [step, h]

end Sys2Proof.Machine

open Sys2Proof Sys2Proof.Machine in
/-- Settles O9: the two forms of a turn are read off the step, and no internal step is enabled between calls. -/
theorem sequencerTakesItsTurn : Obligations.SequencerTakesItsTurn :=
  fun _ => ⟨step_of_no_moves, fun _ h => step_of_move h, State.sequence_of_not_busy⟩

/-! ## Only a start makes the block busy (R136, R151) -/

namespace Sys2Proof.Machine

/-- BUSY depends on the phase alone. -/
theorem State.busy_congr {s t : State} (h : t.seq = s.seq) : t.busy = s.busy := by
  rw [State.busy, h]
  rfl

/-- An instruction after which a call runs where none did is a start. -/
theorem ExecEffect.starts {s t : State} {i : Instr} (e : ExecEffect s i t) (hs : s.busy = false)
    (ht : t.busy = true) : (i = .assemble ∨ i = .wr .cmd 3) ∧ t = s.startCall := by
  have idle_stays : t.seq = s.seq → t.busy = false := fun h => (State.busy_congr h).trans hs
  have error_is_idle : t.seq = { s.seq with phase := .error } → t.busy = false := fun h => by rw [State.busy, h]; rfl
  have hnot : t.busy ≠ false := by simp [ht]
  cases e with
  | nothing => exact absurd (idle_stays rfl) hnot
  | read => exact absurd (idle_stays rfl) hnot
  | write r v => exact absurd (idle_stays (s.writeReg_seq r v)) hnot
  | clear => exact absurd rfl hnot
  | normalize =>
    obtain ⟨-, -, -, -, -, ⟨hseq, -⟩ | ⟨_, hseq, -⟩⟩ := s.performNormalize_frame
    · exact absurd (idle_stays hseq) hnot
    · exact absurd (error_is_idle hseq) hnot
  | encodeTile =>
    obtain ⟨-, -, -, -, -, ⟨hseq, -⟩ | ⟨hseq, -⟩⟩ := s.performEncodeTile_frame
    · exact absurd (idle_stays hseq) hnot
    · exact absurd (error_is_idle hseq) hnot
  | start instr => exact ⟨instr, rfl⟩
  | illegal => exact absurd (error_is_idle rfl) hnot

/-- A transmission of one of the two forms of a start is a start. -/
theorem NextIs.starts {s : State} {i : Instr} (h : NextIs s i) (hi : i = .assemble ∨ i = .wr .cmd 3) :
    NextStarts s := by
  obtain rfl | rfl := hi
  · exact .inl h
  · exact .inr h

/-- A transmission of one of the two forms of CLEAR clears. -/
theorem NextIs.clears {s : State} {i : Instr} (h : NextIs s i) (hi : i = .clear ∨ i = .wr .cmd 4) :
    NextClears s := by
  obtain rfl | rfl := hi
  · exact .inl h
  · exact .inr h

end Sys2Proof.Machine

open Sys2Proof Sys2Proof.Machine in
/-- Settles O54: of all a step can do only the instruction that starts a call makes the block busy. -/
theorem onlyAssembleStartsACall : Obligations.OnlyAssembleStartsACall := by
  intro s t hs hstep ht
  have hnot : t.busy ≠ false := by simp [ht]
  cases step_effect hstep with
  | turn => exact absurd ((congrArg State.busy (State.sequence_of_not_busy (s := s.taken) hs)).trans hs) hnot
  | instr i _ moves effect =>
    obtain ⟨hi, rfl⟩ := effect.starts hs ht
    exact ⟨NextIs.starts moves hi, congrArg Sequencing.phase s.taken.startCall_seq⟩
  | reset => exact absurd rfl hnot
  | image => exact absurd hs hnot

/-! ## The start of a call (R120 to R122) -/

namespace Sys2Proof

open Sys2Proof.Machine

/-- n_tiles holds the number of tiles of the latched image (R121). -/
theorem startCall_nTiles (s : State) : s.startCall.seq.nTiles.toNat = callTileCount s.config.latched := by
  have hbound := (grid_bound s.config.latched.w s.config.latched.h).2.2
  rw [State.startCall_seq, BitVec.toNat_ofNat, columns_toNat, tileRows_toNat]
  exact Nat.mod_eq_of_lt (by omega)

/-- The margin warning's condition (R122). -/
theorem margin_iff (l : Latch) : l.margin = true ↔ l.w.toNat % 8 ≠ 0 ∨ l.h.toNat % 8 ≠ 0 := by
  simp [Latch.margin]

/-- ASSEMBLE between calls is the start (R120, R151). -/
theorem exec_assemble {s : State} (hp : s.seq.phase = .idle ∨ s.seq.phase = .done) :
    exec .assemble s = .next s.startCall :=
  congrArg Host.Outcome.next (if_pos (s.acceptsCommand_iff.mpr hp))

end Sys2Proof

open Sys2Proof Sys2Proof.Machine in
/-- Settles O32, field group by field group of the start. -/
theorem assembleStartsACall : Obligations.AssembleStartsACall := by
  intro s hp
  have hmargin : s.config.latched.margin =
      decide (s.config.imgWidth.toNat % 8 ≠ 0 ∨ s.config.imgHeight.toNat % 8 ≠ 0) :=
    Bool.eq_iff_iff.mpr ((margin_iff _).trans decide_eq_true_iff.symm)
  have hlatch := s.startCall_latch
  have hseq := s.startCall_seq
  refine ⟨_, exec_assemble hp, congrArg Sequencing.phase hseq, congrArg Latch.scanOrder hlatch,
    congrArg Latch.planeOrder hlatch, congrArg Latch.legacy hlatch, congrArg Latch.mult hlatch,
    congrArg Latch.limit hlatch, congrArg Latch.w hlatch, congrArg Latch.h hlatch, by simp, by simp,
    congrArg Sequencing.tileCount hseq, congrArg Sequencing.padLeft hseq, ?_, ?_, startCall_nTiles s, ?_, ?_,
    s.startCall_config, s.startCall_pn, s.startCall_te, s.startCall_env, by simp⟩
  · rw [hseq]; exact columns_toNat _
  · rw [hseq]; exact tileRows_toNat _
  · rw [s.startCall_status, hmargin]
  · rw [s.startCall_port, hmargin]; simp only [decide_eq_true_eq]

/-! ## The scan orders (R123, R124) -/

namespace Sys2Proof.Machine

/-- The number a scan order gives the tile in column `tx` and row `ty` (R124). -/
def scanIndex (order : ScanOrder) (tilesX tilesY tx ty : Nat) : Nat :=
  match order with
  | .rowMajor => ty * tilesX + tx
  | .columnMajor => tx * tilesY + ty

/-- The request for the region of the tile in column `tx` and row `ty` (R100). -/
def tileRequest (tx ty : Nat) : QReq :=
  { x0 := BitVec.ofNat 16 (8 * tx), y0 := BitVec.ofNat 16 (8 * ty) }

/-- Different tiles of the largest grid have different regions. -/
theorem tileRequest_inj {tx ty tx' ty' : Nat} (hx : tx ≤ 8191) (hy : ty ≤ 8191) (hx' : tx' ≤ 8191)
    (hy' : ty' ≤ 8191) (h : tileRequest tx ty = tileRequest tx' ty') : tx = tx' ∧ ty = ty' := by
  obtain ⟨h0, h1⟩ := QReq.mk.inj h
  have h0' := congrArg BitVec.toNat h0
  have h1' := congrArg BitVec.toNat h1
  rw [toNat_tileCoordinate hx, toNat_tileCoordinate hx'] at h0'
  rw [toNat_tileCoordinate hy, toNat_tileCoordinate hy'] at h1'
  omega

/-- The k-th region visited is that of a tile of the grid whose number is k (R124). -/
theorem tileOrigin_eq_tileRequest (order : ScanOrder) {tilesX tilesY k : Nat} (hk : k < tilesX * tilesY) :
    ∃ tx ty, tx < tilesX ∧ ty < tilesY ∧ k = scanIndex order tilesX tilesY tx ty ∧
      tileOrigin order tilesX tilesY k = tileRequest tx ty := by
  have hpos : 0 < tilesX * tilesY := k.zero_le.trans_lt hk
  cases order with
  | rowMajor =>
    exact ⟨k % tilesX, k / tilesX, Nat.mod_lt k (Nat.pos_of_mul_pos_right hpos), Nat.div_lt_of_lt_mul hk,
      (Nat.div_add_mod' k tilesX).symm, rfl⟩
  | columnMajor =>
    exact ⟨k / tilesY, k % tilesY, Nat.div_lt_of_lt_mul (hk.trans_eq (Nat.mul_comm _ _)),
      Nat.mod_lt k (Nat.pos_of_mul_pos_left hpos), (Nat.div_add_mod' k tilesY).symm, rfl⟩

/-- A number made of a row and a place in it is within the grid, and the two are read back from it. -/
theorem mul_add_inGrid {i n j m : Nat} (hi : i < n) (hj : j < m) :
    i * m + j < n * m ∧ (i * m + j) / m = i ∧ (i * m + j) % m = j := by
  refine ⟨?_, ?_, (Nat.mul_add_mod_self_right i m j).trans (Nat.mod_eq_of_lt hj)⟩
  · calc i * m + j < i * m + m := Nat.add_lt_add_left hj _
      _ = (i + 1) * m := (Nat.succ_mul i m).symm
      _ ≤ n * m := Nat.mul_le_mul_right m hi
  · rw [Nat.mul_comm, Nat.mul_add_div (j.zero_le.trans_lt hj), Nat.div_eq_of_lt hj, Nat.add_zero]

/-- A tile of the grid is visited under its number (R124). -/
theorem tileOrigin_scanIndex (order : ScanOrder) {tilesX tilesY tx ty : Nat} (hx : tx < tilesX) (hy : ty < tilesY) :
    scanIndex order tilesX tilesY tx ty < tilesX * tilesY ∧
      tileOrigin order tilesX tilesY (scanIndex order tilesX tilesY tx ty) = tileRequest tx ty := by
  cases order with
  | rowMajor =>
    obtain ⟨hlt, hdiv, hmod⟩ := mul_add_inGrid hy hx
    exact ⟨hlt.trans_eq (Nat.mul_comm _ _), by simp only [scanIndex, tileOrigin, tileRequest, hdiv, hmod]⟩
  | columnMajor =>
    obtain ⟨hlt, hdiv, hmod⟩ := mul_add_inGrid hx hy
    exact ⟨hlt, by simp only [scanIndex, tileOrigin, tileRequest, hdiv, hmod]⟩

/-- No region is visited twice in one order (R124). -/
theorem tileOrigin_inj {order : ScanOrder} {tilesX tilesY k k' : Nat} (hX : tilesX ≤ 8191) (hY : tilesY ≤ 8191)
    (hk : k < tilesX * tilesY) (hk' : k' < tilesX * tilesY)
    (h : tileOrigin order tilesX tilesY k = tileOrigin order tilesX tilesY k') : k = k' := by
  obtain ⟨tx, ty, hx, hy, rfl, ho⟩ := tileOrigin_eq_tileRequest order hk
  obtain ⟨tx', ty', hx', hy', rfl, ho'⟩ := tileOrigin_eq_tileRequest order hk'
  rw [ho, ho'] at h
  obtain ⟨rfl, rfl⟩ := tileRequest_inj (by omega) (by omega) (by omega) (by omega) h
  rfl

/-- In a grid one tile wide or one tile high both orders number the tiles alike (R124). -/
theorem scanIndex_of_line {tilesX tilesY tx ty : Nat} (h : tilesX = 1 ∨ tilesY = 1) (hx : tx < tilesX)
    (hy : ty < tilesY) : scanIndex .rowMajor tilesX tilesY tx ty = scanIndex .columnMajor tilesX tilesY tx ty := by
  rcases h with rfl | rfl
  · obtain rfl : tx = 0 := by omega
    simp [scanIndex]
  · obtain rfl : ty = 0 := by omega
    simp [scanIndex]

end Sys2Proof.Machine

open Sys2Proof Sys2Proof.Machine in
/-- Settles O33: a tile's number and its region determine each other; in a grid at least two by two the second region
visited tells the orders apart. -/
theorem scanOrdersVisitEveryTileOnce : Obligations.ScanOrdersVisitEveryTileOnce := by
  intro tilesX tilesY hX hY
  refine ⟨fun k hk => tileOrigin_eq_tileRequest .rowMajor hk, fun k hk => tileOrigin_eq_tileRequest .columnMajor hk,
    fun order tx ty hx hy => ?_, fun hline k hk => ?_, fun hX2 hY2 => ⟨1, ?_, fun h => ?_⟩⟩
  · obtain ⟨hk, ho⟩ := tileOrigin_scanIndex order hx hy
    exact ⟨_, hk, ho, fun k' hk' h => tileOrigin_inj hX hY hk' hk h⟩
  · obtain ⟨tx, ty, hx, hy, rfl, ho⟩ := tileOrigin_eq_tileRequest .rowMajor hk
    rw [ho, scanIndex_of_line hline hx hy, (tileOrigin_scanIndex .columnMajor hx hy).2]
  · exact Nat.lt_of_lt_of_le (by decide) (Nat.mul_le_mul hX2 hY2)
  · have hrow : tileOrigin .rowMajor tilesX tilesY 1 = tileRequest 1 0 := by
      simp only [tileOrigin, Nat.mod_eq_of_lt hX2, Nat.div_eq_of_lt hX2]; rfl
    have hcol : tileOrigin .columnMajor tilesX tilesY 1 = tileRequest 0 1 := by
      simp only [tileOrigin, Nat.mod_eq_of_lt hY2, Nat.div_eq_of_lt hY2]; rfl
    exact absurd (hrow.symm.trans (h.trans hcol)) (by decide)

/-! ## AppendTile with room and without (R129 to R131) -/

namespace Sys2Proof.Machine

/-- The limit leaves room for sixteen more bytes, or there is none (R129). -/
abbrev HasRoom (s : State) : Prop :=
  s.latch.limit.toNat = 0 ∨ s.output.byteCount.toNat + 16 ≤ s.latch.limit.toNat

/-- There is no room exactly under a limit that the sum of R129 exceeds. -/
theorem not_hasRoom_iff (s : State) :
    ¬ HasRoom s ↔ 0 < s.latch.limit.toNat ∧ s.latch.limit.toNat < s.output.byteCount.toNat + 16 := by
  unfold HasRoom
  omega

/-- The state with the refusal of AppendTile recorded (R131). -/
def State.truncated (s : State) : State :=
  State.emit .truncation { s with status.trunc := true }

/-- Without room AppendTile refuses (R129). -/
theorem State.appendTile_of_full {s : State} (b : List Byte) (hfull : ¬ HasRoom s) :
    s.appendTile b = .truncated s.truncated := by
  obtain ⟨hl, hx⟩ := (not_hasRoom_iff s).mp hfull
  rw [State.appendTile, if_pos hl, if_pos hx]
  rfl

/-- The soft-limit warning leaves all but WARN_SOFT and the event (R130). -/
theorem State.warned_frame (s : State) :
    s.warned.seq = s.seq ∧ s.warned.output = s.output ∧ s.warned.latch = s.latch ∧ s.warned.config = s.config ∧
      s.warned.pn = s.pn ∧ s.warned.te = s.te ∧ s.warned.env = s.env := by
  unfold State.warned
  split <;> exact ⟨rfl, rfl, rfl, rfl, rfl, rfl, rfl⟩

@[simp] theorem State.warned_seq (s : State) : s.warned.seq = s.seq := s.warned_frame.1

@[simp] theorem State.warned_output (s : State) : s.warned.output = s.output := s.warned_frame.2.1

@[simp] theorem State.warned_latch (s : State) : s.warned.latch = s.latch := s.warned_frame.2.2.1

@[simp] theorem State.warned_env (s : State) : s.warned.env = s.env := s.warned_frame.2.2.2.2.2.2

/-- What is appended after the warning is what is appended without it. -/
theorem State.warned_outAppend_output (s : State) (b : List Byte) :
    (s.warned.outAppend b).output = (s.outAppend b).output := by
  rw [State.outAppend_output, s.warned_output, State.outAppend_output]

end Sys2Proof.Machine

open Sys2Proof Sys2Proof.Machine in
/-- Settles O36: without room the refusal, with room the warning if it is due and the append. -/
theorem appendTileFollowsTheSizePolicy : Obligations.AppendTileFollowsTheSizePolicy := by
  intro s b hb
  refine ⟨fun hl hx => State.appendTile_of_full b ((not_hasRoom_iff s).mpr ⟨hl, hx⟩), fun hwf hfits hroom => ?_⟩
  obtain ⟨-, -, -, hconfig, hpn, hte, -⟩ := s.warned_frame
  have hfits' : s.output.byteCount.toNat + b.length < 2 ^ 32 := hb ▸ hfits
  have hout := s.warned_outAppend_output b
  refine ⟨_, s.appendTile_of_room b hroom, ?_, ?_, ?_, fun a ha => ?_, ?_, s.warned_status_port,
    s.warned_seq, s.warned_latch, hconfig, hpn, hte, s.warned_env⟩
  · rw [hout]; exact State.outAppend_bytes hwf hfits'
  · rw [hout, State.outAppend_byteCount hfits', hb]
  · rw [hout]; exact Memory.wf_writeList hwf _ b
  · rw [hout, State.outAppend_output, Memory.read_writeList hwf, if_neg (by omega)]
  · rw [hout]; rfl

/-! ## What a turn of the sequencer does (R125 to R136) -/

namespace Sys2Proof.Machine

/-- The end of a call that the hard limit cuts off: TRUNC and its event, then DONE (R127, R131, R134). -/
def State.cut (s : State) : State :=
  s.truncated.endCall

/-- The quantizer's answer to the tile step's request. -/
abbrev State.reply (s : State) : QRsp :=
  s.env.answer s.request

/-- The sixteen bytes of the tile of that answer (R126). -/
abbrev State.replyBytes (s : State) : List Byte :=
  tileBytes s.latch.planeOrder s.reply

/-- An image tile that is appended is counted (R127). -/
theorem State.requested_warned_countTile_seq (b : List Byte) (s : State) :
    (s.requested.warned.countTile b).seq = { s.seq with tileCount := s.seq.tileCount + 1 } := by
  rw [State.countTile_seq, State.warned_seq]
  rfl

/-- A padding tile that is appended is taken off the padding to come (R134). -/
theorem State.warned_countPad_seq (b : List Byte) (s : State) :
    (s.warned.countPad b).seq = { s.seq with padLeft := s.seq.padLeft - 1 } := by
  rw [State.countPad_seq, State.warned_seq]

/-- What a turn of the sequencer does to the state `s`, each case with its guard. -/
inductive TurnEffect (s : State) : State → Prop
  | nothing (idle : s.busy = false ∨ (s.seq.phase = .scan ∧ s.seq.nTiles.toNat < s.seq.tileCount.toNat)) :
      TurnEffect s s
  | raised (phase : s.seq.phase = .scan) (left : s.seq.tileCount.toNat < s.seq.nTiles.toNat) {kind : ErrorKind}
      (bad : responseError s.reply = some kind) : TurnEffect s (s.requested.raise kind s.seq.tileCount)
  | tile (phase : s.seq.phase = .scan) (left : s.seq.tileCount.toNat < s.seq.nTiles.toNat)
      (good : responseError s.reply = none) (room : HasRoom s) :
      TurnEffect s (s.requested.warned.countTile s.replyBytes)
  | tileCut (phase : s.seq.phase = .scan) (left : s.seq.tileCount.toNat < s.seq.nTiles.toNat)
      (good : responseError s.reply = none) (full : ¬ HasRoom s) : TurnEffect s s.requested.cut
  | endOfScan (phase : s.seq.phase = .scan) (all : s.seq.tileCount.toNat = s.seq.nTiles.toNat) :
      TurnEffect s s.endOfScan
  | padding (phase : s.seq.phase = .pad) (left : 0 < s.seq.padLeft.toNat) (room : HasRoom s) :
      TurnEffect s (s.warned.countPad paddingTile)
  | padCut (phase : s.seq.phase = .pad) (left : 0 < s.seq.padLeft.toNat) (full : ¬ HasRoom s) : TurnEffect s s.cut
  | finish (phase : s.seq.phase = .pad) (none : s.seq.padLeft.toNat = 0) : TurnEffect s s.endCall

/-- A response that breaks a check raises (R125, R139). -/
theorem State.tileStep_of_error {s : State} {kind : ErrorKind} (h : responseError s.reply = some kind) :
    s.tileStep = s.requested.raise kind s.seq.tileCount := by
  simp only [State.tileStep, State.takeResponse, h]
  rfl

/-- A checked response's tile is appended and counted where there is room (R127). -/
theorem State.tileStep_of_room {s : State} (h : responseError s.reply = none) (hroom : HasRoom s) :
    s.tileStep = s.requested.warned.countTile s.replyBytes := by
  have happend := s.requested.appendTile_of_room s.replyBytes hroom
  rcases s.requested.takeResponse_cases s.reply with ⟨e, he, -⟩ | ⟨-, t, ht, -⟩ | ⟨-, t, ht, he⟩
  · exact absurd (h.symm.trans he) nofun
  · exact absurd (happend.symm.trans ht) nofun
  · obtain rfl := AppendResult.ok.inj (happend.symm.trans ht)
    exact he

/-- A checked response's tile ends the call where there is no room (R127, R131). -/
theorem State.tileStep_of_full {s : State} (h : responseError s.reply = none) (hfull : ¬ HasRoom s) :
    s.tileStep = s.requested.cut := by
  have happend := s.requested.appendTile_of_full s.replyBytes hfull
  rcases s.requested.takeResponse_cases s.reply with ⟨e, he, -⟩ | ⟨-, t, ht, he⟩ | ⟨-, t, ht, -⟩
  · exact absurd (h.symm.trans he) nofun
  · obtain rfl := AppendResult.truncated.inj (happend.symm.trans ht)
    exact he
  · exact absurd (happend.symm.trans ht) nofun

/-- A padding tile is appended where there is room (R134). -/
theorem State.padStep_of_room {s : State} (hroom : HasRoom s) : s.padStep = s.warned.countPad paddingTile := by
  simp only [State.padStep, s.appendTile_of_room paddingTile hroom]
  rfl

/-- A padding tile ends the call where there is no room (R134). -/
theorem State.padStep_of_full {s : State} (hfull : ¬ HasRoom s) : s.padStep = s.cut := by
  simp only [State.padStep, s.appendTile_of_full paddingTile hfull]
  rfl

/-- A turn of the sequencer does what the guard that holds says. -/
theorem TurnEffect.sequence_eq {s t : State} (e : TurnEffect s t) : s.sequence = t := by
  cases e with
  | nothing idle =>
    rcases idle with hb | ⟨hp, hlt⟩
    · exact State.sequence_of_not_busy hb
    · rw [State.sequence, hp]
      simp only [if_neg hlt.not_gt, if_neg hlt.ne']
  | raised hp hlt hr => exact (State.sequence_of_scan hp hlt).trans (State.tileStep_of_error hr)
  | tile hp hlt hr hroom => exact (State.sequence_of_scan hp hlt).trans (State.tileStep_of_room hr hroom)
  | tileCut hp hlt hr hfull => exact (State.sequence_of_scan hp hlt).trans (State.tileStep_of_full hr hfull)
  | endOfScan hp hall => rw [State.sequence, hp]; simp only [hall, lt_irrefl, if_false, if_true]
  | padding hp hleft hroom => rw [State.sequence, hp, ← State.padStep_of_room hroom]; exact if_pos hleft
  | padCut hp hleft hfull => rw [State.sequence, hp, ← State.padStep_of_full hfull]; exact if_pos hleft
  | finish hp hnone => rw [State.sequence, hp]; exact if_neg hnone.not_gt

/-- One of the guards holds. -/
theorem State.sequence_effect (s : State) : TurnEffect s s.sequence := by
  suffices h : ∃ t, TurnEffect s t by
    obtain ⟨t, e⟩ := h
    exact e.sequence_eq.symm ▸ e
  cases hp : s.seq.phase with
  | idle | done | error => exact ⟨_, .nothing (.inl (by simp [State.busy, hp]))⟩
  | scan =>
    rcases lt_trichotomy s.seq.tileCount.toNat s.seq.nTiles.toNat with hlt | hall | hgt
    · cases hr : responseError s.reply with
      | some kind => exact ⟨_, .raised hp hlt hr⟩
      | none =>
        by_cases hroom : HasRoom s
        · exact ⟨_, .tile hp hlt hr hroom⟩
        · exact ⟨_, .tileCut hp hlt hr hroom⟩
    · exact ⟨_, .endOfScan hp hall⟩
    · exact ⟨_, .nothing (.inr ⟨hp, hgt⟩)⟩
  | pad =>
    rcases Nat.eq_zero_or_pos s.seq.padLeft.toNat with hnone | hleft
    · exact ⟨_, .finish hp hnone⟩
    · by_cases hroom : HasRoom s
      · exact ⟨_, .padding hp hleft hroom⟩
      · exact ⟨_, .padCut hp hleft hroom⟩

end Sys2Proof.Machine

/-! ## A response that breaks the contract (R125, R139, R170) -/

namespace Sys2Proof.Machine

theorem responseError_of_overflow {q : QRsp} (h : 4 < q.palLen.toNat) :
    responseError q = some .paletteOverflow := by
  rw [responseError, if_pos h]

theorem responseError_of_shape {q : QRsp} (hlen : q.palLen.toNat ≤ 4)
    (h : ¬ (q.rows.toNat = 8 ∧ q.cols.toNat = 8)) : responseError q = some .shape := by
  have hshape : shapeOk q.rows q.cols = false := by simpa using mt (shapeOk_iff q.rows q.cols).mp h
  rw [responseError, if_neg hlen.not_gt, if_pos (by simp [hshape])]

/-- The checks of the two kinds of index come last, and either failing is a ContractViolation. -/
theorem responseError_of_index {q : QRsp} (hlen : q.palLen.toNat ≤ 4) (hshape : q.rows.toNat = 8 ∧ q.cols.toNat = 8)
    (h : (∃ ti, q.transp = some ti ∧ q.palLen.toNat ≤ ti.toNat) ∨
      ∃ r c : Fin 8, q.palLen.toNat ≤ ((q.idx.get r).get c).toNat) : responseError q = some .contract := by
  have hok : shapeOk q.rows q.cols = true := (shapeOk_iff _ _).mpr hshape
  rw [responseError, if_neg hlen.not_gt, if_neg (by simp [hok])]
  rcases h with ht | hp
  · rw [if_pos ((transpOutside_iff _ _).mpr ht)]
  · rw [if_pos ((pixelOutside_iff q).mpr hp), ite_self]

end Sys2Proof.Machine

open Sys2Proof Sys2Proof.Machine in
/-- Settles O34: the first broken check is the error the response gives, and the turn enters ERROR with it. -/
theorem badResponseEndsTheCall : Obligations.BadResponseEndsTheCall := by
  rintro s hp hlt q kind rfl hbad
  have hr : responseError s.reply = some kind := by
    rcases hbad with ⟨hlen, rfl⟩ | ⟨hlen, hshape, rfl⟩ | ⟨hlen, hrows, hcols, hidx, rfl⟩
    · exact responseError_of_overflow hlen
    · exact responseError_of_shape hlen hshape
    · exact responseError_of_index hlen ⟨hrows, hcols⟩ hidx
  rw [(TurnEffect.raised hp hlt hr).sequence_eq]
  exact ⟨rfl, rfl, rfl, rfl, rfl, rfl, rfl, rfl, rfl⟩

/-! ## The size policy in the call's turns (R130, R131) -/

open Sys2Proof Sys2Proof.Machine in
/-- Settles O37: an image tile and a padding tile are cut off alike. -/
theorem hardLimitEndsTheCall : Obligations.HardLimitEndsTheCall := by
  intro s hdue hl hx
  have hfull := (not_hasRoom_iff s).mpr ⟨hl, hx⟩
  rcases hdue with ⟨hp, hlt, hr⟩ | ⟨hp, hleft⟩
  · rw [(TurnEffect.tileCut hp hlt hr hfull).sequence_eq]
    exact ⟨rfl, rfl, rfl, rfl, rfl, rfl, rfl, rfl, rfl⟩
  · rw [(TurnEffect.padCut hp hleft hfull).sequence_eq]
    exact ⟨rfl, rfl, rfl, rfl, rfl, rfl, rfl, rfl, rfl⟩

namespace Sys2Proof.Machine

/-- The warning's event is on the port if the warning is due, or was there before. -/
theorem State.warned_event (s : State) (h : s.port.event = none) :
    s.warned.port.event = some .softLimit ↔ SoftLimitDue s := by
  unfold State.warned
  split
  · next hdue => exact iff_of_true rfl hdue
  · next hnot => exact iff_of_false (by simp [h]) hnot

/-- A request put out does not change whether the warning is due. -/
theorem State.requested_warned (s : State) : s.requested.warned = s.warned.requested := by
  by_cases h : SoftLimitDue s
  · rw [State.warned, if_pos (show SoftLimitDue s.requested from h), State.warned, if_pos h]
    rfl
  · rw [State.warned, if_neg (show ¬ SoftLimitDue s.requested from h), State.warned, if_neg h]

/-- WARN_SOFT is set after a warning that is due, and stays set after one given before. -/
theorem State.warned_warnSoft {s : State} (h : SoftLimitDue s ∨ s.status.warnSoft = true) :
    s.warned.status.warnSoft = true := by
  unfold State.warned
  split
  · rfl
  · next hnot => exact h.resolve_left hnot

theorem dueBytes_of_scan {s : State} (hp : s.seq.phase = .scan) : dueBytes s = s.replyBytes := by
  rw [dueBytes, hp]

theorem dueBytes_of_pad {s : State} (hp : s.seq.phase = .pad) : dueBytes s = paddingTile := by
  rw [dueBytes, hp]

theorem length_dueBytes (s : State) : (dueBytes s).length = 16 := by
  unfold dueBytes
  split
  · exact length_paddingTile
  · exact length_tileBytes _ _

/-- What is counted as a tile is appended as without its request. -/
theorem State.requested_countTile_output (s : State) (b : List Byte) :
    (s.requested.countTile b).output = (s.outAppend b).output := rfl

/-- A tile that is due, image tile or padding tile, is appended where there is room, after the warning if that is due
(R127, R130, R134). -/
theorem State.sequence_of_due {s : State} (hdue : AppendDue s) (hroom : HasRoom s) :
    s.sequence.status = s.warned.status ∧ s.sequence.port.event = s.warned.port.event ∧
      s.sequence.output = (s.outAppend (dueBytes s)).output := by
  rw [← s.warned_outAppend_output]
  rcases hdue with ⟨hp, hlt, hr⟩ | ⟨hp, hleft⟩
  · rw [(TurnEffect.tile hp hlt hr hroom).sequence_eq, s.requested_warned, dueBytes_of_scan hp]
    exact ⟨rfl, rfl, State.requested_countTile_output _ _⟩
  · rw [(TurnEffect.padding hp hleft hroom).sequence_eq, dueBytes_of_pad hp]
    exact ⟨State.countPad_status _ _, congrArg Port.event (State.countPad_port _ _), State.countPad_output _ _⟩

/-- A turn that appends no tile leaves WARN_SOFT and gives no soft-limit event (R130). -/
theorem TurnEffect.appends_or_keeps_warnSoft {s t : State} (e : TurnEffect s t) :
    (AppendDue s ∧ HasRoom s) ∨
      (t.status.warnSoft = s.status.warnSoft ∧ (s.port.event = none → t.port.event ≠ some .softLimit)) := by
  have quiet : s.port.event = none → s.port.event ≠ some .softLimit := fun h => by simp [h]
  cases e with
  | nothing => exact .inr ⟨rfl, quiet⟩
  | raised => exact .inr ⟨rfl, nofun⟩
  | tile hp hlt hr hroom => exact .inl ⟨.inl ⟨hp, hlt, hr⟩, hroom⟩
  | tileCut => exact .inr ⟨rfl, nofun⟩
  | endOfScan => exact .inr ⟨rfl, quiet⟩
  | padding hp hleft hroom => exact .inl ⟨.inr ⟨hp, hleft⟩, hroom⟩
  | padCut => exact .inr ⟨rfl, nofun⟩
  | finish => exact .inr ⟨rfl, quiet⟩

/-- The soft-limit event is given exactly when a tile is due and the warning with it (R130). -/
theorem State.sequence_softLimit_iff {s : State} (h : s.port.event = none) :
    s.sequence.port.event = some .softLimit ↔ AppendDue s ∧ SoftLimitDue s := by
  constructor
  · intro hevent
    obtain ⟨hdue, hroom⟩ :=
      s.sequence_effect.appends_or_keeps_warnSoft.resolve_right fun ⟨_, hquiet⟩ => hquiet h hevent
    exact ⟨hdue, (s.warned_event h).mp ((State.sequence_of_due hdue hroom).2.1.symm.trans hevent)⟩
  · rintro ⟨hdue, hsoft⟩
    exact (State.sequence_of_due hdue (.inl hsoft.1)).2.1.trans ((s.warned_event h).mpr hsoft)

/-- WARN_SOFT stays set (R130). -/
theorem State.sequence_warnSoft {s : State} (h : s.status.warnSoft = true) : s.sequence.status.warnSoft = true := by
  rcases s.sequence_effect.appends_or_keeps_warnSoft with ⟨hdue, hroom⟩ | ⟨hkeeps, -⟩
  · rw [(State.sequence_of_due hdue hroom).1]
    exact State.warned_warnSoft (.inr h)
  · exact hkeeps.trans h

/-- The bytes due land behind the stream: below the bound of R26 BYTE_COUNT does not wrap (R42). -/
theorem outAppend_dueBytes {s : State} (h : OutputInv s.output) :
    (s.outAppend (dueBytes s)).output.bytes = s.output.bytes ++ dueBytes s := by
  have hbound := h.bounded
  exact State.outAppend_bytes h.canonical (by rw [length_dueBytes]; omega)

end Sys2Proof.Machine

open Sys2Proof Sys2Proof.Machine in
/-- Settles O38: the warning is that of the tile appended, and no other turn gives it or takes WARN_SOFT back. -/
theorem softLimitWarnsOnce : Obligations.SoftLimitWarnsOnce := by
  intro s h
  refine ⟨State.sequence_softLimit_iff h, fun hevent => ?_, State.sequence_warnSoft⟩
  obtain ⟨hdue, hsoft⟩ := (State.sequence_softLimit_iff h).mp hevent
  obtain ⟨hstatus, -, hout⟩ := State.sequence_of_due hdue (.inl hsoft.1)
  refine ⟨?_, ?_, fun hinv => ?_⟩
  · rw [hstatus]; exact State.warned_warnSoft (.inl hsoft)
  · rw [hout, State.outAppend_output, length_dueBytes]; rfl
  · rw [hout]; exact outAppend_dueBytes hinv.output

/-! ## The padding (R132 to R134) -/

namespace Sys2Proof

open Sys2Proof.Machine

/-- Rounded up to a multiple, a number of tiles and the padding wanted (R132). -/
theorem add_padWanted {l : Latch} (hm : 1 < l.mult.toNat) (tiles bytes : Nat) :
    tiles + padWanted l tiles bytes = (tiles + l.mult.toNat - 1) / l.mult.toNat * l.mult.toNat := by
  rw [padWanted, if_pos hm]
  have hdiv := Nat.div_add_mod' (tiles + l.mult.toNat - 1) l.mult.toNat
  have hmod := Nat.mod_lt (tiles + l.mult.toNat - 1) (Nat.zero_lt_of_lt hm)
  omega

/-- Less padding is wanted than a whole multiple (R132). -/
theorem padWanted_lt_mult {l : Latch} (hm : 1 < l.mult.toNat) (tiles bytes : Nat) :
    padWanted l tiles bytes < l.mult.toNat := by
  have hround := add_padWanted hm tiles bytes
  have hdiv := Nat.div_mul_le_self (tiles + l.mult.toNat - 1) l.mult.toNat
  omega

/-- With no multiple the legacy bit, where it is in force, asks for the tiles up to 4096 bytes (R133). -/
theorem padWanted_legacy {l : Latch} (hm : l.mult.toNat ≤ 1) {bytes : Nat}
    (h : l.legacy = true ∧ l.limit.toNat = 0 ∧ bytes < 4096) (tiles : Nat) :
    padWanted l tiles bytes = (4096 - bytes) / 16 := by
  rw [padWanted, if_neg hm.not_gt, if_pos (by simpa [and_assoc] using h)]

/-- With no multiple and the legacy bit not in force no padding is wanted (R132, R133). -/
theorem padWanted_none {l : Latch} (hm : l.mult.toNat ≤ 1) {bytes : Nat}
    (h : ¬ (l.legacy = true ∧ l.limit.toNat = 0 ∧ bytes < 4096)) (tiles : Nat) : padWanted l tiles bytes = 0 := by
  rw [padWanted, if_neg hm.not_gt, if_neg (by simpa [and_assoc] using h)]

/-- The end of the scan sets pad_left to the padding wanted, which its 32 bits hold (R132). -/
theorem endOfScan_padLeft (s : State) :
    s.endOfScan.seq.padLeft.toNat = padWanted s.latch s.seq.tileCount.toNat s.output.byteCount.toNat := by
  have hle := padWanted_le s.latch s.seq.tileCount.toNat s.output.byteCount.toNat
  rw [State.endOfScan_seq, BitVec.toNat_ofNat]
  exact Nat.mod_eq_of_lt (by omega)

end Sys2Proof

open Sys2Proof Sys2Proof.Machine in
/-- Settles O39: the turn is the end-of-scan step, and its padding is the one wanted in each of the three cases. -/
theorem endOfScanComputesThePadding : Obligations.EndOfScanComputesThePadding := by
  intro s hp hall
  rw [(TurnEffect.endOfScan hp hall).sequence_eq, endOfScan_padLeft]
  refine ⟨rfl, fun hm => ?_, fun hm hleg hl hb => ?_, fun hm hnot => ?_, rfl, rfl, rfl, rfl, rfl, rfl, rfl, rfl⟩
  · have hlt := padWanted_lt_mult hm s.seq.tileCount.toNat s.output.byteCount.toNat
    have hround : (s.seq.tileCount.toNat + padWanted s.latch s.seq.tileCount.toNat s.output.byteCount.toNat) %
        s.latch.mult.toNat = 0 := by
      rw [add_padWanted hm, Nat.mul_mod_left]
    refine ⟨hround, hlt, fun hmultiple => ?_⟩
    rwa [Nat.add_mod, hmultiple, Nat.zero_add, Nat.mod_mod, Nat.mod_eq_of_lt hlt] at hround
  · have hwanted := padWanted_legacy hm ⟨hleg, hl, hb⟩ s.seq.tileCount.toNat
    exact ⟨hwanted, fun hwhole => by omega⟩
  · exact BitVec.eq_of_toNat_eq ((endOfScan_padLeft s).trans (padWanted_none hm hnot _))

open Sys2Proof Sys2Proof.Machine in
/-- Settles O40: the turn is the pad step with room, whose counters do not wrap in an invariant state. -/
theorem padStepAppendsZeros : Obligations.PadStepAppendsZeros := by
  intro s hinv hp hleft hroom
  have hdue : AppendDue s := .inr ⟨hp, hleft⟩
  have hcounts := hinv.countPad_counts hp hleft length_paddingTile
  rw [State.countPad_output, State.countPad_seq] at hcounts
  have happended := (State.sequence_of_due hdue hroom).2.2
  have hbytes := outAppend_dueBytes hinv.output
  rw [dueBytes_of_pad hp] at happended hbytes
  have hturn := (TurnEffect.padding hp hleft hroom).sequence_eq
  refine ⟨?_, ?_, ?_, ?_, s.sequence_outAddr, ?_, s.sequence_frame.1, s.sequence_config, s.sequence_pn, s.sequence_te,
    s.sequence_frame.2⟩
  · rw [happended]; exact hbytes
  · rw [happended]; exact hcounts.1
  · rw [hturn, State.warned_countPad_seq]; exact hcounts.2
  · rw [hturn, State.warned_countPad_seq]
  · rw [hturn, State.countPad_status, State.countPad_port]; exact s.warned_status_port

/-! ## The finished call (R135) -/

namespace Sys2Proof.Machine

/-- `t` holds the result that `s` holds: the output, the counters and the warnings, and OUT_VALID unless a fatal error
was entered (R135). -/
structure KeepsResult (s t : State) : Prop where
  out : t.output.out = s.output.out
  byteCount : t.output.byteCount = s.output.byteCount
  tileCount : t.seq.tileCount = s.seq.tileCount
  warnMargin : t.status.warnMargin = s.status.warnMargin
  warnSoft : t.status.warnSoft = s.status.warnSoft
  trunc : t.status.trunc = s.status.trunc
  valid : (t.seq.phase = s.seq.phase ∧ t.status.outValid = s.status.outValid) ∨
    (t.seq.phase = .error ∧ t.status.outValid = false)

/-- A state that agrees on the call keeps its result. -/
theorem KeepsResult.of_sameCall {s t : State} (h : SameCall s t) : KeepsResult s t := by
  obtain ⟨hseq, -, hout, hcount, p, q, hstatus⟩ := h
  exact ⟨hout, hcount, by rw [hseq], by rw [hstatus], by rw [hstatus], by rw [hstatus],
    .inl ⟨by rw [hseq], by rw [hstatus]⟩⟩

/-- Fatal-error entry keeps the result (R171). -/
theorem KeepsResult.raise {s t : State} (h : KeepsResult s t) (kind : ErrorKind) (info : Word) :
    KeepsResult s (t.raise kind info) :=
  ⟨h.out, h.byteCount, h.tileCount, h.warnMargin, h.warnSoft, h.trunc, .inr ⟨rfl, rfl⟩⟩

/-- NORMALIZE keeps the result (R87). -/
theorem KeepsResult.performNormalize (s : State) : KeepsResult s s.performNormalize := by
  rcases s.performNormalize_cases with ⟨e, -, he⟩ | ⟨-, he⟩ <;> rw [he]
  · have hsame : SameCall s { s with status.permValid := false } := ⟨rfl, rfl, rfl, rfl, _, _, rfl⟩
    exact (of_sameCall hsame).raise e 0
  · exact .of_sameCall ⟨rfl, rfl, rfl, rfl, _, _, rfl⟩

/-- ENCODE_TILE keeps the result (R113). -/
theorem KeepsResult.performEncodeTile (s : State) : KeepsResult s s.performEncodeTile := by
  rcases s.performEncodeTile_cases with ⟨-, he⟩ | ⟨-, he⟩ <;> rw [he]
  · have hsame : SameCall s { s with status.planeValid := false } := ⟨rfl, rfl, rfl, rfl, _, _, rfl⟩
    exact (of_sameCall hsame).raise .shape 0
  · exact .of_sameCall ⟨rfl, rfl, rfl, rfl, _, _, rfl⟩

/-- Every instruction but a start and CLEAR keeps the result. -/
theorem KeepsResult.exec {s t : State} {i : Instr} (e : ExecEffect s i t)
    (hstart : ¬ (i = .assemble ∨ i = .wr .cmd 3)) (hclear : ¬ (i = .clear ∨ i = .wr .cmd 4)) :
    KeepsResult s t := by
  cases e with
  | nothing => exact .of_sameCall ⟨rfl, rfl, rfl, rfl, _, _, rfl⟩
  | read => exact .of_sameCall ⟨rfl, rfl, rfl, rfl, _, _, rfl⟩
  | write r v => exact .of_sameCall (.writeReg s r v)
  | clear instr => exact absurd instr hclear
  | normalize => exact .performNormalize s
  | encodeTile => exact .performEncodeTile s
  | start instr => exact absurd instr hstart
  | illegal v =>
    have hsame : SameCall s s := ⟨rfl, rfl, rfl, rfl, _, _, rfl⟩
    exact (of_sameCall hsame).raise .illegalCommand v

/-- Every step between calls but a start, CLEAR and reset keeps the result (R135). -/
theorem KeepsResult.step {s t : State} (hb : s.busy = false) (h : Machine.step s = .next t) (hstart : ¬ NextStarts s)
    (hclear : ¬ NextClears s) (hreset : ¬ NextResets s) : KeepsResult s t := by
  cases step_effect h with
  | turn => rw [State.sequence_of_not_busy (s := s.taken) hb]; exact .of_sameCall (.taken s)
  | instr i _ moves effect =>
    have hkeeps : KeepsResult s.taken t :=
      .exec effect (mt (NextIs.starts moves) hstart) (mt (NextIs.clears moves) hclear)
    exact ⟨hkeeps.out, hkeeps.byteCount, hkeeps.tileCount, hkeeps.warnMargin, hkeeps.warnSoft, hkeeps.trunc,
      hkeeps.valid⟩
  | reset moves => exact absurd moves hreset
  | image => exact .of_sameCall ⟨rfl, rfl, rfl, rfl, _, _, rfl⟩

end Sys2Proof.Machine

open Sys2Proof Sys2Proof.Machine in
/-- Settles O41: with no padding left the turn is the end of the call, and between calls only what is excluded touches
the result. -/
theorem finishedCallKeepsItsResult : Obligations.FinishedCallKeepsItsResult := by
  refine ⟨fun s hp hnone => ?_, fun s t hp hstep hstart hclear hreset => ?_⟩
  · rw [(TurnEffect.finish hp hnone).sequence_eq]
    exact ⟨rfl, rfl, rfl⟩
  · have hb : s.busy = false := by simp [State.busy, hp]
    obtain ⟨hout, hcount, htiles, hmargin, hsoft, htrunc, hvalid⟩ := KeepsResult.step hb hstep hstart hclear hreset
    exact ⟨hout, hcount, htiles, hmargin, hsoft, htrunc, hp ▸ hvalid⟩

/-! ## The function `assemble`, step by step (R137)

What `append`, the loop over the tiles and the loop over the padding answer, case by case. -/

namespace Sys2Proof

open Sys2Proof.Machine

/-- The answer for the k-th region in scan order (R124, R137). -/
def callAnswer (answer : QReq → QRsp) (l : Latch) (k : Nat) : QRsp :=
  answer (tileOrigin l.scanOrder (l.w.toNat / 8) (l.h.toNat / 8) k)

/-- The bytes of the k-th tile (R126, R137). -/
def callTile (answer : QReq → QRsp) (l : Latch) (k : Nat) : List Byte :=
  tileBytes l.planeOrder (callAnswer answer l k)

/-- The limit leaves room for one more unit behind the output so far (R129). -/
abbrev CallRoom (l : Latch) (r : CallSoFar) : Prop :=
  l.limit.toNat = 0 ∨ r.out.length + 16 ≤ l.limit.toNat

/-- A unit appended, with the one soft-limit warning if it is due (R130). -/
def CallSoFar.append (l : Latch) (b : List Byte) (r : CallSoFar) : CallSoFar :=
  { r with
    out := r.out ++ b
    warnSoft := r.warnSoft || decide (l.limit.toNat = 0 ∧ 4096 < r.out.length + 16) }

theorem callAppend_of_room {l : Latch} {r : CallSoFar} (b : List Byte) (h : CallRoom l r) :
    callAppend l b r = .going (r.append l b) := by
  have hnot : ¬ (0 < l.limit.toNat ∧ l.limit.toNat < r.out.length + 16) := by omega
  obtain ⟨out, tiles, warnSoft, trunc⟩ := r
  rw [callAppend, if_neg hnot]
  cases warnSoft with
  | true => simp [CallSoFar.append]
  | false =>
    by_cases hsoft : l.limit.toNat = 0 ∧ 4096 < out.length + 16
    · simp [CallSoFar.append, hsoft]
    · rw [if_neg fun h => hsoft ⟨h.1, h.2.2⟩]
      simp only [CallSoFar.append, hsoft, decide_false, Bool.or_false]

theorem callAppend_of_full {l : Latch} {r : CallSoFar} (b : List Byte) (h : ¬ CallRoom l r) :
    callAppend l b r = .ended (.done { r with trunc := true }) := by
  have hx : 0 < l.limit.toNat ∧ l.limit.toNat < r.out.length + 16 := by omega
  rw [callAppend, if_pos hx]

/-- The call so far with one more tile counted (R127). -/
def CallSoFar.countTile (answer : QReq → QRsp) (l : Latch) (r : CallSoFar) : CallSoFar :=
  { r.append l (callTile answer l r.tiles) with tiles := r.tiles + 1 }

section Tiles

variable {answer : QReq → QRsp} {l : Latch} {r : CallSoFar} (n : Nat)

theorem callTiles_of_error {kind : ErrorKind} (h : responseError (callAnswer answer l r.tiles) = some kind) :
    callTiles answer l (n + 1) r = .ended (.error kind r) := by
  have h' : responseError (answer (tileOrigin l.scanOrder (l.w.toNat / 8) (l.h.toNat / 8) r.tiles)) = some kind := h
  simp only [callTiles, h']

theorem callTiles_of_room (h : responseError (callAnswer answer l r.tiles) = none) (hroom : CallRoom l r) :
    callTiles answer l (n + 1) r = callTiles answer l n (r.countTile answer l) := by
  have h' : responseError (answer (tileOrigin l.scanOrder (l.w.toNat / 8) (l.h.toNat / 8) r.tiles)) = none := h
  simp only [callTiles, h', callAppend_of_room _ hroom]
  rfl

theorem callTiles_of_full (h : responseError (callAnswer answer l r.tiles) = none) (hfull : ¬ CallRoom l r) :
    callTiles answer l (n + 1) r = .ended (.done { r with trunc := true }) := by
  have h' : responseError (answer (tileOrigin l.scanOrder (l.w.toNat / 8) (l.h.toNat / 8) r.tiles)) = none := h
  simp only [callTiles, h', callAppend_of_full _ hfull]

theorem callPad_of_room (hroom : CallRoom l r) :
    callPad l (n + 1) r = callPad l n (r.append l paddingTile) := by
  simp only [callPad, callAppend_of_room _ hroom]

theorem callPad_of_full (hfull : ¬ CallRoom l r) : callPad l (n + 1) r = .done { r with trunc := true } := by
  simp only [callPad, callAppend_of_full _ hfull]

end Tiles

/-- What is left of a call after the loop over the tiles: nothing if it ended there, else the padding (R137). -/
def callRest (l : Latch) : CallStage → CallEnd
  | .ended e => e
  | .going r => callPad l (padWanted l r.tiles r.out.length) r

/-- Nothing appended, counted or warned of yet (R120). -/
def CallSoFar.empty : CallSoFar :=
  { out := [], tiles := 0, warnSoft := false, trunc := false }

theorem assembleCall_eq (answer : QReq → QRsp) (l : Latch) :
    assembleCall answer l = callRest l (callTiles answer l (callTileCount l) .empty) := by
  unfold assembleCall
  split <;> next h => rw [CallSoFar.empty, h]; rfl

/-! ## What a call that ends in DONE has produced (R138) -/

/-- The bytes of the first `n` tiles. -/
def tilesOut (answer : QReq → QRsp) (l : Latch) : Nat → List Byte
  | 0 => []
  | n + 1 => tilesOut answer l n ++ callTile answer l n

theorem length_callTile (answer : QReq → QRsp) (l : Latch) (k : Nat) : (callTile answer l k).length = 16 :=
  length_tileBytes _ _

theorem length_tilesOut (answer : QReq → QRsp) (l : Latch) (n : Nat) : (tilesOut answer l n).length = 16 * n := by
  induction n with
  | zero => rfl
  | succ n ih => rw [tilesOut, List.length_append, ih, length_callTile]; omega

/-- Tile `i` stands at byte 16 i, whatever comes after the tiles (R44, R52). -/
theorem tilesOut_unit (answer : QReq → QRsp) (l : Latch) {i n : Nat} (h : i < n) (rest : List Byte) :
    ((tilesOut answer l n ++ rest).drop (16 * i)).take 16 = callTile answer l i := by
  induction n generalizing rest with
  | zero => omega
  | succ n ih =>
    rw [tilesOut, List.append_assoc]
    rcases Nat.lt_succ_iff_lt_or_eq.mp h with hlt | rfl
    · exact ih hlt _
    · rw [List.drop_left' (length_tilesOut ..), List.take_left' (length_callTile ..)]

/-- What a call has produced after some tiles and `pads` padding tiles: their bytes, the warning if they went past
4096 bytes, and no more than the limit allows (R129, R130, R134). -/
structure Produced (answer : QReq → QRsp) (l : Latch) (pads : Nat) (r : CallSoFar) : Prop where
  out : r.out = tilesOut answer l r.tiles ++ List.replicate (16 * pads) 0
  soft : r.warnSoft = true ↔ l.limit.toNat = 0 ∧ 4096 < r.out.length
  within : 0 < l.limit.toNat → r.out.length ≤ l.limit.toNat

section Produced

variable {answer : QReq → QRsp} {l : Latch} {pads : Nat} {r : CallSoFar}

theorem Produced.empty (answer : QReq → QRsp) (l : Latch) : Produced answer l 0 .empty :=
  ⟨rfl, by simp [CallSoFar.empty], fun _ => Nat.zero_le _⟩

theorem Produced.length (h : Produced answer l pads r) : r.out.length = 16 * (r.tiles + pads) := by
  rw [h.out, List.length_append, length_tilesOut, List.length_replicate]
  omega

/-- The warning and the limit after a unit is appended where there is room. -/
theorem Produced.append_soft_within (h : Produced answer l pads r) {b : List Byte} (hb : b.length = 16)
    (hroom : CallRoom l r) :
    ((r.append l b).warnSoft = true ↔ l.limit.toNat = 0 ∧ 4096 < (r.append l b).out.length) ∧
      (0 < l.limit.toNat → (r.append l b).out.length ≤ l.limit.toNat) := by
  have hlen : (r.append l b).out.length = r.out.length + 16 := by rw [← hb]; exact List.length_append
  rw [hlen]
  refine ⟨?_, fun hl => hroom.resolve_left hl.ne'⟩
  rw [show (r.append l b).warnSoft = true ↔ r.warnSoft = true ∨ (l.limit.toNat = 0 ∧ 4096 < r.out.length + 16) by
    simp [CallSoFar.append], h.soft]
  omega

theorem Produced.countTile (h : Produced answer l 0 r) (hroom : CallRoom l r) :
    Produced answer l 0 (r.countTile answer l) := by
  obtain ⟨hsoft, hwithin⟩ := h.append_soft_within (length_callTile answer l r.tiles) hroom
  refine ⟨?_, hsoft, hwithin⟩
  have hout : r.out = tilesOut answer l r.tiles := h.out.trans (List.append_nil _)
  show r.out ++ callTile answer l r.tiles = tilesOut answer l (r.tiles + 1) ++ []
  rw [hout, List.append_nil, tilesOut]

theorem Produced.pad (h : Produced answer l pads r) (hroom : CallRoom l r) :
    Produced answer l (pads + 1) (r.append l paddingTile) := by
  obtain ⟨hsoft, hwithin⟩ := h.append_soft_within length_paddingTile hroom
  refine ⟨?_, hsoft, hwithin⟩
  show r.out ++ List.replicate 16 0 = tilesOut answer l r.tiles ++ List.replicate (16 * (pads + 1)) 0
  rw [h.out, List.append_assoc, List.replicate_append_replicate, Nat.mul_succ]

end Produced

/-- What R138 rests on: a call that ends in DONE has produced all its tiles and all the padding wanted, or was cut off
by the limit before the last unit (R131, R135). -/
def DoneShape (answer : QReq → QRsp) (l : Latch) (r : CallSoFar) : Prop :=
  ∃ pads, Produced answer l pads r ∧
    ((r.trunc = false ∧ r.tiles = callTileCount l ∧ pads = padWanted l (callTileCount l) (16 * callTileCount l)) ∨
      (r.trunc = true ∧ ¬ CallRoom l r ∧ r.tiles + pads < callUnits l))

/-- The end of a call, if it is DONE, is of that shape. -/
def EndShape (answer : QReq → QRsp) (l : Latch) : CallEnd → Prop
  | .done r => DoneShape answer l r
  | .error _ _ => True

/-- The loop over the tiles has produced all of them, or has ended the call. -/
def TilesShape (answer : QReq → QRsp) (l : Latch) : CallStage → Prop
  | .going r => Produced answer l 0 r ∧ r.trunc = false ∧ r.tiles = callTileCount l
  | .ended e => EndShape answer l e

section Shape

variable {answer : QReq → QRsp} {l : Latch} {pads : Nat} {r : CallSoFar}

/-- A call cut off with units still wanted (R131). -/
theorem Produced.cut (h : Produced answer l pads r) (hfull : ¬ CallRoom l r) (hlt : r.tiles + pads < callUnits l) :
    DoneShape answer l { r with trunc := true } :=
  ⟨pads, ⟨h.out, h.soft, h.within⟩, .inr ⟨rfl, hfull, hlt⟩⟩

theorem callTiles_shape {n : Nat} (h : Produced answer l 0 r) (htrunc : r.trunc = false)
    (hn : r.tiles + n = callTileCount l) : TilesShape answer l (callTiles answer l n r) := by
  induction n generalizing r with
  | zero => exact ⟨h, htrunc, hn⟩
  | succ n ih =>
    cases hr : responseError (callAnswer answer l r.tiles) with
    | some kind => rw [callTiles_of_error n hr]; trivial
    | none =>
      by_cases hroom : CallRoom l r
      · rw [callTiles_of_room n hr hroom]
        exact ih (h.countTile hroom) htrunc ((Nat.succ_add_eq_add_succ _ _).trans hn)
      · rw [callTiles_of_full n hr hroom]
        exact h.cut hroom (by unfold callUnits; omega)

theorem callPad_shape {n : Nat} (h : Produced answer l pads r) (htrunc : r.trunc = false)
    (htiles : r.tiles = callTileCount l) (hn : pads + n = padWanted l (callTileCount l) (16 * callTileCount l)) :
    EndShape answer l (callPad l n r) := by
  induction n generalizing r pads with
  | zero => exact ⟨pads, h, .inl ⟨htrunc, htiles, hn⟩⟩
  | succ n ih =>
    by_cases hroom : CallRoom l r
    · rw [callPad_of_room n hroom]
      exact ih (h.pad hroom) htrunc htiles ((Nat.succ_add_eq_add_succ _ _).trans hn)
    · rw [callPad_of_full n hroom]
      exact h.cut hroom (by unfold callUnits; omega)

theorem assembleCall_shape (answer : QReq → QRsp) (l : Latch) : EndShape answer l (assembleCall answer l) := by
  rw [assembleCall_eq]
  have htiles := callTiles_shape (.empty answer l) rfl (Nat.zero_add (callTileCount l))
  cases hs : callTiles answer l (callTileCount l) .empty with
  | ended e => rwa [hs] at htiles
  | going r =>
    rw [hs] at htiles
    obtain ⟨hproduced, htrunc, hall⟩ := htiles
    refine callPad_shape hproduced htrunc hall ?_
    rw [hproduced.length, hall, Nat.zero_add, Nat.add_zero]

theorem doneShape_of_done (h : assembleCall answer l = .done r) : DoneShape answer l r := by
  have hshape := assembleCall_shape answer l
  rwa [h] at hshape

end Shape

end Sys2Proof

open Sys2Proof Sys2Proof.Machine in
/-- Settles O44: the units produced are all those wanted, or as many as the limit has room for. -/
theorem truncationIsExact : Obligations.TruncationIsExact := by
  intro answer l r hl h
  obtain ⟨pads, hproduced, hend⟩ := doneShape_of_done h
  have hlen := hproduced.length
  have hwithin := hproduced.within hl
  refine ⟨hwithin, ?_⟩
  rcases hend with ⟨htrunc, htiles, hpads⟩ | ⟨htrunc, hfull, hlt⟩
  · have hunits : callUnits l = r.tiles + pads := by rw [htiles, hpads]; rfl
    rw [htrunc, hunits]
    exact ⟨by omega, iff_of_false nofun (by omega)⟩
  · rw [htrunc]
    exact ⟨by omega, iff_of_true rfl (by omega)⟩

open Sys2Proof Sys2Proof.Machine in
/-- Settles O45: all the tiles and all the padding wanted, in each of its three cases. -/
theorem paddingIsExact : Obligations.PaddingIsExact := by
  intro answer l r h htrunc
  obtain ⟨pads, hproduced, ⟨-, htiles, hpads⟩ | ⟨hcut, -⟩⟩ := doneShape_of_done h
  · have hlen := hproduced.length
    rw [← htiles] at hpads
    refine ⟨htiles, fun hm => ?_, fun hm hleg hl => ?_, fun hm hnot => ?_, fun a ha => ?_⟩
    · rw [hlen, hpads, add_padWanted hm]; omega
    · by_cases hb : 16 * r.tiles < 4096
      · have hwanted := padWanted_legacy hm ⟨hleg, hl, hb⟩ r.tiles
        omega
      · have hwanted := padWanted_none (l := l) hm (fun h => hb h.2.2) r.tiles
        omega
    · have hwanted := padWanted_none (bytes := 16 * r.tiles) hm (fun h => hnot ⟨h.1, h.2.1⟩) r.tiles
      omega
    · rw [hproduced.out, List.getD_append_right _ _ _ _ (by rw [length_tilesOut]; exact ha)]
      rw [List.getD_eq_getElem?_getD, List.getElem?_getD_replicate_default_eq]
  · exact absurd (htrunc.symm.trans hcut) nofun

open Sys2Proof Sys2Proof.Machine in
/-- Settles O46: the output is the tiles in scan order, then padding. -/
theorem outputHoldsTheTilesInOrder : Obligations.OutputHoldsTheTilesInOrder := by
  intro answer l r h
  obtain ⟨pads, hproduced, -⟩ := doneShape_of_done h
  refine ⟨hproduced.soft, fun i hi => ?_⟩
  rw [hproduced.out]
  exact tilesOut_unit answer l hi _

/-! ## The two plane orders (R67, R138 (h)) -/

namespace Sys2Proof

open Sys2Proof.Machine

/-- `b` is whole units, each the unit of `a` with its two halves exchanged. -/
structure UnitsSwapped (a b : List Byte) : Prop where
  whole : a.length % 16 = 0
  length : b.length = a.length
  swapped : ∀ i j, j < 16 → b.getD (16 * i + j) 0 = a.getD (16 * i + (j + 8) % 16) 0

theorem UnitsSwapped.nil : UnitsSwapped [] [] := ⟨rfl, rfl, fun _ _ _ => rfl⟩

/-- Units exchanged behind units exchanged. -/
theorem UnitsSwapped.append {a b c d : List Byte} (h : UnitsSwapped a b) (h' : UnitsSwapped c d) :
    UnitsSwapped (a ++ c) (b ++ d) := by
  have hwhole := h.whole
  refine ⟨?_, ?_, fun i j hj => ?_⟩
  · rw [List.length_append, Nat.add_mod, hwhole, h'.whole]
  · rw [List.length_append, List.length_append, h.length, h'.length]
  · obtain ⟨k, hk⟩ : ∃ k, a.length = 16 * k := ⟨a.length / 16, by omega⟩
    have hk' : b.length = 16 * k := h.length.trans hk
    by_cases hi : i < k
    · rw [List.getD_append _ _ _ _ (by omega), List.getD_append _ _ _ _ (by omega)]
      exact h.swapped i j hj
    · rw [List.getD_append_right _ _ _ _ (by omega), List.getD_append_right _ _ _ _ (by omega), hk, hk']
      have hj' : 16 * i + j - 16 * k = 16 * (i - k) + j := by omega
      have hj'' : 16 * i + (j + 8) % 16 - 16 * k = 16 * (i - k) + (j + 8) % 16 := by omega
      rw [hj', hj'']
      exact h'.swapped (i - k) j hj

/-- The two planes of a tile in the two orders are one unit with its halves exchanged (R67). -/
theorem UnitsSwapped.planes (p q : Eight Byte) : UnitsSwapped (p.toList ++ q.toList) (q.toList ++ p.toList) := by
  refine ⟨by simp, by simp, fun i j hj => ?_⟩
  cases i with
  | zero => interval_cases j <;> rfl
  | succ i =>
    rw [List.getD_eq_default _ _ (by simp; omega), List.getD_eq_default _ _ (by simp; omega)]

theorem UnitsSwapped.tile (q : QRsp) : UnitsSwapped (tileBytes .lowThenHigh q) (tileBytes .highThenLow q) :=
  .planes _ _

theorem UnitsSwapped.padding : UnitsSwapped paddingTile paddingTile :=
  .planes ⟨0, 0, 0, 0, 0, 0, 0, 0⟩ ⟨0, 0, 0, 0, 0, 0, 0, 0⟩

/-- Two calls so far that differ in the halves of their units alone. -/
structure CallsSwapped (r r' : CallSoFar) : Prop where
  out : UnitsSwapped r.out r'.out
  tiles : r'.tiles = r.tiles
  warnSoft : r'.warnSoft = r.warnSoft
  trunc : r'.trunc = r.trunc

/-- Two calls that ended alike but for the halves of their units. -/
inductive EndsSwapped : CallEnd → CallEnd → Prop
  | done {r r' : CallSoFar} (h : CallsSwapped r r') : EndsSwapped (.done r) (.done r')
  | error (kind : ErrorKind) {r r' : CallSoFar} (h : CallsSwapped r r') : EndsSwapped (.error kind r) (.error kind r')

/-- Two calls that both go on, or have both ended, alike but for the halves of their units. -/
inductive StagesSwapped : CallStage → CallStage → Prop
  | going {r r' : CallSoFar} (h : CallsSwapped r r') : StagesSwapped (.going r) (.going r')
  | ended {e e' : CallEnd} (h : EndsSwapped e e') : StagesSwapped (.ended e) (.ended e')

/-- The configuration with another plane order. -/
abbrev Machine.Latch.withOrder (l : Latch) (o : PlaneOrder) : Latch :=
  { l with planeOrder := o }

section Swapped

variable {answer : QReq → QRsp} {l : Latch} {r r' : CallSoFar}

theorem CallsSwapped.empty : CallsSwapped .empty .empty := ⟨.nil, rfl, rfl, rfl⟩

theorem CallsSwapped.room_iff (h : CallsSwapped r r') (o o' : PlaneOrder) :
    CallRoom (l.withOrder o) r ↔ CallRoom (l.withOrder o') r' := by
  rw [CallRoom, CallRoom, h.out.length]

theorem CallsSwapped.append (h : CallsSwapped r r') {b b' : List Byte} (hb : UnitsSwapped b b') (o o' : PlaneOrder) :
    CallsSwapped (r.append (l.withOrder o) b) (r'.append (l.withOrder o') b') :=
  ⟨h.out.append hb, h.tiles, by simp only [CallSoFar.append, h.warnSoft, h.out.length], h.trunc⟩

theorem CallsSwapped.countTile (h : CallsSwapped r r') (answer : QReq → QRsp) (l : Latch) :
    CallsSwapped (r.countTile answer (l.withOrder .lowThenHigh)) (r'.countTile answer (l.withOrder .highThenLow)) := by
  have happend := h.append (l := l) (.tile (callAnswer answer l r.tiles)) .lowThenHigh .highThenLow
  refine ⟨?_, congrArg (· + 1) h.tiles, happend.warnSoft, h.trunc⟩
  have htile : callTile answer (l.withOrder .highThenLow) r'.tiles =
      tileBytes .highThenLow (callAnswer answer l r.tiles) := by rw [h.tiles]; rfl
  show UnitsSwapped _ (r'.out ++ callTile answer (l.withOrder .highThenLow) r'.tiles)
  rw [htile]
  exact happend.out

theorem CallsSwapped.cut (h : CallsSwapped r r') :
    EndsSwapped (.done { r with trunc := true }) (.done { r' with trunc := true }) :=
  .done ⟨h.out, h.tiles, h.warnSoft, rfl⟩

theorem callTiles_swapped (n : Nat) (h : CallsSwapped r r') :
    StagesSwapped (callTiles answer (l.withOrder .lowThenHigh) n r)
      (callTiles answer (l.withOrder .highThenLow) n r') := by
  induction n generalizing r r' with
  | zero => exact .going h
  | succ n ih =>
    have hsame : callAnswer answer (l.withOrder .highThenLow) r'.tiles =
        callAnswer answer (l.withOrder .lowThenHigh) r.tiles := by rw [h.tiles]; rfl
    cases hr : responseError (callAnswer answer (l.withOrder .lowThenHigh) r.tiles) with
    | some kind =>
      rw [callTiles_of_error n hr, callTiles_of_error n (hsame ▸ hr)]
      exact .ended (.error kind h)
    | none =>
      by_cases hroom : CallRoom (l.withOrder .lowThenHigh) r
      · rw [callTiles_of_room n hr hroom, callTiles_of_room n (hsame ▸ hr) ((h.room_iff _ _).mp hroom)]
        exact ih (h.countTile answer l)
      · rw [callTiles_of_full n hr hroom, callTiles_of_full n (hsame ▸ hr) (mt (h.room_iff _ _).mpr hroom)]
        exact .ended h.cut

theorem callPad_swapped (n : Nat) (h : CallsSwapped r r') :
    EndsSwapped (callPad (l.withOrder .lowThenHigh) n r) (callPad (l.withOrder .highThenLow) n r') := by
  induction n generalizing r r' with
  | zero => exact .done h
  | succ n ih =>
    by_cases hroom : CallRoom (l.withOrder .lowThenHigh) r
    · rw [callPad_of_room n hroom, callPad_of_room n ((h.room_iff _ _).mp hroom)]
      exact ih (h.append .padding _ _)
    · rw [callPad_of_full n hroom, callPad_of_full n (mt (h.room_iff _ _).mpr hroom)]
      exact h.cut

theorem StagesSwapped.rest {s s' : CallStage} (h : StagesSwapped s s') :
    EndsSwapped (callRest (l.withOrder .lowThenHigh) s) (callRest (l.withOrder .highThenLow) s') := by
  cases h with
  | going h =>
    rw [callRest, callRest, h.tiles, h.out.length]
    exact callPad_swapped (padWanted l _ _) h
  | ended h => exact h

/-- The same call in the two plane orders (R138 (h)). -/
theorem assembleCall_swapped (answer : QReq → QRsp) (l : Latch) :
    EndsSwapped (assembleCall answer (l.withOrder .lowThenHigh)) (assembleCall answer (l.withOrder .highThenLow)) := by
  rw [assembleCall_eq, assembleCall_eq]
  exact (callTiles_swapped (callTileCount l) .empty).rest

/-- A call that ends in DONE with the one plane order does so with the other (R138 (h)). -/
theorem assembleCall_swapped_done (h : assembleCall answer (l.withOrder .lowThenHigh) = .done r) :
    ∃ r', assembleCall answer (l.withOrder .highThenLow) = .done r' ∧ CallsSwapped r r' := by
  have hends := assembleCall_swapped answer l
  rw [h] at hends
  cases he : assembleCall answer (l.withOrder .highThenLow) with
  | error => rw [he] at hends; cases hends
  | done r' =>
    rw [he] at hends
    cases hends with
    | done hr => exact ⟨r', rfl, hr⟩

end Swapped

end Sys2Proof

open Sys2Proof Sys2Proof.Machine in
/-- Settles O47: the two calls go on and end alike, unit by unit. -/
theorem planeOrderExchangesTheHalves : Obligations.PlaneOrderExchangesTheHalves := by
  intro answer l r h
  obtain ⟨r', hr', hout, htiles, hsoft, htrunc⟩ := assembleCall_swapped_done h
  exact ⟨r', hr', htiles, hsoft, htrunc, hout.length, hout.swapped⟩

/-! ## Runs with no host move left (R136, log 2) -/

namespace Sys2Proof.Machine

/-- A step of the machine with no host move left: the outputs withdrawn, then the sequencer's turn. -/
def State.turn (s : State) : State :=
  s.clearPort.sequence

theorem State.turn_env (s : State) : s.turn.env = s.env :=
  s.clearPort.sequence_frame.2

/-- No turn changes the latch (R30). -/
theorem State.turns_latch (n : Nat) (s : State) : (State.turn^[n] s).latch = s.latch := by
  induction n generalizing s with
  | zero => rfl
  | succ n ih => exact (ih s.turn).trans s.clearPort.sequence_frame.1

/-- With no host move left every step of a run is a turn. -/
theorem run_turns {s : State} (h : s.env.inputs = []) (n : Nat) :
    Host.Core.run core n s = .next (State.turn^[n] s) := by
  induction n generalizing s with
  | zero => rfl
  | succ n ih => exact (run_succ (step_of_no_moves h) n).trans (ih ((congrArg Env.inputs s.turn_env).trans h))

end Sys2Proof.Machine

/-! ## Two calls in step (R140, R138 (h))

What the turns of a call read and write of their own, in two states; the plane order, and with it the bytes of the
output, may differ. -/

namespace Sys2Proof

open Sys2Proof.Machine

/-- Two calls stand at the same point with the same configuration but for the plane order, and if for that too, with
the same output. -/
structure InStep (s₁ s₂ : State) : Prop where
  seq : s₂.seq = s₁.seq
  latch : s₂.latch = s₁.latch.withOrder s₂.latch.planeOrder
  byteCount : s₂.output.byteCount = s₁.output.byteCount
  out : s₂.latch = s₁.latch → s₂.output.out = s₁.output.out
  warnMargin : s₂.status.warnMargin = s₁.status.warnMargin
  warnSoft : s₂.status.warnSoft = s₁.status.warnSoft
  trunc : s₂.status.trunc = s₁.status.trunc
  outValid : s₂.status.outValid = s₁.status.outValid
  answer : ∀ r, s₂.env.answer r = s₁.env.answer r

section InStep

variable {s₁ s₂ : State}

theorem InStep.limit (h : InStep s₁ s₂) : s₂.latch.limit = s₁.latch.limit := by
  rw [h.latch]

theorem InStep.hasRoom_iff (h : InStep s₁ s₂) : HasRoom s₂ ↔ HasRoom s₁ := by
  rw [HasRoom, HasRoom, h.limit, h.byteCount]

theorem InStep.request (h : InStep s₁ s₂) : s₂.request = s₁.request := by
  rw [State.request, State.request, h.seq, h.latch]

theorem InStep.reply (h : InStep s₁ s₂) : s₂.reply = s₁.reply := by
  rw [State.reply, State.reply, h.request, h.answer]

theorem InStep.clearPort (h : InStep s₁ s₂) : InStep s₁.clearPort s₂.clearPort :=
  ⟨h.seq, h.latch, h.byteCount, h.out, h.warnMargin, h.warnSoft, h.trunc, h.outValid, h.answer⟩

theorem InStep.requested (h : InStep s₁ s₂) : InStep s₁.requested s₂.requested :=
  ⟨h.seq, h.latch, h.byteCount, h.out, h.warnMargin, h.warnSoft, h.trunc, h.outValid, h.answer⟩

theorem InStep.raise (h : InStep s₁ s₂) (kind : ErrorKind) (info₁ info₂ : Word) :
    InStep (s₁.raise kind info₁) (s₂.raise kind info₂) :=
  ⟨by simp [h.seq], h.latch, h.byteCount, h.out, h.warnMargin, h.warnSoft, h.trunc, rfl, h.answer⟩

theorem InStep.endCall (h : InStep s₁ s₂) : InStep s₁.endCall s₂.endCall :=
  ⟨by simp [h.seq], h.latch, h.byteCount, h.out, h.warnMargin, h.warnSoft, h.trunc, rfl, h.answer⟩

theorem InStep.cut (h : InStep s₁ s₂) : InStep s₁.cut s₂.cut :=
  have htruncated : InStep s₁.truncated s₂.truncated :=
    ⟨h.seq, h.latch, h.byteCount, h.out, h.warnMargin, h.warnSoft, rfl, h.outValid, h.answer⟩
  htruncated.endCall

theorem InStep.endOfScan (h : InStep s₁ s₂) : InStep s₁.endOfScan s₂.endOfScan := by
  have hwanted : ∀ tiles bytes, padWanted s₂.latch tiles bytes = padWanted s₁.latch tiles bytes := by
    rw [h.latch]; exact fun _ _ => rfl
  exact ⟨by simp [h.seq, h.byteCount, hwanted], h.latch, h.byteCount, h.out, h.warnMargin, h.warnSoft, h.trunc,
    h.outValid, h.answer⟩

theorem InStep.warned (h : InStep s₁ s₂) : InStep s₁.warned s₂.warned := by
  have hdue : SoftLimitDue s₂ ↔ SoftLimitDue s₁ := by
    rw [SoftLimitDue, SoftLimitDue, h.limit, h.warnSoft, h.byteCount]
  unfold State.warned
  by_cases hd : SoftLimitDue s₁
  · rw [if_pos hd, if_pos (hdue.mpr hd)]
    exact ⟨h.seq, h.latch, h.byteCount, h.out, h.warnMargin, rfl, h.trunc, h.outValid, h.answer⟩
  · rw [if_neg hd, if_neg (mt hdue.mp hd)]
    exact h

theorem InStep.outAppend (h : InStep s₁ s₂) {b₁ b₂ : List Byte} (hlength : b₂.length = b₁.length)
    (hbytes : s₂.latch = s₁.latch → b₂ = b₁) : InStep (s₁.outAppend b₁) (s₂.outAppend b₂) where
  seq := h.seq
  latch := h.latch
  byteCount := by simp only [State.outAppend_output, h.byteCount, hlength]
  out hl := by simp only [State.outAppend_output, h.byteCount, h.out hl, hbytes hl]
  warnMargin := h.warnMargin
  warnSoft := h.warnSoft
  trunc := h.trunc
  outValid := h.outValid
  answer := h.answer

theorem InStep.countTile (h : InStep s₁ s₂) {b₁ b₂ : List Byte} (hlength : b₂.length = b₁.length)
    (hbytes : s₂.latch = s₁.latch → b₂ = b₁) : InStep (s₁.countTile b₁) (s₂.countTile b₂) := by
  have happend := h.outAppend hlength hbytes
  exact ⟨by simp [h.seq], h.latch, happend.byteCount, happend.out, h.warnMargin, h.warnSoft, h.trunc, h.outValid,
    h.answer⟩

theorem InStep.countPad (h : InStep s₁ s₂) (b : List Byte) : InStep (s₁.countPad b) (s₂.countPad b) := by
  have happend := h.outAppend (b₁ := b) rfl fun _ => rfl
  exact ⟨by simp [h.seq], h.latch, happend.byteCount, happend.out, h.warnMargin, h.warnSoft, h.trunc, h.outValid,
    h.answer⟩

/-- Calls in step take the same turn and stay in step. -/
theorem InStep.turnEffect (h : InStep s₁ s₂) {t₁ : State} (e : TurnEffect s₁ t₁) :
    ∃ t₂, TurnEffect s₂ t₂ ∧ InStep t₁ t₂ := by
  have hbytes : s₂.latch = s₁.latch → s₂.replyBytes = s₁.replyBytes := fun hl => by
    rw [State.replyBytes, State.replyBytes, hl, h.reply]
  have hlength : s₂.replyBytes.length = s₁.replyBytes.length :=
    (length_tileBytes ..).trans (length_tileBytes ..).symm
  have hwarned : s₂.requested.warned.latch = s₁.requested.warned.latch → s₂.replyBytes = s₁.replyBytes := by
    rw [State.warned_latch, State.warned_latch]; exact hbytes
  cases e with
  | nothing idle => exact ⟨_, .nothing (by rwa [State.busy_congr h.seq, h.seq]), h⟩
  | raised hp hlt hr =>
    exact ⟨_, .raised (by rwa [h.seq]) (by rwa [h.seq]) (by rwa [h.reply]), h.requested.raise _ _ _⟩
  | tile hp hlt hr hroom =>
    exact ⟨_, .tile (by rwa [h.seq]) (by rwa [h.seq]) (by rwa [h.reply]) (h.hasRoom_iff.mpr hroom),
      h.requested.warned.countTile hlength hwarned⟩
  | tileCut hp hlt hr hfull =>
    exact ⟨_, .tileCut (by rwa [h.seq]) (by rwa [h.seq]) (by rwa [h.reply]) (mt h.hasRoom_iff.mp hfull),
      h.requested.cut⟩
  | endOfScan hp hall => exact ⟨_, .endOfScan (by rwa [h.seq]) (by rwa [h.seq]), h.endOfScan⟩
  | padding hp hleft hroom =>
    exact ⟨_, .padding (by rwa [h.seq]) (by rwa [h.seq]) (h.hasRoom_iff.mpr hroom), h.warned.countPad _⟩
  | padCut hp hleft hfull =>
    exact ⟨_, .padCut (by rwa [h.seq]) (by rwa [h.seq]) (mt h.hasRoom_iff.mp hfull), h.cut⟩
  | finish hp hnone => exact ⟨_, .finish (by rwa [h.seq]) (by rwa [h.seq]), h.endCall⟩

theorem InStep.sequence (h : InStep s₁ s₂) : InStep s₁.sequence s₂.sequence := by
  obtain ⟨t₂, e, ht⟩ := h.turnEffect s₁.sequence_effect
  rwa [e.sequence_eq]

theorem InStep.turns (h : InStep s₁ s₂) (n : Nat) : InStep (State.turn^[n] s₁) (State.turn^[n] s₂) := by
  induction n generalizing s₁ s₂ with
  | zero => exact h
  | succ n ih => exact ih h.clearPort.sequence

/-- Two starts with configurations that differ in the plane order at most are in step (R120). -/
theorem InStep.startCall (hconfig : s₂.config.latched = s₁.config.latched.withOrder s₂.config.latched.planeOrder)
    (hanswer : ∀ r, s₂.env.answer r = s₁.env.answer r) : InStep s₁.startCall s₂.startCall where
  seq := by rw [State.startCall_seq, State.startCall_seq, hconfig]; rfl
  latch := by simpa using hconfig
  byteCount := by simp
  out _ := by simp
  warnMargin := by rw [State.startCall_status, State.startCall_status, hconfig]; rfl
  warnSoft := by simp
  trunc := by simp
  outValid := by simp
  answer := by simpa using hanswer

end InStep

end Sys2Proof

open Sys2Proof Sys2Proof.Machine in
/-- Settles O43: the two starts are in step, and every turn keeps them so. -/
theorem callsAreIndependent : Obligations.CallsAreIndependent := by
  intro s₁ s₂ hp₁ hp₂ hi₁ hi₂ hanswer hconfig n
  have hstart : InStep s₁.startCall s₂.startCall :=
    .startCall (by rw [hconfig]) fun r => (hanswer r).symm
  have h := hstart.turns n
  refine ⟨_, _, _, _, exec_assemble hp₁, exec_assemble hp₂, run_turns (by simpa using hi₁) n,
    run_turns (by simpa using hi₂) n, (h.out ?_).symm, h.byteCount.symm, h.seq.symm, h.warnMargin.symm,
    h.warnSoft.symm, h.trunc.symm, h.outValid.symm⟩
  rw [State.turns_latch, State.turns_latch, State.startCall_latch, State.startCall_latch, hconfig]

/-! ## The machine computes `assemble` (R137)

What a state of a running call will end as is a function of the state that no turn changes; at the start it is what
`assemble` gives, and at the end what the state holds. -/

namespace Sys2Proof

open Sys2Proof.Machine

/-- What the call has produced so far, as the registers hold it. -/
def Machine.State.soFar (s : State) : CallSoFar where
  out := s.output.bytes
  tiles := s.seq.tileCount.toNat
  warnSoft := s.status.warnSoft
  trunc := s.status.trunc

/-- How the call that stands at a state will end, by the loops of R137 from there on. -/
def Machine.State.outcome (s : State) : CallEnd :=
  match s.seq.phase, s.status.errCode with
  | .scan, _ =>
    callRest s.latch (callTiles s.env.answer s.latch (s.seq.nTiles.toNat - s.seq.tileCount.toNat) s.soFar)
  | .pad, _ => callPad s.latch s.seq.padLeft.toNat s.soFar
  | .error, some kind => .error kind s.soFar
  | _, _ => .done s.soFar

section Outcome

variable {s t : State}

theorem outcome_of_scan (hp : s.seq.phase = .scan) : s.outcome =
    callRest s.latch (callTiles s.env.answer s.latch (s.seq.nTiles.toNat - s.seq.tileCount.toNat) s.soFar) := by
  rw [State.outcome, hp]

theorem outcome_of_pad (hp : s.seq.phase = .pad) : s.outcome = callPad s.latch s.seq.padLeft.toNat s.soFar := by
  rw [State.outcome, hp]

theorem outcome_of_done (hp : s.seq.phase = .done) : s.outcome = .done s.soFar := by
  rw [State.outcome, hp]

theorem outcome_of_error (hp : s.seq.phase = .error) {kind : ErrorKind} (he : s.status.errCode = some kind) :
    s.outcome = .error kind s.soFar := by
  rw [State.outcome, hp, he]

/-- The machine and `append` of R137 find room alike. -/
theorem hasRoom_iff_callRoom (s : State) : HasRoom s ↔ CallRoom s.latch s.soFar := by
  rw [HasRoom, CallRoom, State.soFar, Output.length_bytes]

/-- The answer that R137 asks for is the reply to the machine's request (R121, R124). -/
theorem Inv.callAnswer_eq (h : Inv s) (hp : s.seq.phase = .scan) :
    callAnswer s.env.answer s.latch s.soFar.tiles = s.reply := by
  obtain ⟨hx, hy, -⟩ := h.geometry ((busy_iff s).mpr (.inl hp))
  rw [callAnswer, State.reply, State.request, hx, hy]
  rfl

/-- The warning of R130 touches WARN_SOFT alone of what a call shows. -/
theorem warned_status (s : State) :
    s.warned.status.warnSoft =
        (s.status.warnSoft || decide (s.latch.limit.toNat = 0 ∧ 4096 < s.output.byteCount.toNat + 16)) ∧
      s.warned.status.trunc = s.status.trunc ∧ s.warned.status.warnMargin = s.status.warnMargin := by
  by_cases hdue : SoftLimitDue s
  · rw [State.warned, if_pos hdue]
    exact ⟨by simp [hdue.1, hdue.2.2], rfl, rfl⟩
  · rw [State.warned, if_neg hdue]
    refine ⟨?_, rfl, rfl⟩
    cases hw : s.status.warnSoft with
    | true => rfl
    | false => simpa [SoftLimitDue, hw] using hdue

/-- The machine's append is that of R137. -/
theorem soFar_outAppend (h : OutputInv s.output) {b : List Byte} (hb : b.length = 16) :
    (s.warned.outAppend b).soFar = s.soFar.append s.latch b := by
  obtain ⟨hsoft, htrunc, -⟩ := warned_status s
  have hbound := h.bounded
  have hbytes : (s.warned.outAppend b).output.bytes = s.output.bytes ++ b := by
    rw [s.warned_outAppend_output]
    exact State.outAppend_bytes h.canonical (by omega)
  simp only [State.soFar, CallSoFar.append, hbytes, State.outAppend_seq, State.warned_seq, State.outAppend_status,
    hsoft, htrunc, Output.length_bytes]

/-- TILE_COUNT after an image tile is counted: no wrap (R121). -/
theorem Inv.tileCount_countTile (h : Inv s) (hp : s.seq.phase = .scan)
    (hlt : s.seq.tileCount.toNat < s.seq.nTiles.toNat) (b : List Byte) :
    (s.requested.warned.countTile b).seq.tileCount.toNat = s.seq.tileCount.toNat + 1 := by
  have hn := h.nTiles_le ((busy_iff s).mpr (.inl hp))
  rw [State.requested_warned_countTile_seq]
  show (s.seq.tileCount + 1).toNat = _
  bv_omega

/-- The tile counted by the machine is that of R137. -/
theorem Inv.soFar_countTile (h : Inv s) (hp : s.seq.phase = .scan) (hlt : s.seq.tileCount.toNat < s.seq.nTiles.toNat) :
    (s.requested.warned.countTile s.replyBytes).soFar = s.soFar.countTile s.env.answer s.latch := by
  have happend := soFar_outAppend (s := s.requested) h.output (length_tileBytes s.latch.planeOrder s.reply)
  have hbytes : callTile s.env.answer s.latch s.soFar.tiles = s.replyBytes := by
    rw [callTile, h.callAnswer_eq hp]
  calc (s.requested.warned.countTile s.replyBytes).soFar
      = { (s.requested.warned.outAppend s.replyBytes).soFar with tiles := s.seq.tileCount.toNat + 1 } := by
        rw [← h.tileCount_countTile hp hlt s.replyBytes]; rfl
    _ = s.soFar.countTile s.env.answer s.latch := by
        rw [happend, CallSoFar.countTile, hbytes]; rfl

/-- Taking a tile off the padding to come shows nothing. -/
theorem soFar_countPad (b : List Byte) (s : State) : (s.countPad b).soFar = (s.outAppend b).soFar := rfl

/-- No turn changes how the call will end (R136, R137). -/
theorem Inv.outcome_turnEffect (h : Inv s) (e : TurnEffect s t) : t.outcome = s.outcome := by
  cases e with
  | nothing => rfl
  | raised hp hlt hr =>
    obtain ⟨n, hn⟩ := Nat.exists_eq_add_one.mpr (Nat.sub_pos_of_lt hlt)
    rw [outcome_of_scan hp, hn, callTiles_of_error n (by rwa [h.callAnswer_eq hp])]
    rfl
  | tile hp hlt hr hroom =>
    obtain ⟨n, hn⟩ := Nat.exists_eq_add_one.mpr (Nat.sub_pos_of_lt hlt)
    have hleft : (s.requested.warned.countTile s.replyBytes).seq.nTiles.toNat -
        (s.requested.warned.countTile s.replyBytes).seq.tileCount.toNat = n := by
      rw [h.tileCount_countTile hp hlt, State.requested_warned_countTile_seq]
      show s.seq.nTiles.toNat - (s.seq.tileCount.toNat + 1) = n
      omega
    rw [outcome_of_scan hp, hn, callTiles_of_room n (by rwa [h.callAnswer_eq hp]) ((hasRoom_iff_callRoom s).mp hroom),
      outcome_of_scan (by rw [State.requested_warned_countTile_seq]; exact hp), hleft, h.soFar_countTile hp hlt,
      State.countTile_latch, State.warned_latch, State.countTile_env, State.warned_env]
    rfl
  | tileCut hp hlt hr hfull =>
    obtain ⟨n, hn⟩ := Nat.exists_eq_add_one.mpr (Nat.sub_pos_of_lt hlt)
    rw [outcome_of_scan hp, hn,
      callTiles_of_full n (by rwa [h.callAnswer_eq hp]) (mt (hasRoom_iff_callRoom s).mpr hfull)]
    rfl
  | endOfScan hp hall =>
    have hnone : s.seq.nTiles.toNat - s.seq.tileCount.toNat = 0 := by omega
    have hlength : s.soFar.out.length = s.output.byteCount.toNat := s.output.length_bytes
    rw [outcome_of_scan hp, hnone, callTiles, callRest, hlength, outcome_of_pad rfl, endOfScan_padLeft]
    rfl
  | padding hp hleft hroom =>
    obtain ⟨n, hn⟩ := Nat.exists_eq_add_one.mpr hleft
    have hpads : (s.warned.countPad paddingTile).seq.padLeft.toNat = n := by
      rw [State.warned_countPad_seq]
      show (s.seq.padLeft - 1).toNat = n
      bv_omega
    rw [outcome_of_pad hp, hn, callPad_of_room n ((hasRoom_iff_callRoom s).mp hroom),
      outcome_of_pad (by rw [State.warned_countPad_seq]; exact hp), hpads, soFar_countPad,
      soFar_outAppend h.output length_paddingTile, State.countPad_latch, State.warned_latch]
  | padCut hp hleft hfull =>
    obtain ⟨n, hn⟩ := Nat.exists_eq_add_one.mpr hleft
    rw [outcome_of_pad hp, hn, callPad_of_full n (mt (hasRoom_iff_callRoom s).mpr hfull)]
    rfl
  | finish hp hnone =>
    rw [outcome_of_pad hp, hnone]
    rfl

/-! ### How many turns a call takes (R136) -/

/-- The turns still to come, if nothing ends the call before: one for each tile and padding tile, one for the end of the
scan, one for the end of the call. -/
def Machine.State.turnsLeft (s : State) : Nat :=
  match s.seq.phase with
  | .scan =>
    s.seq.nTiles.toNat - s.seq.tileCount.toNat +
      padWanted s.latch s.seq.nTiles.toNat (16 * s.seq.nTiles.toNat) + 2
  | .pad => s.seq.padLeft.toNat + 1
  | _ => 0

theorem turnsLeft_of_scan (hp : s.seq.phase = .scan) : s.turnsLeft =
    s.seq.nTiles.toNat - s.seq.tileCount.toNat +
      padWanted s.latch s.seq.nTiles.toNat (16 * s.seq.nTiles.toNat) + 2 := by
  rw [State.turnsLeft, hp]

theorem turnsLeft_of_pad (hp : s.seq.phase = .pad) : s.turnsLeft = s.seq.padLeft.toNat + 1 := by
  rw [State.turnsLeft, hp]

/-- No turn is left exactly where no call runs. -/
theorem turnsLeft_eq_zero_iff (s : State) : s.turnsLeft = 0 ↔ s.busy = false := by
  cases hp : s.seq.phase <;> simp [State.turnsLeft, State.busy, hp]

/-- Every turn of a running call leaves fewer (R136). -/
theorem Inv.turnsLeft_lt (h : Inv s) (hb : s.busy = true) (e : TurnEffect s t) : t.turnsLeft < s.turnsLeft := by
  cases e with
  | nothing idle =>
    rcases idle with hidle | ⟨hp, hgt⟩
    · exact absurd (hb.symm.trans hidle) nofun
    · exact absurd (h.scanning hp).1 hgt.not_ge
  | raised hp => rw [turnsLeft_of_scan hp]; exact Nat.succ_pos _
  | tile hp hlt hr hroom =>
    rw [turnsLeft_of_scan hp, turnsLeft_of_scan (by rw [State.requested_warned_countTile_seq]; exact hp),
      h.tileCount_countTile hp hlt, State.countTile_latch, State.warned_latch, State.requested_warned_countTile_seq]
    show s.seq.nTiles.toNat - (s.seq.tileCount.toNat + 1) +
      padWanted s.latch s.seq.nTiles.toNat (16 * s.seq.nTiles.toNat) + 2 < _
    omega
  | tileCut hp => rw [turnsLeft_of_scan hp]; exact Nat.succ_pos _
  | endOfScan hp hall =>
    rw [turnsLeft_of_scan hp, turnsLeft_of_pad rfl, endOfScan_padLeft, (h.scanning hp).2, hall]
    omega
  | padding hp hleft hroom =>
    rw [turnsLeft_of_pad hp, turnsLeft_of_pad (by rw [State.warned_countPad_seq]; exact hp),
      State.warned_countPad_seq]
    show (s.seq.padLeft - 1).toNat + 1 < _
    bv_omega
  | padCut hp => rw [turnsLeft_of_pad hp]; exact Nat.succ_pos _
  | finish hp => rw [turnsLeft_of_pad hp]; exact Nat.succ_pos _

end Outcome

/-! ### A call from its start on -/

/-- A state that a call reaches: the invariants hold, the call has not been forgotten, it will end as `assemble` says,
and once it has ended the registers say so. -/
structure CallPoint (answer : QReq → QRsp) (l : Latch) (s : State) : Prop where
  inv : Inv s
  begun : s.seq.phase ≠ .idle
  valid : s.seq.phase = .done → s.status.outValid = true
  info : s.seq.phase = .error → s.status.errInfo = s.seq.tileCount
  outcome : s.outcome = assembleCall answer l
  margin : s.status.warnMargin = l.margin

section CallPoint

variable {answer : QReq → QRsp} {l : Latch} {s t : State}

/-- A turn leaves WARN_MARGIN (R122). -/
theorem turnEffect_warnMargin (e : TurnEffect s t) : t.status.warnMargin = s.status.warnMargin := by
  cases e with
  | tile => exact (warned_status s.requested).2.2
  | padding => rw [State.countPad_status]; exact (warned_status s).2.2
  | _ => rfl

/-- A turn that ends a call in DONE sets OUT_VALID, and one that ends it in ERROR puts the tile's number in ERR_INFO
(R135, R139). -/
theorem turnEffect_ends (e : TurnEffect s t) : t = s ∨
    (t.seq.phase ≠ .idle ∧ (t.seq.phase = .done → t.status.outValid = true) ∧
      (t.seq.phase = .error → t.status.errInfo = t.seq.tileCount)) := by
  have running : t.seq.phase = .scan ∨ t.seq.phase = .pad → t.seq.phase ≠ .idle ∧
      (t.seq.phase = .done → t.status.outValid = true) ∧
        (t.seq.phase = .error → t.status.errInfo = t.seq.tileCount) := by
    rintro (hp | hp) <;> simp [hp]
  cases e with
  | nothing => exact .inl rfl
  | raised => exact .inr ⟨nofun, nofun, fun _ => rfl⟩
  | tile hp => exact .inr (running (.inl (by rw [State.requested_warned_countTile_seq]; exact hp)))
  | tileCut => exact .inr ⟨nofun, fun _ => rfl, nofun⟩
  | endOfScan => exact .inr (running (.inr rfl))
  | padding hp => exact .inr (running (.inr (by rw [State.warned_countPad_seq]; exact hp)))
  | padCut => exact .inr ⟨nofun, fun _ => rfl, nofun⟩
  | finish => exact .inr ⟨nofun, fun _ => rfl, nofun⟩

theorem CallPoint.turnEffect (h : CallPoint answer l s) (e : TurnEffect s t) : CallPoint answer l t := by
  have hinv : Inv t := e.sequence_eq ▸ h.inv.sequence
  have houtcome : t.outcome = assembleCall answer l := (h.inv.outcome_turnEffect e).trans h.outcome
  have hmargin : t.status.warnMargin = l.margin := (turnEffect_warnMargin e).trans h.margin
  rcases turnEffect_ends e with rfl | ⟨hbegun, hvalid, hinfo⟩
  · exact h
  · exact ⟨hinv, hbegun, hvalid, hinfo, houtcome, hmargin⟩

theorem CallPoint.turn (h : CallPoint answer l s) : CallPoint answer l s.turn :=
  have hclear : CallPoint answer l s.clearPort :=
    ⟨h.inv.congr ⟨rfl, rfl, rfl, rfl, _, _, rfl⟩, h.begun, h.valid, h.info, h.outcome, h.margin⟩
  hclear.turnEffect s.clearPort.sequence_effect

theorem CallPoint.turns (h : CallPoint answer l s) (n : Nat) : CallPoint answer l (State.turn^[n] s) := by
  induction n generalizing s with
  | zero => exact h
  | succ n ih => exact ih h.turn

/-- A start with no error recorded meets the invariants, whatever ran before (R120). -/
theorem startCall_inv (he : s.status.errCode = none) : Inv s.startCall := by
  have hfresh : Inv { s.clearCall with latch := State.reset.latch } :=
    .of_fresh rfl rfl rfl rfl rfl ⟨_, _, rfl⟩ (show 0 < State.reset.latch.mult.toNat by decide)
  have hstart := hfresh.startCall nofun
  have hinfo : Inv { State.startCall { s.clearCall with latch := State.reset.latch } with
      status.errInfo := s.status.errInfo } := { hstart with fresh := by simp }
  exact hinfo.congr ⟨by simp, by simp, by simp, by simp, s.status.permValid, s.status.planeValid, by simp [he]⟩

/-- The start of a call is a point of it (R120). -/
theorem CallPoint.startCall (he : s.status.errCode = none) :
    CallPoint s.env.answer s.config.latched s.startCall where
  inv := startCall_inv he
  begun := by simp
  valid := by simp
  info := by simp
  outcome := by
    have hsofar : s.startCall.soFar = .empty := by
      simp [State.soFar, CallSoFar.empty, Output.bytes]
    rw [assembleCall_eq, outcome_of_scan (by simp), hsofar, startCall_nTiles, State.startCall_latch,
      State.startCall_env, State.startCall_seq]
    rfl
  margin := by simp

/-- After as many turns as are left no call runs (R136). -/
theorem CallPoint.ended (h : CallPoint answer l s) {n : Nat} (hn : s.turnsLeft ≤ n) :
    (State.turn^[n] s).busy = false := by
  induction n generalizing s with
  | zero => exact (turnsLeft_eq_zero_iff s).mp (Nat.le_zero.mp hn)
  | succ n ih =>
    refine ih h.turn ?_
    cases hb : s.busy with
    | true =>
      have hclear : Inv s.clearPort := h.inv.congr ⟨rfl, rfl, rfl, rfl, _, _, rfl⟩
      have hlt : s.turn.turnsLeft < s.turnsLeft := hclear.turnsLeft_lt hb s.clearPort.sequence_effect
      omega
    | false =>
      have hzero : s.turn.turnsLeft = 0 := by
        rw [State.turn, State.sequence_of_not_busy (s := s.clearPort) hb]
        exact (turnsLeft_eq_zero_iff s).mpr hb
      omega

/-- A call that stands in DONE has ended so (R137). -/
theorem CallPoint.assembleCall_of_done (h : CallPoint answer l s) (hp : s.seq.phase = .done) :
    assembleCall answer l = .done s.soFar :=
  h.outcome.symm.trans (outcome_of_done hp)

/-- Where no call runs any more the registers hold the end that `assemble` gives (R137, R198). -/
theorem CallPoint.holdsEnd (h : CallPoint answer l s) (hb : s.busy = false) :
    holdsEnd s (assembleCall answer l) := by
  cases hp : s.seq.phase with
  | idle => exact absurd hp h.begun
  | scan | pad => simp [State.busy, hp] at hb
  | done =>
    rw [h.assembleCall_of_done hp]
    exact ⟨hp, h.valid hp, rfl, s.output.length_bytes.symm, rfl, rfl, rfl, h.inv.no_error (by simp [hp])⟩
  | error =>
    obtain ⟨kind, hkind⟩ := Option.ne_none_iff_exists'.mp (h.inv.errorCode.mpr hp)
    have hvalid : s.status.outValid = false := by
      cases hv : s.status.outValid with
      | true => exact absurd ((h.inv.validDone hv).symm.trans hp) nofun
      | false => rfl
    rw [← h.outcome, outcome_of_error hp hkind]
    exact ⟨hp, hvalid, rfl, s.output.length_bytes.symm, rfl, rfl, rfl, hkind, congrArg BitVec.toNat (h.info hp)⟩

/-- The turns a call can take at its start (R136). -/
theorem turnsLeft_startCall (s : State) : s.startCall.turnsLeft = callUnits s.config.latched + 2 := by
  rw [turnsLeft_of_scan (by simp), startCall_nTiles, State.startCall_latch, State.startCall_seq]
  rfl

end CallPoint

/-- No call wants more than 65534 padding tiles, nor more than 256 with no multiple (R136). -/
theorem callUnits_le (l : Latch) :
    callUnits l ≤ callTileCount l + 65534 ∧ (l.mult.toNat ≤ 1 → callUnits l ≤ callTileCount l + 256) := by
  unfold callUnits
  by_cases hm : 1 < l.mult.toNat
  · have hlt := padWanted_lt_mult hm (callTileCount l) (16 * callTileCount l)
    have hmult := l.mult.isLt
    exact ⟨by omega, fun hle => absurd hm hle.not_gt⟩
  · have hwanted : padWanted l (callTileCount l) (16 * callTileCount l) ≤ 256 := by
      rw [padWanted, if_neg hm]
      split <;> omega
    exact ⟨by omega, fun _ => by omega⟩

end Sys2Proof

open Sys2Proof Sys2Proof.Machine in
/-- Settles O42: the start is a point of the call, every turn leads to another, and after all the turns left the end is
reached. -/
theorem callComputesAssemble : Obligations.CallComputesAssemble := by
  intro s hp he hi
  have hpoint := (CallPoint.startCall he).turns (callUnits s.config.latched + 2)
  obtain ⟨hle, hle'⟩ := callUnits_le s.config.latched
  refine ⟨_, callUnits s.config.latched + 2, _, exec_assemble hp, run_turns (by simpa using hi) _, by omega,
    fun hm => Nat.add_le_add_right (hle' hm) 2, hpoint.holdsEnd ?_, hpoint.margin⟩
  exact (CallPoint.startCall he).ended (turnsLeft_startCall s).le

/-! ## A call in DONE (R138) -/

namespace Sys2Proof

open Sys2Proof.Machine

/-- Two calls in step with one latch have produced the same. -/
theorem InStep.soFar_eq {s₁ s₂ : State} (h : InStep s₁ s₂) (hl : s₂.latch = s₁.latch) :
    s₂.soFar = s₁.soFar := by
  have hbytes : s₂.output.bytes = s₁.output.bytes := by rw [Output.bytes, h.byteCount, h.out hl]; rfl
  rw [State.soFar, hbytes, h.seq, h.warnSoft, h.trunc]
  rfl

/-- A call that stands in DONE after some turns has ended as `assemble` says; an error recorded before it is not in its
way (R137). -/
theorem call_in_done {s : State} {n : Nat}
    (hdone : (State.turn^[n] s.startCall).seq.phase = .done) :
    assembleCall s.env.answer s.config.latched = .done (State.turn^[n] s.startCall).soFar ∧
      (State.turn^[n] s.startCall).status.warnMargin = s.config.latched.margin := by
  have hpoint : CallPoint s.env.answer s.config.latched _ :=
    (CallPoint.startCall (s := { s with status.errCode := none }) rfl).turns n
  have hstep : InStep s.startCall (State.startCall { s with status.errCode := none }) := .startCall rfl fun _ => rfl
  have h := hstep.turns n
  have hsofar := h.soFar_eq (by simp [State.turns_latch, ConfigRegs.latched])
  exact ⟨hsofar ▸ hpoint.assembleCall_of_done (h.seq ▸ hdone), h.warnMargin ▸ hpoint.margin⟩

/-- The properties of R138, of registers that hold what `assemble` gives. -/
theorem doneCall_of_done {answer : QReq → QRsp} {l : Latch} {t : State} (h : assembleCall answer l = .done t.soFar)
    (hmargin : t.status.warnMargin = l.margin) : DoneCall answer l t := by
  obtain ⟨hsoft, htiles⟩ := outputHoldsTheTilesInOrder answer l _ h
  have hpadding := paddingIsExact answer l _ h
  exact
    { allTiles := fun htrunc => (hpadding htrunc).1
      cut := fun hl => truncationIsExact answer l _ hl h
      roundedUp := fun htrunc hm => by
        obtain ⟨-, hround, -, -, hzero⟩ := hpadding htrunc
        exact ⟨hround hm, hzero⟩
      unpadded := fun htrunc hm hnot => by
        obtain ⟨-, -, hlegacy, hnone, -⟩ := hpadding htrunc
        by_cases hleg : l.legacy = true ∧ l.limit.toNat = 0
        · have hfull : 4096 ≤ 16 * t.seq.tileCount.toNat := not_lt.mp fun hlt => hnot ⟨hleg.1, hleg.2, hlt⟩
          exact (hlegacy hm hleg.1 hleg.2).trans (max_eq_left hfull)
        · exact hnone hm hleg
      soft := hsoft
      margin := by rw [hmargin]; exact margin_iff l
      ownTile := htiles }

/-- Units exchanged are halves exchanged (R138 (h)). -/
theorem UnitsSwapped.halvesExchanged {a b : List Byte} (h : UnitsSwapped a b) : HalvesExchanged a b where
  length := h.length
  first i j hj := by
    rw [h.swapped i j (by omega), Nat.mod_eq_of_lt (by omega)]
  second i j hj := by
    rw [h.swapped i (j + 8) (by omega), show (j + 8 + 8) % 16 = j by omega]

end Sys2Proof

open Sys2Proof Sys2Proof.Machine in
/-- Settles O59: (a) to (g) are those of `assemble`, whose result the registers hold; for (h) the two calls are in step,
so both are in DONE, with the results of the two plane orders. -/
theorem doneCallHasTheStatedProperties : Obligations.DoneCallHasTheStatedProperties := by
  constructor
  · intro s t u n hp hi ht hu hdone
    obtain rfl := Host.Outcome.next.inj ((exec_assemble hp).symm.trans ht)
    obtain rfl := Host.Outcome.next.inj ((run_turns (by simpa using hi) n).symm.trans hu)
    obtain ⟨hassemble, hmargin⟩ := call_in_done hdone
    exact doneCall_of_done hassemble hmargin
  · intro s₁ s₂ t₁ t₂ u₁ n hp₁ hp₂ hi₁ hi₂ hanswer horder hconfig ht₁ ht₂ hu₁ hdone
    obtain rfl := Host.Outcome.next.inj ((exec_assemble hp₁).symm.trans ht₁)
    obtain rfl := Host.Outcome.next.inj ((exec_assemble hp₂).symm.trans ht₂)
    obtain rfl := Host.Outcome.next.inj ((run_turns (by simpa using hi₁) n).symm.trans hu₁)
    have hstart : InStep s₁.startCall s₂.startCall := .startCall (by rw [hconfig]) fun r => (hanswer r).symm
    have hdone₂ := (congrArg Sequencing.phase (hstart.turns n).seq).trans hdone
    have h₁ := (call_in_done hdone).1
    have h₂ := (call_in_done hdone₂).1
    rw [hconfig, ← funext hanswer] at h₂
    have hlow : s₁.config.latched.withOrder .lowThenHigh = s₁.config.latched := by rw [← horder]
    obtain ⟨r', hr', hswapped⟩ := assembleCall_swapped_done (l := s₁.config.latched) (hlow.symm ▸ h₁)
    obtain rfl := CallEnd.done.inj (hr'.symm.trans h₂)
    exact ⟨_, run_turns (by simpa using hi₂) n, hdone₂, hswapped.out.halvesExchanged⟩

/-! ## NOP (R155) -/

/-- Settles O19: NOP's meaning is the state it finds. -/
theorem nopChangesNothing : Obligations.NopChangesNothing :=
  fun _ => rfl

/-! ## While a call runs (R152) -/

namespace Sys2Proof.Machine

/-- `RD` puts the register's value out (R154). -/
theorem exec_rd (r : Reg) (s : State) :
    exec (.rd r) s = .next { s with port := { s.port with rdata := some (s.readReg r) } } := rfl

/-- Every instruction but a read is dropped while a call runs (R152). -/
theorem exec_of_busy {s : State} {i : Instr} (hb : s.busy = true) (hi : ∀ r, i ≠ .rd r) : exec i s = .next s := by
  obtain ⟨t, ht⟩ := exec_next i s
  obtain rfl | ⟨r, hr, -⟩ := (exec_effect ht).of_busy hb
  · exact ht
  · exact absurd hr (hi r)

end Sys2Proof.Machine

open Sys2Proof Sys2Proof.Machine in
/-- Settles O12: of the instructions only a read is served. -/
theorem writesWhileBusyAreDropped : Obligations.WritesWhileBusyAreDropped := by
  intro s i hb
  cases i with
  | rd r => exact exec_rd r s
  | _ => exact exec_of_busy hb nofun

open Sys2Proof Sys2Proof.Machine in
/-- Settles O55: the step is the instruction received, and while a call runs that is a read or nothing. -/
theorem hostCannotDisturbACall : Obligations.HostCannotDisturbACall := by
  intro s e rest hb hm
  rw [step_send hm]
  generalize received e = i
  cases i with
  | rd r =>
    exact ⟨_, exec_rd r (s.clearPort.setInputs rest), rfl, rfl, rfl, rfl, rfl, rfl, rfl, rfl, rfl, rfl, rfl,
      fun r' h => by cases h; rfl, fun h => absurd rfl (h r)⟩
  | _ =>
    exact ⟨_, exec_of_busy (s := s.clearPort.setInputs rest) hb nofun, rfl, rfl, rfl, rfl, rfl, rfl, rfl, rfl, rfl,
      rfl, rfl, nofun, fun _ => rfl⟩

/-! ## What a read returns (R154) -/

namespace Sys2Proof.Machine

/-- How the fields of a register are bracketed does not matter for its value. -/
theorem toNat_append_assoc {k m n : Nat} (x : BitVec k) (y : BitVec m) (z : BitVec n) :
    ((x ++ y) ++ z).toNat = (x ++ (y ++ z)).toNat := by
  rw [BitVec.append_assoc, BitVec.toNat_cast]

/-- PAL_CTRL, bit 31 first (R13). -/
theorem PalCtrl.toWord_eq_append (p : PalCtrl) :
    p.toWord = 0#25 ++ p.transpIdx ++ BitVec.ofBool p.transpEn ++ 0#1 ++ p.palLen := by
  apply BitVec.eq_of_toNat_eq
  simp only [toNat_append_assoc]
  rfl

/-- TILE_SHAPE, bit 31 first (R15). -/
theorem TileShape.toWord_eq_append (t : TileShape) : t.toWord = 0#19 ++ t.rows ++ 0#3 ++ t.cols := by
  apply BitVec.eq_of_toNat_eq
  simp only [toNat_append_assoc]
  rfl

/-- STATUS, bit 31 first (R19). -/
theorem State.statusWord_eq_append (s : State) :
    s.statusWord =
      0#19 ++ BitVec.ofBool s.status.planeValid ++ BitVec.ofBool s.status.permValid ++
        BitVec.ofBool s.status.trunc ++ BitVec.ofBool s.status.warnSoft ++ BitVec.ofBool s.status.warnMargin ++
        errCodeField s.status.errCode ++ BitVec.ofBool s.status.outValid ++ BitVec.ofBool s.isError ++
        BitVec.ofBool s.isDone ++ BitVec.ofBool s.busy := by
  apply BitVec.eq_of_toNat_eq
  simp only [toNat_append_assoc]
  rfl

/-- OUT_DATA reads the buffer's byte below BYTE_COUNT (R28). -/
theorem Output.zeroExtend_window (o : Output) :
    o.window.zeroExtend 32 =
      if o.outAddr.toNat < o.byteCount.toNat then 0#24 ++ o.out.read o.outAddr.toNat else 0#32 := by
  rw [Output.window, apply_ite (BitVec.zeroExtend 32)]
  exact ite_congr rfl (fun _ => BitVec.setWidth_eq_append (by decide)) fun _ => rfl

/-- ERR_CODE by the kind recorded (R166). -/
theorem errCodeField_eq (e : Option ErrorKind) :
    errCodeField e =
      (match e with
        | none => 0#4
        | some .shape => 1#4
        | some .paletteOverflow => 2#4
        | some .contract => 3#4
        | some .illegalCommand => 4#4) := by
  cases e with
  | none => rfl
  | some kind => cases kind <;> rfl

end Sys2Proof.Machine

open Sys2Proof Sys2Proof.Machine in
/-- Settles O15, register by register. -/
theorem readReturnsTheRegister : Obligations.ReadReturnsTheRegister := by
  refine fun s r => ⟨_, exec_rd r s, ?_⟩
  cases r with
  | cfg | widthMultiple | imgWidth | imgHeight | pal | perm | tileRow | plane0 | plane1 =>
    exact BitVec.setWidth_eq_append (by decide)
  | outData => exact s.output.zeroExtend_window
  | palCtrl => exact s.pn.palCtrl.toWord_eq_append
  | tileShape => exact s.te.tileShape.toWord_eq_append
  | status =>
    refine s.statusWord_eq_append.trans ?_
    rw [errCodeField_eq]
    rfl
  | _ => rfl

/-! ## A write to CMD (R150) -/

namespace Sys2Proof.Machine

/-- A write to CMD is its dispatch (R153). -/
theorem exec_wr_cmd (v : Word) (s : State) : exec (.wr .cmd v) s = .next (s.dispatch v) := by
  change execWr .cmd v s = _
  cases hb : s.busy with
  | true => rw [execWr, State.dispatch, if_pos hb, if_pos hb]
  | false => rw [execWr, if_neg (by simp [hb]), if_pos rfl]

/-- CLEAR is performed when no call runs (R151, R156). -/
theorem exec_clear {s : State} (hb : s.busy = false) : exec .clear s = .next s.clearCall :=
  congrArg Host.Outcome.next (if_pos (by rw [State.acceptsClear_eq_not_busy, hb]; rfl))

/-- Where no call runs and no error is recorded, commands are accepted (R151). -/
theorem State.acceptsCommand_of_not_busy_not_error {s : State} (hb : s.busy = false)
    (he : s.seq.phase ≠ .error) : s.acceptsCommand = true := by
  have he' : s.isError = false := by simpa [State.isError] using he
  rw [State.acceptsCommand_eq_not_busy_not_error, hb, he']
  rfl

end Sys2Proof.Machine

open Sys2Proof Sys2Proof.Machine in
/-- Settles O13: both sides are one chain of cases, whose commands are accepted where the chain reaches them. -/
theorem writeToCmdIsDispatched : Obligations.WriteToCmdIsDispatched := by
  refine fun s v => ⟨rfl, ?_⟩
  rw [exec_wr_cmd, State.dispatch]
  simp only [apply_ite Host.Outcome.next]
  refine ite_congr (propext (busy_iff s)) (fun _ => rfl) fun hnot => ?_
  have hb : s.busy = false := by simpa using mt (busy_iff s).mp hnot
  refine ite_congr rfl (fun _ => rfl) fun _ => ?_
  refine ite_congr rfl (fun _ => (exec_clear hb).symm) fun _ => ?_
  refine ite_congr (propext (isError_iff s)) (fun _ => rfl) fun he => ?_
  have ha : s.acceptsCommand = true := State.acceptsCommand_of_not_busy_not_error hb he
  have accepted : ∀ t, Host.Outcome.next (φ := Fault) (ρ := Refusal) t = .next (if s.acceptsCommand then t else s) :=
    fun t => congrArg Host.Outcome.next (if_pos ha).symm
  refine ite_congr rfl (fun _ => accepted _) fun _ => ?_
  refine ite_congr rfl (fun _ => accepted _) fun _ => ?_
  exact ite_congr rfl (fun _ => accepted _) fun _ => rfl

/-! ## ERROR and the way out of it (R151, R156, R173) -/

namespace Sys2Proof.Machine

/-- No call runs in ERROR. -/
theorem State.not_busy_of_error {s : State} (hp : s.seq.phase = .error) : s.busy = false := by
  rw [State.busy, hp]
  rfl

/-- No command is accepted in ERROR (R151). -/
theorem State.not_accepts_of_error {s : State} (hp : s.seq.phase = .error) : ¬ s.acceptsCommand = true :=
  fun ha => phase_ne_error_of_accepts ha hp

/-- In ERROR an instruction leaves the call and the error record as they are, or is CLEAR (R151). -/
theorem ExecEffect.of_error {s t : State} {i : Instr} (e : ExecEffect s i t) (hp : s.seq.phase = .error) :
    SameCall s t ∨ ((i = .clear ∨ i = .wr .cmd 4) ∧ t = s.clearCall) := by
  have hnot := State.not_accepts_of_error hp
  cases e with
  | nothing => exact .inl ⟨rfl, rfl, rfl, rfl, _, _, rfl⟩
  | read => exact .inl ⟨rfl, rfl, rfl, rfl, _, _, rfl⟩
  | write r v => exact .inl (.writeReg s r v)
  | clear instr => exact .inr ⟨instr, rfl⟩
  | normalize _ ha | encodeTile _ ha | start _ ha | illegal _ _ ha => exact absurd ha hnot

/-- In ERROR a step leaves the call and the error record as they are, or is CLEAR, or is the reset input (R173). -/
theorem step_of_error {s t : State} (hp : s.seq.phase = .error) (h : step s = .next t) :
    SameCall s t ∨ (NextClears s ∧ t = s.taken.clearCall) ∨ (NextResets s ∧ t = s.taken.applyReset) := by
  cases step_effect h with
  | turn =>
    rw [State.sequence_of_not_busy (s := s.taken) (State.not_busy_of_error hp)]
    exact .inl (.taken s)
  | instr i _ moves effect =>
    obtain ⟨hseq, hlatch, hout, hcount, hstatus⟩ | ⟨hi, rfl⟩ := effect.of_error hp
    · exact .inl ⟨hseq, hlatch, hout, hcount, hstatus⟩
    · exact .inr (.inl ⟨NextIs.clears moves hi, rfl⟩)
  | reset moves => exact .inr (.inr ⟨moves, rfl⟩)
  | image => exact .inl ⟨rfl, rfl, rfl, rfl, _, _, rfl⟩

end Sys2Proof.Machine

open Sys2Proof Sys2Proof.Machine in
/-- Settles O50: a step from ERROR that is neither CLEAR nor reset leaves the call and the error record. -/
theorem errorIsSticky : Obligations.ErrorIsSticky := by
  intro s t hp hstep
  obtain ⟨hseq, -, hout, hcount, _, _, hstatus⟩ | ⟨hclears, rfl⟩ | ⟨hresets, rfl⟩ := step_of_error hp hstep
  · exact .inr (.inr ⟨hseq, by rw [hstatus], by rw [hstatus], hout, hcount⟩)
  · exact .inr (.inl ⟨hclears, rfl, rfl⟩)
  · exact .inl ⟨hresets, rfl⟩

open Sys2Proof Sys2Proof.Machine in
/-- Settles O31: the commands' guard fails in ERROR, CLEAR's holds. -/
theorem errorDropsTheCommands : Obligations.ErrorDropsTheCommands := by
  intro s hp
  have dropped : ∀ t, Host.Outcome.next (φ := Fault) (ρ := Refusal) (if s.acceptsCommand then t else s) = .next s :=
    fun t => congrArg Host.Outcome.next (if_neg (State.not_accepts_of_error hp))
  exact ⟨dropped _, dropped _, dropped _, nopChangesNothing s, _, exec_clear (State.not_busy_of_error hp), rfl⟩

/-! ## CLEAR (R156) -/

namespace Sys2Proof.Machine

/-- After CLEAR the bits 10..0 of STATUS are 0 (R156). -/
theorem State.clearCall_statusWord_low (s : State) : s.clearCall.statusWord.extractLsb' 0 11 = 0#11 := by
  have hcode : errCodeField s.clearCall.status.errCode = 0#4 := rfl
  ext k hk
  rw [BitVec.getElem_extractLsb', statusWord_getLsbD, hcode, BitVec.getLsbD_zero, BitVec.getElem_zero]
  interval_cases k <;> rfl

/-- With nothing in the buffer OUT_DATA reads 0 (R28). -/
theorem State.readReg_outData_of_empty {s : State} (h : s.output.byteCount = 0) : s.readReg .outData = 0 := by
  rw [State.readReg_outData, if_neg (by simp [h])]

end Sys2Proof.Machine

namespace Sys2Proof

open Sys2Proof.Machine

/-- In IDLE, by the invariants, nothing is left for CLEAR to change (R156). -/
theorem Inv.clearCall_eq_self {s : State} (h : Inv s) (hp : s.seq.phase = .idle) : s.clearCall = s := by
  obtain ⟨hout, hcount, htiles, hpad, hmargin, hsoft, htrunc, hinfo⟩ := h.fresh hp
  have hvalid : s.status.outValid = false := by
    simpa [hp] using mt h.validDone
  have hcode : s.status.errCode = none := by
    simpa [hp] using h.errorCode
  obtain ⟨config, pn, te, ⟨outValid, errCode, warnMargin, warnSoft, trunc, permValid, planeValid, errInfo⟩,
    ⟨phase, tileCount, padLeft, tilesX, tilesY, nTiles⟩, ⟨out, byteCount, outAddr⟩, latch, env, port⟩ := s
  cases hp; cases hout; cases hcount; cases htiles; cases hpad; cases hmargin; cases hsoft; cases htrunc
  cases hinfo; cases hvalid; cases hcode
  rfl

end Sys2Proof

open Sys2Proof Sys2Proof.Machine in
/-- Settles O20: CLEAR is the return, which the invariants leave nothing to change in IDLE, and out of ERROR leads only
what `step_of_error` lists. -/
theorem clearReturnsToIdle : Obligations.ClearReturnsToIdle := by
  refine fun s => ⟨fun hb => ?_, fun hb => exec_of_busy hb nofun, fun hinv hp => ?_, fun t hp hstep hleft => ?_⟩
  · exact ⟨_, exec_clear hb, rfl, rfl, rfl, rfl, rfl, rfl, rfl, s.clearCall_statusWord_low,
      fun _ => State.readReg_outData_of_empty rfl, rfl, rfl, rfl, rfl, rfl, rfl, rfl, rfl, rfl, rfl, rfl, rfl⟩
  · have hb : s.busy = false := by simp [State.busy, hp]
    rw [exec_clear hb, hinv.clearCall_eq_self hp]
  · obtain hsame | ⟨hclears, -⟩ | ⟨hresets, -⟩ := step_of_error hp hstep
    · exact absurd (hsame.seq ▸ hp) hleft
    · exact .inl hclears
    · exact .inr hresets

/-! ## IllegalCommand (R168) -/

namespace Sys2Proof.Machine

/-- A value that is no command word raises where commands are accepted and is dropped elsewhere (R63, R168). -/
theorem State.dispatch_of_reserved {s : State} {v : Word} (hv : 4 < v.toNat) :
    s.dispatch v = if s.acceptsCommand then s.raise .illegalCommand v else s := by
  have noCommand : ∀ k : Word, k.toNat ≤ 4 → v ≠ k := fun k hk h => by rw [h] at hv; omega
  rcases s.dispatch_cases v with ⟨h, hdrop⟩ | ⟨-, -, h4⟩ | ⟨ha, ⟨h1, -⟩ | ⟨h2, -⟩ | ⟨h3, -⟩ | ⟨-, h⟩⟩
  · have hnot : ¬ s.acceptsCommand = true := by
      rw [State.acceptsCommand_eq_not_busy_not_error]
      rcases hdrop with hb | h0 | he
      · simp [hb]
      · exact absurd h0 (noCommand 0 (by decide))
      · simp [he]
    rw [h, if_neg hnot]
  · exact absurd h4 (noCommand 4 (by decide))
  · exact absurd h1 (noCommand 1 (by decide))
  · exact absurd h2 (noCommand 2 (by decide))
  · exact absurd h3 (noCommand 3 (by decide))
  · rw [h, if_pos ha]

end Sys2Proof.Machine

open Sys2Proof Sys2Proof.Machine in
/-- Settles O14: fatal-error entry in the two phases that accept commands, nothing in the other three. -/
theorem illegalCommandIsRaised : Obligations.IllegalCommandIsRaised := by
  intro s v hv
  rw [exec_wr_cmd, State.dispatch_of_reserved hv]
  refine ⟨fun hp => ?_, fun hp => ?_⟩
  · rw [if_pos (s.acceptsCommand_iff.mpr hp)]
    exact ⟨_, rfl, rfl, statusWord_errCode _, rfl, rfl, rfl, rfl, rfl, rfl, rfl, rfl, rfl, rfl⟩
  · have hnot : ¬ s.acceptsCommand = true := by
      rw [s.acceptsCommand_iff]
      rcases hp with hp | hp | hp <;> simp [hp]
    rw [if_neg hnot]

/-! ## Events and their STATUS bits (R169, R172) -/

namespace Sys2Proof.Machine

/-- The STATUS bit that an event sets (R166, R169). -/
def Event.statusBit (e : Event) (s : State) : Bool :=
  match e with
  | .margin => s.status.warnMargin
  | .softLimit => s.status.warnSoft
  | .truncation => s.status.trunc
  | .fatal => s.isError

/-- From `s` to `t` the event given, if any, sets its bit, and a bit is set by its event only (R169). -/
structure MirrorsEvents (s t : State) : Prop where
  sets (e : Event) : t.port.event = some e → e.statusBit t = true
  gives (e : Event) : e.statusBit s = false → e.statusBit t = true → t.port.event = some e

/-- The STATUS bits of the events are part of the call's own state. -/
theorem Event.statusBit_of_sameCall {s t : State} (h : SameCall s t) (e : Event) :
    e.statusBit t = e.statusBit s := by
  obtain ⟨hseq, -, -, -, _, _, hstatus⟩ := h
  cases e with
  | fatal => exact congrArg (fun q : Sequencing => q.phase == .error) hseq
  | _ => simp only [Event.statusBit, hstatus]

/-- With no event given and no bit newly set there is nothing to mirror. -/
theorem MirrorsEvents.of_quiet {s t : State} (hquiet : t.port.event = none)
    (hbits : ∀ e : Event, e.statusBit t = true → e.statusBit s = true) : MirrorsEvents s t where
  sets e he := by simp [hquiet] at he
  gives e hs ht := by simp [hbits e ht] at hs

/-- An event given sets its bit, and no other is newly set. -/
theorem MirrorsEvents.of_event {s t : State} {e : Event} (hgiven : t.port.event = some e)
    (hset : e.statusBit t = true)
    (hbits : ∀ e' : Event, e' ≠ e → e'.statusBit t = true → e'.statusBit s = true) : MirrorsEvents s t where
  sets e' he' := by
    obtain rfl := Option.some.inj (hgiven.symm.trans he')
    exact hset
  gives e' hs ht := by
    by_cases heq : e' = e
    · rw [heq, hgiven]
    · simp [hbits e' heq ht] at hs

/-- What is mirrored from a state is mirrored from any that agrees with it on the call. -/
theorem MirrorsEvents.after_sameCall {s u t : State} (h : SameCall s u) (m : MirrorsEvents u t) :
    MirrorsEvents s t where
  sets := m.sets
  gives e hs := m.gives e ((e.statusBit_of_sameCall h).trans hs)

/-- Where the call's own state stays and no event is given, events are mirrored. -/
theorem MirrorsEvents.of_sameCall {s t : State} (h : SameCall s t) (hquiet : t.port.event = none) :
    MirrorsEvents s t :=
  .after_sameCall h (.of_quiet hquiet fun _ he => he)

/-- Fatal-error entry sets ERROR and gives the fatal event (R171). -/
theorem MirrorsEvents.raise (s : State) (kind : ErrorKind) (info : Word) : MirrorsEvents s (s.raise kind info) := by
  refine .of_event rfl rfl fun e hne he => ?_
  cases e with
  | fatal => exact absurd rfl hne
  | _ => exact he

/-- A call cut off at the hard limit has TRUNC set and the truncation event given (R131). -/
theorem MirrorsEvents.cut (s : State) : MirrorsEvents s s.cut := by
  refine .of_event rfl rfl fun e hne he => ?_
  cases e with
  | truncation => exact absurd rfl hne
  | fatal => exact absurd he nofun
  | _ => exact he

/-- The soft-limit warning, where it is due, sets WARN_SOFT and gives its event (R130). -/
theorem MirrorsEvents.warned {s : State} (hquiet : s.port.event = none) : MirrorsEvents s s.warned := by
  unfold State.warned
  split
  · refine .of_event rfl rfl fun e hne he => ?_
    cases e with
    | softLimit => exact absurd rfl hne
    | _ => exact he
  · exact .of_quiet hquiet fun _ he => he

/-- A tile appended and counted changes neither the event nor the bits. -/
theorem MirrorsEvents.countTile {s t : State} (h : MirrorsEvents s t) (b : List Byte) :
    MirrorsEvents s (t.countTile b) :=
  ⟨h.sets, h.gives⟩

/-- A padding tile appended and counted changes neither the event nor the bits. -/
theorem MirrorsEvents.countPad {s t : State} (h : MirrorsEvents s t) (b : List Byte) :
    MirrorsEvents s (t.countPad b) :=
  ⟨h.sets, h.gives⟩

/-- The start sets WARN_MARGIN with its event where there is a margin, and clears the other bits (R120, R122). -/
theorem MirrorsEvents.startCall {s : State} (hquiet : s.port.event = none) : MirrorsEvents s s.startCall := by
  have hbit : ∀ e : Event, e.statusBit s.startCall = true → e = .margin ∧ s.config.latched.margin = true := by
    intro e he
    cases e with
    | margin => exact ⟨rfl, by simpa [Event.statusBit] using he⟩
    | fatal => simp [Event.statusBit, State.isError] at he
    | _ => simp [Event.statusBit] at he
  by_cases hm : s.config.latched.margin = true
  · exact .of_event (e := .margin) (by simp [hm]) (by simp [Event.statusBit, hm])
      fun e hne he => absurd (hbit e he).1 hne
  · exact .of_quiet (by simp [hm, hquiet]) fun e he => absurd (hbit e he).2 hm

/-- After CLEAR no event's bit is set (R156). -/
theorem Event.statusBit_clearCall (e : Event) (s : State) : e.statusBit s.clearCall = false := by
  cases e <;> rfl

/-- After reset no event's bit is set (R37). -/
theorem Event.statusBit_applyReset (e : Event) (s : State) : e.statusBit s.applyReset = false := by
  cases e <;> rfl

/-- NORMALIZE gives an event with fatal-error entry only (R87). -/
theorem MirrorsEvents.performNormalize {s : State} (hquiet : s.port.event = none) :
    MirrorsEvents s s.performNormalize := by
  rcases s.performNormalize_cases with ⟨kind, -, h⟩ | ⟨-, h⟩ <;> rw [h]
  · have hsame : SameCall s { s with status.permValid := false } := ⟨rfl, rfl, rfl, rfl, _, _, rfl⟩
    exact .after_sameCall hsame (.raise _ kind 0)
  · exact .of_sameCall ⟨rfl, rfl, rfl, rfl, _, _, rfl⟩ hquiet

/-- ENCODE_TILE gives an event with fatal-error entry only (R113). -/
theorem MirrorsEvents.performEncodeTile {s : State} (hquiet : s.port.event = none) :
    MirrorsEvents s s.performEncodeTile := by
  rcases s.performEncodeTile_cases with ⟨-, h⟩ | ⟨-, h⟩ <;> rw [h]
  · have hsame : SameCall s { s with status.planeValid := false } := ⟨rfl, rfl, rfl, rfl, _, _, rfl⟩
    exact .after_sameCall hsame (.raise _ .shape 0)
  · exact .of_sameCall ⟨rfl, rfl, rfl, rfl, _, _, rfl⟩ hquiet

/-- Every instruction mirrors its events. -/
theorem ExecEffect.mirrorsEvents {s t : State} {i : Instr} (effect : ExecEffect s i t)
    (hquiet : s.port.event = none) : MirrorsEvents s t := by
  cases effect with
  | nothing => exact .of_quiet hquiet fun _ he => he
  | read => exact .of_sameCall ⟨rfl, rfl, rfl, rfl, _, _, rfl⟩ hquiet
  | write r v => exact .of_sameCall (.writeReg s r v) (by rw [State.writeReg_port, hquiet])
  | clear => exact .of_quiet hquiet fun e he => absurd (e.statusBit_clearCall s) (by simp [he])
  | normalize => exact .performNormalize hquiet
  | encodeTile => exact .performEncodeTile hquiet
  | start => exact .startCall hquiet
  | illegal v => exact .raise s .illegalCommand v

/-- A turn of the sequencer mirrors its events: the two steps that move the phase on set no bit. -/
theorem TurnEffect.mirrorsEvents {s t : State} (effect : TurnEffect s t) (hquiet : s.port.event = none) :
    MirrorsEvents s t := by
  cases effect with
  | nothing => exact .of_quiet hquiet fun _ he => he
  | raised => exact .after_sameCall (.requested s) (.raise _ _ _)
  | tile =>
    have hwarned : MirrorsEvents s.requested s.requested.warned := .warned hquiet
    exact .after_sameCall (.requested s) (hwarned.countTile _)
  | tileCut => exact .after_sameCall (.requested s) (.cut _)
  | padding => exact (MirrorsEvents.warned hquiet).countPad _
  | padCut => exact .cut s
  | endOfScan | finish =>
    refine .of_quiet hquiet fun e he => ?_
    cases e with
    | fatal => exact absurd he nofun
    | _ => exact he

/-- Every step mirrors its events: its action begins with the event of the step before withdrawn. -/
theorem MirrorsEvents.step {s t : State} (h : Machine.step s = .next t) : MirrorsEvents s t := by
  suffices htaken : MirrorsEvents s.taken t from ⟨htaken.sets, htaken.gives⟩
  cases step_effect h with
  | turn => exact s.taken.sequence_effect.mirrorsEvents rfl
  | instr _ _ _ effect => exact effect.mirrorsEvents rfl
  | reset => exact .of_quiet rfl fun e he => absurd (e.statusBit_applyReset s.taken) (by simp [he])
  | image => exact .of_sameCall ⟨rfl, rfl, rfl, rfl, _, _, rfl⟩ rfl

end Sys2Proof.Machine

open Sys2Proof Sys2Proof.Machine in
/-- Settles O51: `MirrorsEvents.step`, event by event. -/
theorem eventsMirrorTheStatusBits : Obligations.EventsMirrorTheStatusBits := by
  intro s t hstep
  have h : MirrorsEvents s t := .step hstep
  refine ⟨?_, h.gives .margin, h.gives .softLimit, h.gives .truncation, fun hs ht => ?_⟩
  · cases hevent : t.port.event with
    | none => trivial
    | some e =>
      have hset := h.sets e hevent
      cases e with
      | fatal => exact (isError_iff t).mp hset
      | _ => exact hset
  · have hclear : s.isError = false := by simpa using mt (isError_iff s).mp hs
    exact h.gives .fatal hclear ((isError_iff t).mpr ht)

/-! ## The reset input and a new image (R190 to R192, R197) -/

namespace Sys2Proof.Machine

/-- A new image behind the quantizer between calls (R192). -/
theorem State.placeImage_of_not_busy {s : State} (answers : List (QReq × QRsp)) (hb : s.busy = false) :
    s.placeImage answers = .next { s with env.answers := answers } :=
  if_neg (by simp [hb])

/-- A new image while a call runs is the race the model stops on (R197). -/
theorem State.placeImage_of_busy {s : State} (answers : List (QReq × QRsp)) (hb : s.busy = true) :
    s.placeImage answers = .fault .imageChangedDuringCall :=
  if_pos hb

/-- Every move of the host but a new image answers a next state, in every state. -/
theorem State.perform_next {m : HostMove} (hm : ∀ answers, m ≠ .image answers) (s : State) :
    ∃ t, s.perform m = .next t := by
  cases m with
  | send e => exact exec_next (received e) s
  | yield => exact ⟨_, rfl⟩
  | reset => exact ⟨_, rfl⟩
  | image answers => exact absurd rfl (hm answers)

/-- The step of a reset input is the reset of the state the move was taken from (R190). -/
theorem step_reset {s : State} {rest : List HostMove} (h : s.env.inputs = .reset :: rest) :
    step s = .next (s.clearPort.setInputs rest).applyReset :=
  step_of_move h

/-- The step of a new image places it (R192, R197). -/
theorem step_image {s : State} {answers : List (QReq × QRsp)} {rest : List HostMove}
    (h : s.env.inputs = .image answers :: rest) : step s = (s.clearPort.setInputs rest).placeImage answers :=
  step_of_move h

/-- A new image between calls replaces the quantizer's answers. -/
theorem step_image_of_not_busy {s : State} {answers : List (QReq × QRsp)} {rest : List HostMove}
    (h : s.env.inputs = .image answers :: rest) (hb : s.busy = false) :
    step s = .next { s.clearPort.setInputs rest with env.answers := answers } :=
  (step_image h).trans (State.placeImage_of_not_busy answers hb)

/-- A new image while a call runs stops the model. -/
theorem step_image_of_busy {s : State} {answers : List (QReq × QRsp)} {rest : List HostMove}
    (h : s.env.inputs = .image answers :: rest) (hb : s.busy = true) :
    step s = .fault .imageChangedDuringCall :=
  (step_image h).trans (State.placeImage_of_busy answers hb)

/-- A step answers a next state unless a new image comes while a call runs. -/
theorem step_next {s : State} (h : ¬ (s.busy = true ∧ ∃ answers rest, s.env.inputs = .image answers :: rest)) :
    ∃ t, step s = .next t := by
  cases hmoves : s.env.inputs with
  | nil => exact ⟨_, step_of_no_moves hmoves⟩
  | cons m rest =>
    by_cases himage : ∃ answers, m = .image answers
    · obtain ⟨answers, rfl⟩ := himage
      have hb : s.busy = false := by simpa using fun hb => h ⟨hb, answers, rest, hmoves⟩
      exact ⟨_, step_image_of_not_busy hmoves hb⟩
    · rw [step_of_move hmoves]
      exact State.perform_next (not_exists.mp himage) _

end Sys2Proof.Machine

open Sys2Proof Sys2Proof.Machine in
/-- Settles O2: the step is `applyReset`, whose fields are those of `State.reset` but for the environment. -/
theorem resetInputWorksInEveryPhase : Obligations.ResetInputWorksInEveryPhase :=
  fun _ _ hmoves => ⟨_, step_reset hmoves, rfl, rfl, rfl, rfl, rfl, rfl, rfl, rfl, rfl, rfl⟩

open Sys2Proof Sys2Proof.Machine in
/-- Settles O10: the race stops (`step_image_of_busy`), all else goes on (`step_next`). -/
theorem stepStopsOnlyOnAnImageRace : Obligations.StepStopsOnlyOnAnImageRace := by
  intro s
  by_cases hrace : s.busy = true ∧ ∃ answers rest, s.env.inputs = .image answers :: rest
  · obtain ⟨hb, answers, rest, hmoves⟩ := hrace
    exact .inl ⟨hb, ⟨answers, rest, hmoves⟩, step_image_of_busy hmoves hb⟩
  · exact .inr ⟨hrace, step_next hrace⟩

open Sys2Proof Sys2Proof.Machine in
/-- Settles O57: the step of a new image, by whether a call runs. -/
theorem imageMayChangeBetweenCalls : Obligations.ImageMayChangeBetweenCalls :=
  fun _ _ _ hmoves =>
    ⟨fun hb => ⟨_, step_image_of_not_busy hmoves hb, rfl, rfl, rfl, rfl, rfl, rfl, rfl, rfl⟩,
      step_image_of_busy hmoves⟩
